-- ==== Sys2Proof/Word.lean ====
section
/-! DEFINITION. The word types of the HCE (00_scope R9: every register, counter and field is an unsigned
value of a fixed width, and arithmetic on it is modulo 2^N). -/

namespace Sys2Proof

/-- A 32-bit register, counter or command word (10_state R22, R31; 30_encoding R90). -/
abbrev Word := BitVec 32

/-- A byte value: a symbol, or a payload byte. -/
abbrev Byte := BitVec 8

/-- A node index, 9 bits (10_state R32; 20_memory R60). -/
abbrev NodeIx := BitVec 9

/-- One 255-bit entry of CODE_BITS (10_state R40): string position `i`, `c[i]` of 00_scope R10, is bit `i`. -/
abbrev CodeString := BitVec 255

end Sys2Proof
end

