-- ==== Sys2Proof/Config.lean ====
section
/-! DEFINITION. The parameters of 00_scope R6 (93_implementation_defined I10 to I13: treatment "parameter").
The spec leaves no observable value open, so there is no free value here (INVENTORY.md, ## State). -/

namespace Sys2Proof

/-- CONTAINER_INT_ORDER (00_scope R6, D30): the byte order the HOST uses for the container's integers. -/
inductive IntOrder where
  | LE
  | BE
deriving DecidableEq, Repr

/-- The parameters of one HCE (00_scope R6): arguments of the step relation, fixed for the machine. -/
structure Config where
  /-- IN_DEPTH: input FIFO depth in bytes, 1 to 65535. -/
  inDepth : Nat
  /-- OUT_DEPTH: output FIFO depth in bytes, 32 to 65535. -/
  outDepth : Nat
  /-- HCE_BASE: bus address of the register window, a multiple of 256. -/
  base : Nat
  /-- CONTAINER_INT_ORDER: never read by the HCE (20_memory R62). -/
  intOrder : IntOrder
deriving DecidableEq, Repr

/-- The values R6 takes: depths 16 and 64 are its defaults. DESIGN CHOICE (log 1): R6 leaves the base and the
container byte order OPEN without a default; base 0 and LE stand here for `State.reset` only. -/
def Config.default : Config :=
  { inDepth := 16, outDepth := 64, base := 0, intOrder := .LE }

end Sys2Proof
end

