-- ==== Sys2Proof/Syntax.lean ====
section
/-! DEFINITION. The commands of the HCE: one constructor per row of spec/opcode_table.json (30_encoding R95).
Operand types are the operand widths of 30_encoding R92, so an out-of-range operand cannot be written here;
the host's assembler, which meets such operands, is checked in WellFormed.lean. -/

namespace Sys2Proof

/-- A decoded command (30_encoding R95). ARG is no operand of the word: HWR reads the latched PEND_ARG (R92). -/
inductive Instr where
  /-- NOP, format N, OP 0x00 (R110). -/
  | nop
  /-- SRST, format N, OP 0x01 (R111). -/
  | srst
  /-- SCLR, format N, OP 0x02 (R112). -/
  | sclr
  /-- HCLR, format N, OP 0x08 (R120). -/
  | hclr
  /-- HWR, format S, OP 0x09 (R121). -/
  | hwr (sym : Byte)
  /-- HRD, format S, OP 0x0A (R122). -/
  | hrd (sym : Byte)
  /-- BUILD, format N, OP 0x10 (R136). -/
  | build
  /-- NRD, format NS, OP 0x11 (R137). -/
  | nrd (node : NodeIx) (sel : BitVec 2)
  /-- GENC, format N, OP 0x18 (R160). -/
  | genc
  /-- CLEN, format S, OP 0x19 (R164). -/
  | clen (sym : Byte)
  /-- CBITS, format SW, OP 0x1A (R165). -/
  | cbits (sym : Byte) (wrd : BitVec 5)
  /-- ENC, format S, OP 0x20 (R180). -/
  | enc (sym : Byte)
  /-- FLUSH, format N, OP 0x21 (R182). -/
  | flush
  /-- DEC, format N, OP 0x28 (R200). -/
  | dec
deriving DecidableEq, Repr

end Sys2Proof
end

