-- ==== Sys2Proof/WellFormed.lean ====
section
/-! DEFINITION. What is well formed: parameter sets (00_scope R6) and assembler operands (30_encoding R98).
An `Instr` is well formed by its types: SYM, WRD, NODE and SEL have exactly the ranges of 30_encoding R92. -/

namespace Sys2Proof

/-- The legal parameter values of 00_scope R6. -/
def Config.wf (c : Config) : Bool :=
  decide (1 ≤ c.inDepth) && decide (c.inDepth ≤ 65535) &&
  decide (32 ≤ c.outDepth) && decide (c.outDepth ≤ 65535) &&
  decide (c.base % 256 = 0)

/-- A command mnemonic with the operands a host writes (30_encoding R98), before any range check.
HWR's count goes to ARG, not into the command word (R99). -/
inductive AsmCmd where
  | nop | srst | sclr | hclr | build | genc | flush | dec
  | hwr (sym count : Nat)
  | hrd (sym : Nat)
  | clen (sym : Nat)
  | enc (sym : Nat)
  | cbits (sym wrd : Nat)
  | nrd (node sel : Nat)
deriving DecidableEq, Repr

/-- "Operand ranges are those of rule R92": SYM 0..255, WRD 0..31, NODE 0..511, SEL 0..3, and HWR's count a
32-bit value. "An assembler refuses an operand out of range instead of truncating it" (30_encoding R98). -/
def AsmCmd.wf : AsmCmd → Bool
  | .nop | .srst | .sclr | .hclr | .build | .genc | .flush | .dec => true
  | .hwr sym count => decide (sym ≤ 255) && decide (count < 2 ^ 32)
  | .hrd sym | .clen sym | .enc sym => decide (sym ≤ 255)
  | .cbits sym wrd => decide (sym ≤ 255) && decide (wrd ≤ 31)
  | .nrd node sel => decide (node ≤ 511) && decide (sel ≤ 3)

end Sys2Proof
end

