-- ==== Sys2Proof/Machine/Bus.lean ====
section
/-! DEFINITION. The host's bus accesses, the names and offsets of the registers (10_state R22), and the turns of
an interleaving (00_scope R7). -/

namespace Sys2Proof.Machine

/-- The width of a host access: 32 bits is the only admitted one (20_memory R63). -/
inductive AccessWidth where
  | w8
  | w16
  | w32
  | w64
deriving DecidableEq, Repr

/-- One host access at a bus address (20_memory R64, R65). A bus address is a Nat: the spec gives the bus no
width (DESIGN CHOICE, log 10). -/
inductive Access where
  | read (width : AccessWidth) (addr : Nat)
  | write (width : AccessWidth) (addr : Nat) (v : Word)
deriving DecidableEq, Repr

/-- Whose turn it is (00_scope R7: "The model may schedule either agent at any step"); a hardware reset is an
input of its own (70_reset R250). -/
inductive Turn where
  /-- The engine's turn. -/
  | engine
  /-- One host access. -/
  | host (a : Access)
  /-- A round of the host's loop WAITIDLE (30_encoding R99): one STATUS read, repeated while it finds BUSY = 1.
  `polls` more rounds may find BUSY = 1 before the engine has its turn (log 19). -/
  | waitIdle (polls : Nat)
  /-- The reset input. -/
  | hwReset
deriving DecidableEq, Repr

/-- `WAITIDLE` with the schedule that `polls` of its STATUS reads come before the engine's turn, if a command is
pending (30_encoding R99; log 19). -/
def waitTurns : Nat → List Turn
  | 0 => [.engine, .waitIdle 0]
  | polls + 1 => [.waitIdle polls]

/-- The register names of 10_state R22. -/
inductive Reg where
  | ID | PARAM | CTRL | STATUS | IRQ | ARG | CMD | RESULT
  | LEN_LO | LEN_HI | DCNT_LO | DCNT_HI | OTOT_LO | OTOT_HI
  | IN_DATA | OUT_DATA | FIFO_LVL | TREE_INFO | PACK_STATE | DEC_STATE | ERR_CMD
deriving DecidableEq, Repr

/-- The offset column of 10_state R22. -/
def Reg.off : Reg → Nat
  | .ID => 0x00
  | .PARAM => 0x04
  | .CTRL => 0x08
  | .STATUS => 0x0C
  | .IRQ => 0x10
  | .ARG => 0x14
  | .CMD => 0x18
  | .RESULT => 0x1C
  | .LEN_LO => 0x20
  | .LEN_HI => 0x24
  | .DCNT_LO => 0x28
  | .DCNT_HI => 0x2C
  | .OTOT_LO => 0x30
  | .OTOT_HI => 0x34
  | .IN_DATA => 0x38
  | .OUT_DATA => 0x3C
  | .FIFO_LVL => 0x40
  | .TREE_INFO => 0x44
  | .PACK_STATE => 0x48
  | .DEC_STATE => 0x4C
  | .ERR_CMD => 0x50

/-- The register at an offset of the window; none is a reserved offset, 0x54 to 0xFC (20_memory R68). -/
def Reg.ofOff : Nat → Option Reg
  | 0x00 => some .ID
  | 0x04 => some .PARAM
  | 0x08 => some .CTRL
  | 0x0C => some .STATUS
  | 0x10 => some .IRQ
  | 0x14 => some .ARG
  | 0x18 => some .CMD
  | 0x1C => some .RESULT
  | 0x20 => some .LEN_LO
  | 0x24 => some .LEN_HI
  | 0x28 => some .DCNT_LO
  | 0x2C => some .DCNT_HI
  | 0x30 => some .OTOT_LO
  | 0x34 => some .OTOT_HI
  | 0x38 => some .IN_DATA
  | 0x3C => some .OUT_DATA
  | 0x40 => some .FIFO_LVL
  | 0x44 => some .TREE_INFO
  | 0x48 => some .PACK_STATE
  | 0x4C => some .DEC_STATE
  | 0x50 => some .ERR_CMD
  | _ => none

end Sys2Proof.Machine
end

