-- ==== Sys2Proof/Machine/State.lean ====
section
/-! DEFINITION. The state of the HCE (10_state R20), the reasons a step can stop, and the state after reset. -/

namespace Sys2Proof.Machine

/-- One record of the node arena (10_state R32). -/
structure Node where
  /-- true: a leaf; false: an internal node. -/
  leaf : Bool
  /-- byte value of a leaf; 0 in an internal node. -/
  sym : Byte
  /-- a leaf's own count; an internal node's sum of its two children's. -/
  freq : BitVec 64
  /-- left child index of an internal node; 0 in a leaf. -/
  left : NodeIx
  /-- right child index of an internal node; 0 in a leaf. -/
  right : NodeIx
deriving DecidableEq, Repr

/-- The record an arena slot holds before anything is allocated in it. DESIGN CHOICE (log 6): 10_state R35 leaves
it unspecified and unobservable. -/
def Node.blank : Node :=
  { leaf := false, sym := 0, freq := 0, left := 0, right := 0 }

/-- The state tuple of 10_state R20, the parameters of 00_scope R6 beside it (`cfg`, log 1), and two fields of the
model's own (`agenda`, log 2, and `rdata`, log 5). -/
structure State where
  /-- The parameters (00_scope R6). No step changes them. -/
  cfg : Config
  /-- The turns still to come, oldest first (the model's own; log 2). -/
  agenda : List Turn
  /-- What the host's most recent read returned (the model's own; log 5). -/
  rdata : Option Word
  /-- CTRL: interrupt enables DONE_IE, OVR_IE, INOVF_IE (R24). -/
  ctrl : BitVec 3
  /-- IRQ: pending bits CMD_DONE, OVERRUN, IN_OVF (R26). -/
  irq : BitVec 3
  /-- ARG: the argument the next CMD write latches (R27). -/
  arg : Word
  /-- RESULT of the last completed command (R27). -/
  result : Word
  /-- ERR: error code of the last completed command (R25; 60_exceptions R220). -/
  err : BitVec 8
  /-- ERR_CMD: word of the last command that failed (R22). -/
  errCmd : Word
  /-- ORIG_LEN[31:0] (R27). -/
  lenLo : Word
  /-- ORIG_LEN[63:32] (R27). -/
  lenHi : Word
  /-- DCNT: decoded bytes (R27). -/
  dcnt : BitVec 64
  /-- OTOT: bytes pushed into OUTF (R27). -/
  otot : BitVec 64
  /-- BUSY: a command is pending (R25). -/
  busy : Bool
  /-- PEND_CMD: the latched command word (20_memory R66). -/
  pendCmd : Word
  /-- PEND_ARG: the latched argument (20_memory R66). -/
  pendArg : Word
  /-- HIST[0..255] (R31). -/
  hist : Vector Word 256
  /-- NODE[0..510], the node arena (R32). -/
  node : Vector Node 511
  /-- NODE_CNT, 0..511 (R33). -/
  nodeCnt : BitVec 10
  /-- ROOT (R33). -/
  root : NodeIx
  /-- ROOT_VALID (R33). -/
  rootValid : Bool
  /-- TREE_VALID (R38). -/
  treeValid : Bool
  /-- HEAP[0..255] (R36). -/
  heap : Vector NodeIx 256
  /-- HEAP_N, 0..256; 0 between commands (R36). -/
  heapN : BitVec 9
  /-- CODES_VALID (R39). -/
  codesValid : Bool
  /-- CODE_LEN[0..255] (R40). -/
  codeLen : Vector (BitVec 8) 256
  /-- CODE_BITS[0..255] (R40, R41). -/
  codeBits : Vector CodeString 256
  /-- ACC: the packer's partial byte (R42). -/
  acc : Byte
  /-- ACC_N: its filled bits, 0..7 (R42). -/
  accN : BitVec 3
  /-- IBUF: the unpacker's current byte (R43). -/
  ibuf : Byte
  /-- IBITS: its bits not yet consumed, 0..8 (R43). -/
  ibits : BitVec 4
  /-- DEC_NODE: the decode automaton's state (R44). -/
  decNode : NodeIx
  /-- NEED_IN: the last DEC stopped for lack of input (R44). -/
  needIn : Bool
  /-- INF: input FIFO, head first, capacity IN_DEPTH (R45). -/
  inf : List Byte
  /-- OUTF: output FIFO, head first, capacity OUT_DEPTH (R45). -/
  outf : List Byte
deriving DecidableEq, Repr

/-- The HCE has no trap and no fault: a command error is a completion (60_exceptions R224) and no address fault
exists (20_memory R78). So no step ends in a fault, and the type is empty. -/
inductive Fault where
deriving DecidableEq, Repr

/-- Why the model gives a step no meaning. -/
inductive Refusal where
  /-- An instruction that has no meaning yet. Raised by `exec`'s arm only; safe. No arm raises it now. -/
  | notModelled (mnemonic : String)
  /-- A host access outside HCE_BASE .. HCE_BASE + 0xFF: "this spec says nothing of them" (20_memory R69, I21).
  Raised by the host's turn; safe. -/
  | outsideWindow (addr : Nat)
  /-- A host access of 8, 16 or 64 bits: "refused: the model gives the host no step for it" (20_memory R63, I20).
  Raised by the host's turn; safe. -/
  | accessWidth (width : AccessWidth)
  /-- A host access at an address that is not a multiple of 4: refused as above (20_memory R63, I20).
  Raised by the host's turn; safe. -/
  | misaligned (addr : Nat)
deriving DecidableEq, Repr

/-- The outcome type of every step and meaning. -/
abbrev Out := Host.Outcome State Fault Refusal

/-- The state after a hardware reset (10_state R20, 70_reset R250, R251) of an HCE with parameters `c`: "No reset
value depends on a parameter" (R250). NODE, HEAP and CODE_BITS have no reset value in the spec and are 0 here
(DESIGN CHOICE, log 6). -/
def State.resetWith (c : Config) : State :=
  { cfg := c
    agenda := []
    rdata := none
    ctrl := 0
    irq := 0
    arg := 0
    result := 0
    err := 0
    errCmd := 0
    lenLo := 0
    lenHi := 0
    dcnt := 0
    otot := 0
    busy := false
    pendCmd := 0
    pendArg := 0
    hist := Vector.replicate 256 0
    node := Vector.replicate 511 Node.blank
    nodeCnt := 0
    root := 0
    rootValid := false
    treeValid := false
    heap := Vector.replicate 256 0
    heapN := 0
    codesValid := false
    codeLen := Vector.replicate 256 0
    codeBits := Vector.replicate 256 0
    acc := 0
    accN := 0
    ibuf := 0
    ibits := 0
    decNode := 0
    needIn := false
    inf := []
    outf := [] }

/-- The HCE right after a hardware reset, with the default parameters of 00_scope R6. -/
def State.reset : State := State.resetWith Config.default

end Sys2Proof.Machine
end

