-- ==== Sys2Proof/Machine/Ops.lean ====
section
/-! DEFINITION. The named operations the meanings share: completing a command (30_encoding R94), error codes
(60_exceptions R220), interrupt bits (10_state R26), FIFO pushes and pops (10_state R45), dropping the validity of
tree and codes (10_state R38, R39), and setting one bit of a vector. -/

namespace Sys2Proof.Machine

/-- `v[i] <- b` (00_scope R9). -/
def setBitTo {w : Nat} (v : BitVec w) (i : Nat) (b : Bool) : BitVec w :=
  if b then v ||| BitVec.twoPow w i else v &&& ~~~(BitVec.twoPow w i)

/-! ## Errors and completion -/

/-- The errors of 60_exceptions R220 (OK, code 0, is the absence of one). -/
inductive CmdError where
  | illegalCmd
  | noTree
  | noCodes
  | noSymbol
  | outFull
  | emptyTree
deriving DecidableEq, Repr

/-- The code column of 60_exceptions R220. -/
def CmdError.code : CmdError → BitVec 8
  | .illegalCmd => 0x01
  | .noTree => 0x02
  | .noCodes => 0x03
  | .noSymbol => 0x04
  | .outFull => 0x05
  | .emptyTree => 0x06

/-- What executing a command comes to (30_encoding R93: success with a result value, or one error code).
`finish r s` carries the state with the command's writes; `raise e` carries none, since they are undone
(00_scope R11). -/
inductive CmdOut where
  | finish (r : Word) (s : State)
  | raise (e : CmdError)

/-- IRQ bits (10_state R26). -/
def irqCmdDone : BitVec 3 := 0b001

/-- IRQ.OVERRUN (10_state R26). -/
def irqOverrun : BitVec 3 := 0b010

/-- IRQ.IN_OVF (10_state R26). -/
def irqInOvf : BitVec 3 := 0b100

/-- `IRQ[i] <- 1` for the bits of `m`: a pending bit is set whatever its enable (60_exceptions R226). -/
def State.setIrq (m : BitVec 3) (s : State) : State :=
  { s with irq := s.irq ||| m }

/-- Successful completion (30_encoding R94): every write kept, ERR <- 0, RESULT <- r, BUSY <- 0, CMD_DONE. -/
def State.succeed (r : Word) (s : State) : State :=
  { s with err := 0, result := r, busy := false, irq := s.irq ||| irqCmdDone }

/-- Completion with an error (30_encoding R94, 60_exceptions R220, R224): the HCE's only form of exception. Nothing
is saved but ERR_CMD, no mode changes and no vector exists. There is no return operation (R225). -/
def State.fail (e : CmdError) (s : State) : State :=
  { s with err := e.code, result := 0, errCmd := s.pendCmd, busy := false, irq := s.irq ||| irqCmdDone }

/-- `Complete(out)` (30_encoding R94) for a command executed in state `s`. -/
def complete (s : State) : CmdOut → State
  | .finish r s' => s'.succeed r
  | .raise e => s.fail e

/-! ## Queues -/

/-- `push(OUTF, b); OTOT <- OTOT + 1` (44_packer R180, R182; 45_unpacker R200). OTOT wraps (10_state R27). -/
def State.pushOut (b : Byte) (s : State) : State :=
  { s with outf := s.outf ++ [b], otot := s.otot + 1 }

/-- An OUT_DATA read (10_state R30): VALID and the popped byte, or 0 and no change. -/
def State.popOut (s : State) : Word × State :=
  match s.outf with
  | [] => (0, s)
  | b :: rest => (0x100#32 ||| b.setWidth 32, { s with outf := rest })

/-- An IN_DATA write (20_memory R67): the byte is pushed, or dropped with IN_OVF. -/
def State.pushIn (b : Byte) (s : State) : State :=
  if s.inf.length < s.cfg.inDepth then { s with inf := s.inf ++ [b] } else s.setIrq irqInOvf

/-! ## Validity -/

/-- `TREE_VALID <- 0; CODES_VALID <- 0` (10_state R38, R39). -/
def State.dropValid (s : State) : State :=
  { s with treeValid := false, codesValid := false }

/-! ## Resets -/

/-- A hardware reset (70_reset R250): every element of 10_state R20 takes its reset value; a pending command is
abandoned without CMD_DONE. The parameters are not state; the turns still to come and what the host has read belong
to the environment (log 8). -/
def State.hwReset (s : State) : State :=
  { State.resetWith s.cfg with agenda := s.agenda, rdata := s.rdata }

/-- The body of SRST (40_control R111): every element of 10_state R20 except CTRL and IRQ to its reset value. -/
def State.softReset (s : State) : State :=
  { s.hwReset with ctrl := s.ctrl, irq := s.irq }

end Sys2Proof.Machine
end

