-- ==== Sys2Proof/Machine/Operands.lean ====
section
/-! DEFINITION. The operand forms of commands: what SYM, NODE and SEL, WRD and the latched ARG select
(30_encoding R91, R92; 20_memory R60). SYM is 8 bits and every table it indexes has 256 entries, so a symbol operand
is always in range (20_memory R78). -/

namespace Sys2Proof.Machine

/-- `HIST[SYM]` (10_state R31). -/
def State.histAt (s : State) (sym : Byte) : Word := s.hist[sym.toNat]'sym.isLt

/-- `HIST[SYM] <- c`. -/
def State.setHist (sym : Byte) (c : Word) (s : State) : State :=
  { s with hist := s.hist.set sym.toNat c sym.isLt }

/-- `NODE[n]` of an arena. Index 511 names no slot; no rule reads it in a state a run can reach (20_memory R78), and
the model reads a blank record there (log 11). -/
def arenaAt (arena : Vector Node 511) (n : Nat) : Node := arena[n]?.getD Node.blank

/-- `NODE[n]` of an arena, by a 9-bit index. -/
def nodeAt (arena : Vector Node 511) (n : NodeIx) : Node := arenaAt arena n.toNat

/-- `NODE[n]` (10_state R32). -/
def State.nodeOf (s : State) (n : NodeIx) : Node := nodeAt s.node n

/-- The field SEL selects (42_tree_builder R137). -/
def Node.field (nd : Node) (sel : BitVec 2) : Word :=
  match sel with
  | 0 => 0x80000000#32 ||| ((BitVec.ofBool nd.leaf).setWidth 32 <<< 30) ||| nd.sym.setWidth 32
  | 1 => (nd.right.setWidth 32 <<< 16) ||| nd.left.setWidth 32
  | 2 => nd.freq.extractLsb' 0 32
  | 3 => nd.freq.extractLsb' 32 32

/-- `CODE_LEN[SYM]` (10_state R40). -/
def State.lenAt (s : State) (sym : Byte) : BitVec 8 := s.codeLen[sym.toNat]'sym.isLt

/-- `CODE_BITS[SYM]` (10_state R40). -/
def State.bitsAt (s : State) (sym : Byte) : CodeString := s.codeBits[sym.toNat]'sym.isLt

/-- The code of `sym`: bits `c[0..CODE_LEN-1]` of CODE_BITS, `c[0]` first (00_scope R10, 10_state R40). -/
def State.codeAt (s : State) (sym : Byte) : List Bool :=
  (List.range (s.lenAt sym).toNat).map (s.bitsAt sym).getLsbD

/-- The 32 code bits that WRD selects (43_code_table R165): bit `c[32*WRD + j]` lands in bit `31 - j`, and positions
at or beyond the code's length stay 0. -/
def codeWord (len : BitVec 8) (bits : CodeString) (wrd : BitVec 5) : Word :=
  (List.range 32).foldl (fun r j =>
    let p := 32 * wrd.toNat + j
    if p < len.toNat then setBitTo r (31 - j) (bits.getLsbD p) else r) 0#32

/-- The latched argument, which HWR alone reads (30_encoding R92; 20_memory R66). -/
def State.latchedArg (s : State) : Word := s.pendArg

/-- `ORIG_LEN = {LEN_HI, LEN_LO}` (00_scope R12). -/
def State.origLen (s : State) : BitVec 64 := s.lenHi ++ s.lenLo

end Sys2Proof.Machine
end

