-- ==== Sys2Proof/Machine/Flags.lean ====
section
/-! DEFINITION. The condition flags of the HCE, which are the STATUS bits (10_state R25, R47), the other registers
assembled from the state on a read (10_state R22 to R29), and the interrupt output (60_exceptions R226). -/

namespace Sys2Proof.Machine

/-- A Bool as bit `i` of a register. -/
def flag (b : Bool) (i : Nat) : Word := (BitVec.ofBool b).setWidth 32 <<< i

/-- STATUS.DEC_DONE: `DCNT >= ORIG_LEN`, 64-bit unsigned (10_state R25). -/
def State.decDone (s : State) : Bool := decide (s.origLen ≤ s.dcnt)

/-- STATUS.IN_FULL (10_state R25). -/
def State.inFull (s : State) : Bool := decide (s.inf.length = s.cfg.inDepth)

/-- STATUS.IN_EMPTY (10_state R25). -/
def State.inEmpty (s : State) : Bool := decide (s.inf.length = 0)

/-- STATUS.OUT_FULL (10_state R25). -/
def State.outFull (s : State) : Bool := decide (s.outf.length = s.cfg.outDepth)

/-- STATUS.OUT_EMPTY (10_state R25). -/
def State.outEmpty (s : State) : Bool := decide (s.outf.length = 0)

/-- STATUS, assembled at each read (10_state R25). -/
def State.status (s : State) : Word :=
  flag s.busy 0 ||| flag s.treeValid 1 ||| flag s.codesValid 2 ||| flag s.decDone 3 |||
  flag s.needIn 4 ||| flag s.inFull 5 ||| flag s.inEmpty 6 ||| flag s.outFull 7 |||
  flag s.outEmpty 8 ||| (s.err.setWidth 32 <<< 16)

/-- PARAM: `{OUT_DEPTH[15:0], IN_DEPTH[15:0]}` (10_state R22, R23). -/
def State.paramReg (s : State) : Word :=
  BitVec.ofNat 16 s.cfg.outDepth ++ BitVec.ofNat 16 s.cfg.inDepth

/-- FIFO_LVL: `{len(OUTF)[15:0], len(INF)[15:0]}` (10_state R22). -/
def State.fifoLvl (s : State) : Word :=
  BitVec.ofNat 16 s.outf.length ++ BitVec.ofNat 16 s.inf.length

/-- TREE_INFO (10_state R28). -/
def State.treeInfo (s : State) : Word :=
  s.nodeCnt.setWidth 32 ||| (s.root.setWidth 32 <<< 16) ||| flag s.rootValid 31

/-- PACK_STATE (10_state R29). -/
def State.packState (s : State) : Word :=
  s.acc.setWidth 32 ||| (s.accN.setWidth 32 <<< 8) ||| (s.ibuf.setWidth 32 <<< 16) |||
  (s.ibits.setWidth 32 <<< 24)

/-- DEC_STATE: `zext_32(DEC_NODE)` (10_state R22, R29). -/
def State.decState (s : State) : Word := s.decNode.setWidth 32

/-- `irq_out`, the level-sensitive interrupt output (60_exceptions R226). -/
def State.irqOut (s : State) : Bool :=
  (s.irq.getLsbD 0 && s.ctrl.getLsbD 0) || (s.irq.getLsbD 1 && s.ctrl.getLsbD 1) ||
  (s.irq.getLsbD 2 && s.ctrl.getLsbD 2)

end Sys2Proof.Machine
end

