-- ==== Sys2Proof/Machine/CodeTable.lean ====
section
/-! DEFINITION. GENC, CLEN and CBITS (43_code_table R160 to R165). -/

namespace Sys2Proof.Machine

/-- CODE_LEN and CODE_BITS, the code table (00_scope R13). -/
structure CodeTable where
  len : Vector (BitVec 8) 256
  bits : Vector CodeString 256
deriving DecidableEq, Repr

/-- `c[i..i+length(p)-1] <- p`. Positions beyond the path keep what they held: 10_state R41 leaves them
unspecified. -/
def putBits (c : CodeString) : Nat → List Bool → CodeString
  | _, [] => c
  | i, b :: p => putBits (setBitTo c i b) (i + 1) p

/-- `CODE_LEN[sym] <- length(p); CODE_BITS[sym].c[0..length(p)-1] <- p` (R161). -/
def CodeTable.record (t : CodeTable) (sym : Byte) (p : List Bool) : CodeTable :=
  { len := t.len.set sym.toNat (BitVec.ofNat 8 p.length) sym.isLt
    bits := t.bits.set sym.toNat (putBits (t.bits[sym.toNat]'sym.isLt) 0 p) sym.isLt }

/-- Walk(n, p) (R161): left first, depth first, at most `fuel` levels deep. A tree of BUILD has depth at most 255
(42_tree_builder R140), so `fuel = 256` never cuts it short (log 12). -/
def walkCodes (arena : Vector Node 511) : Nat → NodeIx → List Bool → CodeTable → CodeTable
  | 0, _, _, t => t
  | fuel + 1, n, p, t =>
    let nd := nodeAt arena n
    if nd.leaf then t.record nd.sym p
    else walkCodes arena fuel nd.right (p ++ [true]) (walkCodes arena fuel nd.left (p ++ [false]) t)

/-- The table GENC derives (R160): every length 0, then case 2 of R161 for a root that is a leaf and case 1 for
one that is not. -/
def State.genCodes (s : State) : CodeTable :=
  let t : CodeTable := { len := Vector.replicate 256 0, bits := s.codeBits }
  if s.rootValid then
    if (s.nodeOf s.root).leaf then t.record (s.nodeOf s.root).sym [false]
    else walkCodes s.node 256 s.root [] t
  else t

/-- `max over s of CODE_LEN[s]` (R160). -/
def maxLen (len : Vector (BitVec 8) 256) : Nat :=
  len.toList.foldl (fun m l => max m l.toNat) 0

/-- Execute of GENC (R160). -/
def gencOut (s : State) : CmdOut :=
  if s.treeValid = false then .raise .noTree
  else
    let t := s.genCodes
    .finish (BitVec.ofNat 32 (maxLen t.len)) { s with codeLen := t.len, codeBits := t.bits, codesValid := true }

/-- GENC (R160). -/
def execGenc (s : State) : Out := .next (complete s (gencOut s))

/-- CLEN (R164). -/
def execClen (sym : Byte) (s : State) : Out :=
  .next (complete s
    (if s.codesValid = false then .raise .noCodes else .finish ((s.lenAt sym).setWidth 32) s))

/-- CBITS (R165). -/
def execCbits (sym : Byte) (wrd : BitVec 5) (s : State) : Out :=
  .next (complete s
    (if s.codesValid = false then .raise .noCodes
     else .finish (codeWord (s.lenAt sym) (s.bitsAt sym) wrd) s))

end Sys2Proof.Machine
end

