-- ==== Sys2Proof/Machine/Control.lean ====
section
/-! DEFINITION. NOP, SRST and SCLR (40_control R110 to R112). -/

namespace Sys2Proof.Machine

/-- NOP (R110): `finish(0)`. -/
def execNop (s : State) : Out := .next (complete s (.finish 0 s))

/-- SRST (R111). The completion runs after the reset. -/
def execSrst (s : State) : Out := .next (complete s (.finish 0 s.softReset))

/-- The pseudocode of SCLR (R112). -/
def State.clearStream (s : State) : State :=
  { s with
    acc := 0
    accN := 0
    ibuf := 0
    ibits := 0
    inf := []
    outf := []
    dcnt := 0
    otot := 0
    needIn := false
    decNode := if s.rootValid then s.root else 0 }

/-- SCLR (R112). -/
def execSclr (s : State) : Out := .next (complete s (.finish 0 s.clearStream))

end Sys2Proof.Machine
end

