-- ==== Sys2Proof/Machine/Histogram.lean ====
section
/-! DEFINITION. HCLR, HWR and HRD (41_histogram R120 to R122). -/

namespace Sys2Proof.Machine

/-- HCLR (R120): every counter 0, tree and codes no longer valid; arena, NODE_CNT, ROOT, ROOT_VALID kept. -/
def execHclr (s : State) : Out :=
  .next (complete s (.finish 0 { s with hist := Vector.replicate 256 0 }.dropValid))

/-- HWR (R121): `HIST[SYM] <- PEND_ARG`. Writing the value held still drops both valid bits. -/
def execHwr (sym : Byte) (s : State) : Out :=
  .next (complete s (.finish 0 (s.setHist sym s.latchedArg).dropValid))

/-- HRD (R122): `finish(HIST[SYM])`. -/
def execHrd (sym : Byte) (s : State) : Out :=
  .next (complete s (.finish (s.histAt sym) s))

end Sys2Proof.Machine
end

