-- ==== Sys2Proof/Machine/Packer.lean ====
section
/-! DEFINITION. ENC and FLUSH (44_packer R180 to R182). -/

namespace Sys2Proof.Machine

/-- AppendBit(b) (R180): bit `7 - ACC_N` of ACC; the eighth bit pushes the byte and empties ACC. -/
def appendBit (s : State) (b : Bool) : State :=
  let acc := setBitTo s.acc (7 - s.accN.toNat) b
  if s.accN.toNat + 1 = 8 then { s with acc := 0, accN := 0 }.pushOut acc
  else { s with acc := acc, accN := s.accN + 1 }

/-- `for i in 0..L-1: AppendBit(c[i])` (R180). -/
def appendBits (s : State) (bits : List Bool) : State := bits.foldl appendBit s

/-- The bytes an ENC of `sym` completes, `floor((ACC_N + L) / 8)` (R180, R181). -/
def State.encBytes (s : State) (sym : Byte) : Nat := (s.accN.toNat + (s.lenAt sym).toNat) / 8

/-- Execute of ENC (R180), its errors tested in the order of 60_exceptions R222. -/
def encOut (sym : Byte) (s : State) : CmdOut :=
  if s.codesValid = false then .raise .noCodes
  else if s.lenAt sym = 0 then .raise .noSymbol
  else if s.cfg.outDepth < s.outf.length + s.encBytes sym then .raise .outFull
  else .finish (BitVec.ofNat 32 (s.encBytes sym)) (appendBits s (s.codeAt sym))

/-- ENC (R180). -/
def execEnc (sym : Byte) (s : State) : Out := .next (complete s (encOut sym s))

/-- Execute of FLUSH (R182): RESULT is the number of pad bits. -/
def flushOut (s : State) : CmdOut :=
  if s.accN = 0 then .finish 0 s
  else if s.outf.length = s.cfg.outDepth then .raise .outFull
  else .finish (BitVec.ofNat 32 (8 - s.accN.toNat)) { s.pushOut s.acc with acc := 0, accN := 0 }

/-- FLUSH (R182). -/
def execFlush (s : State) : Out := .next (complete s (flushOut s))

end Sys2Proof.Machine
end

