-- ==== Sys2Proof/Machine/Heap.lean ====
section
/-! DEFINITION. The min-heap primitives and the node allocator (42_tree_builder R130 to R133), over the part of the
state that BUILD works on. -/

namespace Sys2Proof.Machine

/-- What BUILD works on: the arena with NODE_CNT and the heap with HEAP_N (10_state R33, R36), the two counts as
naturals (R140 bounds them by 511 and 256). -/
structure Builder where
  node : Vector Node 511
  nodeCnt : Nat
  heap : Vector NodeIx 256
  heapN : Nat
deriving DecidableEq, Repr

/-- `f(n)`, the frequency of node `n` (00_scope R12). -/
def Builder.freq (b : Builder) (n : NodeIx) : BitVec 64 := (nodeAt b.node n).freq

/-- `HEAP[i]`. -/
def Builder.slot (b : Builder) (i : Nat) : NodeIx := b.heap[i]?.getD 0

/-- `HEAP[i] <- x`. -/
def Builder.setSlot (i : Nat) (x : NodeIx) (b : Builder) : Builder :=
  { b with heap := b.heap.setIfInBounds i x }

/-- `f(HEAP[i])`. -/
def Builder.freqAt (b : Builder) (i : Nat) : BitVec 64 := b.freq (b.slot i)

/-- `swap HEAP[i], HEAP[j]`. -/
def Builder.swap (i j : Nat) (b : Builder) : Builder :=
  (b.setSlot i (b.slot j)).setSlot j (b.slot i)

/-- The slot SiftDown moves to (R130): the smaller child if it is strictly less than slot `i`, the left one on a tie
between the children, else `i` itself. -/
def Builder.lesserChild (b : Builder) (i : Nat) : Nat :=
  let m := if 2 * i + 1 < b.heapN ∧ b.freqAt (2 * i + 1) < b.freqAt i then 2 * i + 1 else i
  if 2 * i + 2 < b.heapN ∧ b.freqAt (2 * i + 2) < b.freqAt m then 2 * i + 2 else m

/-- The loop of R130, at most `fuel` rounds. The slot rises in every round and stays below HEAP_N, so `fuel =
HEAP_N` never cuts it short (log 12). -/
def siftDownLoop : Nat → Nat → Builder → Builder
  | 0, _, b => b
  | fuel + 1, i, b =>
    let m := b.lesserChild i
    if m = i then b else siftDownLoop fuel m (b.swap i m)

/-- SiftDown(i) (R130). -/
def siftDown (i : Nat) (b : Builder) : Builder := siftDownLoop b.heapN i b

/-- The loop of R131 with its final write. `i` falls in every round, so `fuel = i` never cuts it short (log 12). -/
def siftUpLoop (x : NodeIx) : Nat → Nat → Builder → Builder
  | 0, i, b => b.setSlot i x
  | fuel + 1, i, b =>
    if 0 < i ∧ b.freq x < b.freqAt ((i - 1) / 2) then
      siftUpLoop x fuel ((i - 1) / 2) (b.setSlot i (b.slot ((i - 1) / 2)))
    else b.setSlot i x

/-- HeapInsert(x) (R131). -/
def heapInsert (x : NodeIx) (b : Builder) : Builder :=
  siftUpLoop x b.heapN b.heapN { b with heapN := b.heapN + 1 }

/-- ExtractMin() (R132): the entry returned and the heap left. -/
def extractMin (b : Builder) : NodeIx × Builder :=
  (b.slot 0, siftDown 0 { b.setSlot 0 (b.slot (b.heapN - 1)) with heapN := b.heapN - 1 })

/-- The write both allocators share (R133): slot NODE_CNT, which then rises. -/
def Builder.alloc (nd : Node) (b : Builder) : NodeIx × Builder :=
  (BitVec.ofNat 9 b.nodeCnt,
    { b with node := b.node.setIfInBounds b.nodeCnt nd, nodeCnt := b.nodeCnt + 1 })

/-- AllocLeaf(s, c) (R133). -/
def allocLeaf (sym : Byte) (c : Word) (b : Builder) : NodeIx × Builder :=
  b.alloc { leaf := true, sym := sym, freq := c.setWidth 64, left := 0, right := 0 }

/-- AllocInternal(a, b) (R133). -/
def allocInternal (x y : NodeIx) (b : Builder) : NodeIx × Builder :=
  b.alloc { leaf := false, sym := 0, freq := b.freq x + b.freq y, left := x, right := y }

end Sys2Proof.Machine
end

