-- ==== Sys2Proof/Machine/TreeBuilder.lean ====
section
/-! DEFINITION. BUILD and NRD (42_tree_builder R134 to R137). -/

namespace Sys2Proof.Machine

/-- Leaf collection (R134): the counters of symbols `sym`, `sym + 1`, … in increasing value, one leaf for each that
is not zero. -/
def collectLeaves : List Word → Nat → Builder → Builder
  | [], _, b => b
  | c :: cs, sym, b =>
    collectLeaves cs (sym + 1) (if c = 0 then b else (allocLeaf (BitVec.ofNat 8 sym) c b).2)

/-- `for i in 0..k-1: HEAP[i] <- i` (R135). -/
def fillHeap (k : Nat) (b : Builder) : Builder :=
  (List.range k).foldl (fun b i => b.setSlot i (BitVec.ofNat 9 i)) b

/-- `for i from j - 1 down to 0: SiftDown(i)` (R135). -/
def siftAll : Nat → Builder → Builder
  | 0, b => b
  | j + 1, b => siftAll j (siftDown j b)

/-- Heapify (R135). -/
def heapify (k : Nat) (b : Builder) : Builder :=
  siftAll (k / 2) { fillHeap k b with heapN := k }

/-- One round of the reduction loop (R136): the two least entries become left and right child of a new node. -/
def mergeTwo (b : Builder) : Builder :=
  let (l, b) := extractMin b
  let (r, b) := extractMin b
  let (m, b) := allocInternal l r b
  heapInsert m b

/-- `while HEAP_N > 1` (R136), at most `fuel` rounds. HEAP_N falls by one a round, so `fuel = HEAP_N` never cuts it
short (log 12). -/
def reduceLoop : Nat → Builder → Builder
  | 0, b => b
  | fuel + 1, b => if 1 < b.heapN then reduceLoop fuel (mergeTwo b) else b

/-- What BUILD leaves in the tree builder. -/
structure BuiltTree where
  /-- `k`, the number of distinct symbols (00_scope R12). -/
  k : Nat
  b : Builder
  root : NodeIx
  rootValid : Bool

/-- The reduction of R136 over the counters `hist`, in the builder `b`. -/
def buildTree (hist : List Word) (b : Builder) : BuiltTree :=
  let b := collectLeaves hist 0 { b with nodeCnt := 0 }
  let k := b.nodeCnt
  let b := heapify k b
  if k = 0 then { k := k, b := b, root := 0, rootValid := false }
  else
    let (root, b) := extractMin (reduceLoop b.heapN b)
    { k := k, b := b, root := root, rootValid := true }

/-- The tree builder's part of a state. -/
def State.builder (s : State) : Builder :=
  { node := s.node, nodeCnt := s.nodeCnt.toNat, heap := s.heap, heapN := s.heapN.toNat }

/-- The writes of BUILD (R136). -/
def State.withTree (t : BuiltTree) (s : State) : State :=
  { s with
    node := t.b.node
    nodeCnt := BitVec.ofNat 10 t.b.nodeCnt
    heap := t.b.heap
    heapN := BitVec.ofNat 9 t.b.heapN
    root := t.root
    rootValid := t.rootValid
    treeValid := true
    codesValid := false
    decNode := t.root }

/-- BUILD (R136): RESULT is `k`. -/
def execBuild (s : State) : Out :=
  let t := buildTree s.hist.toList s.builder
  .next (complete s (.finish (BitVec.ofNat 32 t.k) (s.withTree t)))

/-- The value NRD returns (R137): 0 for an index that is not allocated. -/
def State.nodeRead (s : State) (n : NodeIx) (sel : BitVec 2) : Word :=
  if s.nodeCnt.toNat ≤ n.toNat then 0 else (s.nodeOf n).field sel

/-- NRD (R137). It does not need TREE_VALID. -/
def execNrd (n : NodeIx) (sel : BitVec 2) (s : State) : Out :=
  .next (complete s (.finish (s.nodeRead n sel) s))

end Sys2Proof.Machine
end

