-- ==== Sys2Proof/Machine/Unpacker.lean ====
section
/-! DEFINITION. DEC, the decode automaton (45_unpacker R200 to R203). -/

namespace Sys2Proof.Machine

/-- Where the loop of R200 stops: the symbol reached (none: the input ran out), DEC_NODE, and what is left of the
input. -/
structure WalkEnd where
  sym : Option Byte
  node : NodeIx
  ibuf : Byte
  ibits : Nat
  inf : List Byte
deriving DecidableEq, Repr

/-- The child a bit moves to: right for 1, left for 0 (R200, R201). -/
def childOf (nd : Node) (b : Bool) : NodeIx := if b then nd.right else nd.left

/-- The loop of R200 over the `IBITS` bits left in IBUF, `IBUF[IBITS-1]` first: the symbol if a leaf is reached,
DEC_NODE, and the bits left. A leaf is met BEFORE a move only when the root is a leaf (R202): one bit is consumed,
whatever its value. -/
def walkByte (arena : Vector Node 511) (ibuf : Byte) : Nat → NodeIx → Option Byte × NodeIx × Nat
  | 0, n => (none, n, 0)
  | ibits + 1, n =>
    if (nodeAt arena n).leaf then (some (nodeAt arena n).sym, n, ibits)
    else
      let n' := childOf (nodeAt arena n) (ibuf.getLsbD ibits)
      if (nodeAt arena n').leaf then (some (nodeAt arena n').sym, n', ibits)
      else walkByte arena ibuf ibits n'

/-- The loop of R200: when IBUF is used up the next INF byte is popped, and when INF is empty too it stops. -/
def walkInput (arena : Vector Node 511) : List Byte → Byte → Nat → NodeIx → WalkEnd
  | [], ibuf, ibits, n =>
    match walkByte arena ibuf ibits n with
    | (sym, n', left) => { sym := sym, node := n', ibuf := ibuf, ibits := left, inf := [] }
  | b :: rest, ibuf, ibits, n =>
    match walkByte arena ibuf ibits n with
    | (some sym, n', left) => { sym := some sym, node := n', ibuf := ibuf, ibits := left, inf := b :: rest }
    | (none, n', _) => walkInput arena rest b 8 n'

/-- The input consumed and DEC_NODE moved. -/
def State.withWalk (w : WalkEnd) (s : State) : State :=
  { s with decNode := w.node, ibuf := w.ibuf, ibits := BitVec.ofNat 4 w.ibits, inf := w.inf }

/-- A symbol emitted (R200): to OUTF, counted in OTOT and DCNT, DEC_NODE back at ROOT. -/
def State.emit (sym : Byte) (s : State) : State :=
  { s.pushOut sym with dcnt := s.dcnt + 1, decNode := s.root }

/-- RESULT of a DEC that emitted `sym` in the state `s` it leaves (R200): SYM_VALID, the symbol, DONE. -/
def State.decResult (sym : Byte) (s : State) : Word :=
  0x100#32 ||| sym.setWidth 32 ||| (if s.decDone then 0x400#32 else 0#32)

/-- Execute of DEC (R200), its tests in the order of 60_exceptions R222. -/
def decOut (s : State) : CmdOut :=
  if s.treeValid = false then .raise .noTree
  else
    let s := { s with needIn := false }
    if s.decDone then .finish 0x400 s
    else if s.rootValid = false then .raise .emptyTree
    else if s.outf.length = s.cfg.outDepth then .raise .outFull
    else
      let w := walkInput s.node s.inf s.ibuf s.ibits.toNat s.decNode
      match w.sym with
      | none => .finish 0x200 { s.withWalk w with needIn := true }
      | some sym =>
        let s := (s.withWalk w).emit sym
        .finish (s.decResult sym) s

/-- DEC (R200). -/
def execDec (s : State) : Out := .next (complete s (decOut s))

end Sys2Proof.Machine
end

