-- ==== Sys2Proof/Machine/Dispatch.lean ====
section
/-! DEFINITION. `exec`: the meaning of each command (30_encoding R95), its completion (R94) included. -/

namespace Sys2Proof.Machine

def exec (i : Instr) (s : State) : Host.Outcome State Fault Refusal :=
  match i with
  | .nop => Sys2Proof.Machine.execNop s
  | .srst => Sys2Proof.Machine.execSrst s
  | .sclr => Sys2Proof.Machine.execSclr s
  | .hclr => Sys2Proof.Machine.execHclr s
  | .hwr sym => Sys2Proof.Machine.execHwr sym s
  | .hrd sym => Sys2Proof.Machine.execHrd sym s
  | .build => Sys2Proof.Machine.execBuild s
  | .nrd node sel => Sys2Proof.Machine.execNrd node sel s
  | .genc => Sys2Proof.Machine.execGenc s
  | .clen sym => Sys2Proof.Machine.execClen sym s
  | .cbits sym wrd => Sys2Proof.Machine.execCbits sym wrd s
  | .enc sym => Sys2Proof.Machine.execEnc sym s
  | .flush => Sys2Proof.Machine.execFlush s
  | .dec => Sys2Proof.Machine.execDec s

end Sys2Proof.Machine
end

