-- ==== Sys2Proof/Decode.lean ====
section
/-! DEFINITION. Decoding and encoding of command words (30_encoding R90 to R97). -/

namespace Sys2Proof

/-! ## Field extraction (30_encoding R90 to R92). No operand is signed, scaled or shifted. -/

/-- `OP = word[31:24]` (R90). -/
def opField (w : Word) : BitVec 8 := w.extractLsb' 24 8

/-- `SYM = word[7:0]` (R92). -/
def symField (w : Word) : Byte := w.extractLsb' 0 8

/-- `WRD = word[12:8]` (R92). -/
def wrdField (w : Word) : BitVec 5 := w.extractLsb' 8 5

/-- `NODE = word[8:0]` (R92). -/
def nodeField (w : Word) : NodeIx := w.extractLsb' 0 9

/-- `SEL = word[13:12]` (R92). -/
def selField (w : Word) : BitVec 2 := w.extractLsb' 12 2

/-! ## Decoding -/

/-- Why a word is no command: its opcode is one of the 242 that R95 does not list (R96). -/
inductive DecodeReject where
  | illegalCmd (op : BitVec 8)
deriving DecidableEq, Repr

/-- The opcode map (R95). The row is selected by `word[31:24]` alone, and bits that the row's format does not
name are ignored (R91). Total: every other word is rejected as ILLEGAL_CMD (R96, R97). -/
def decode (w : Word) : Except DecodeReject Instr :=
  match opField w with
  | 0x00#8 => .ok .nop
  | 0x01#8 => .ok .srst
  | 0x02#8 => .ok .sclr
  | 0x08#8 => .ok .hclr
  | 0x09#8 => .ok (.hwr (symField w))
  | 0x0A#8 => .ok (.hrd (symField w))
  | 0x10#8 => .ok .build
  | 0x11#8 => .ok (.nrd (nodeField w) (selField w))
  | 0x18#8 => .ok .genc
  | 0x19#8 => .ok (.clen (symField w))
  | 0x1A#8 => .ok (.cbits (symField w) (wrdField w))
  | 0x20#8 => .ok (.enc (symField w))
  | 0x21#8 => .ok .flush
  | 0x28#8 => .ok .dec
  | op => .error (.illegalCmd op)

/-- The command word that `nbits` bits of value `w` stand for, in the numbering of spec/opcode_table.json: a
command is one 32-bit word, bit 0 its least significant bit, and bits above `nbits` are 0. -/
def tableWord (nbits w : Nat) : Word := BitVec.ofNat 32 (w % 2 ^ nbits)

/-- What the decoder reads from a word of spec/opcode_table.json. -/
def decodeTableWord (nbits w : Nat) : Option Instr :=
  match decode (tableWord nbits w) with
  | .ok i => some i
  | .error _ => none

/-! ## Encoding -/

/-- The OP column of R95. -/
def Instr.opcode : Instr → BitVec 8
  | .nop => 0x00#8
  | .srst => 0x01#8
  | .sclr => 0x02#8
  | .hclr => 0x08#8
  | .hwr _ => 0x09#8
  | .hrd _ => 0x0A#8
  | .build => 0x10#8
  | .nrd _ _ => 0x11#8
  | .genc => 0x18#8
  | .clen _ => 0x19#8
  | .cbits _ _ => 0x1A#8
  | .enc _ => 0x20#8
  | .flush => 0x21#8
  | .dec => 0x28#8

/-- The operand area `word[23:0]` of formats N, S, SW and NS (R91), every ignored bit 0 (R99). -/
def Instr.operandArea : Instr → BitVec 24
  | .nop | .srst | .sclr | .hclr | .build | .genc | .flush | .dec => 0#24
  | .hwr sym | .hrd sym | .clen sym | .enc sym => 0#16 ++ sym
  | .cbits sym wrd => 0#11 ++ wrd ++ sym
  | .nrd node sel => 0#10 ++ sel ++ 0#3 ++ node

/-- `enc(MNEM, ops)` of 30_encoding R99: `(OP << 24) | fields`, every ignored bit 0. -/
def encode (i : Instr) : Word := i.opcode ++ i.operandArea

end Sys2Proof
end

