-- ==== Sys2Proof/Machine/HostPort.lean ====
section
/-! DEFINITION. The host's register accesses (20_memory R63 to R70). -/

namespace Sys2Proof.Machine

/-- The value a read of `r` returns (10_state R22, 20_memory R64). OUT_DATA has its side effect in `readReg`. -/
def State.regValue (s : State) : Reg → Word
  | .ID => 0x48554631
  | .PARAM => s.paramReg
  | .CTRL => s.ctrl.setWidth 32
  | .STATUS => s.status
  | .IRQ => s.irq.setWidth 32
  | .ARG => s.arg
  | .CMD => 0
  | .RESULT => s.result
  | .LEN_LO => s.lenLo
  | .LEN_HI => s.lenHi
  | .DCNT_LO => s.dcnt.extractLsb' 0 32
  | .DCNT_HI => s.dcnt.extractLsb' 32 32
  | .OTOT_LO => s.otot.extractLsb' 0 32
  | .OTOT_HI => s.otot.extractLsb' 32 32
  | .IN_DATA => 0
  | .OUT_DATA => s.popOut.1
  | .FIFO_LVL => s.fifoLvl
  | .TREE_INFO => s.treeInfo
  | .PACK_STATE => s.packState
  | .DEC_STATE => s.decState
  | .ERR_CMD => s.errCmd

/-- A read at offset `off` (20_memory R64): its value and the state after it. Only OUT_DATA has a side effect;
reserved offsets read 0 (R68). -/
def readOff (off : Nat) (s : State) : Word × State :=
  match Reg.ofOff off with
  | none => (0, s)
  | some .OUT_DATA => s.popOut
  | some r => (s.regValue r, s)

/-- A write of `v` to CMD (20_memory R66): issue the command, or drop it and set OVERRUN. -/
def State.issue (v : Word) (s : State) : State :=
  if s.busy then s.setIrq irqOverrun
  else { s with pendCmd := v, pendArg := s.arg, busy := true }

/-- A write at offset `off` (20_memory R65, R68): registers that are not writable ignore it. -/
def writeOff (off : Nat) (v : Word) (s : State) : State :=
  match Reg.ofOff off with
  | some .CTRL => { s with ctrl := v.extractLsb' 0 3 }
  | some .IRQ => { s with irq := s.irq &&& ~~~(v.extractLsb' 0 3) }
  | some .ARG => { s with arg := v }
  | some .CMD => s.issue v
  | some .LEN_LO => { s with lenLo := v }
  | some .LEN_HI => { s with lenHi := v }
  | some .IN_DATA => s.pushIn (v.extractLsb' 0 8)
  | _ => s

/-- The offset of an admitted access, or why it is refused (20_memory R63, R69). An access that is inadmissible in
several ways is refused all the same; the order of the tests picks the name only (log 7). -/
def accessOffset (c : Config) (width : AccessWidth) (addr : Nat) : Except Refusal Nat :=
  if addr < c.base ∨ c.base + 0xFF < addr then .error (.outsideWindow addr)
  else if width ≠ .w32 then .error (.accessWidth width)
  else if (addr - c.base) % 4 ≠ 0 then .error (.misaligned addr)
  else .ok (addr - c.base)

/-- One host access (20_memory R64, R65). -/
def hostAccess (a : Access) (s : State) : Out :=
  match a with
  | .read width addr =>
    match accessOffset s.cfg width addr with
    | .error r => .refused r
    | .ok off => .next { (readOff off s).2 with rdata := some (readOff off s).1 }
  | .write width addr v =>
    match accessOffset s.cfg width addr with
    | .error r => .refused r
    | .ok off => .next (writeOff off v s)

/-- A round of `loop: R STATUS; repeat while bit 0 (BUSY) is 1` (30_encoding R99): the read, and if bit 0 of the value
read is 1 the loop goes on. -/
def waitIdleRound (polls : Nat) (s : State) : Out :=
  match hostAccess (.read .w32 (s.cfg.base + Reg.STATUS.off)) s with
  | .next t =>
    .next (if (t.rdata.getD 0).getLsbD 0 then { t with agenda := waitTurns polls ++ t.agenda } else t)
  | .fault r => .fault r
  | .refused r => .refused r

end Sys2Proof.Machine
end

