-- ==== Sys2Proof/Machine/Engine.lean ====
section
/-! DEFINITION. The engine's step (30_encoding R93) and the kinds of turn (00_scope R7, 70_reset R250). -/

namespace Sys2Proof.Machine

/-- The engine step of a pending command (30_encoding R93): the rule of its opcode, ILLEGAL_CMD if none (R96). -/
def engineStep (s : State) : Out :=
  match decode s.pendCmd with
  | .ok i => exec i s
  | .error _ => .next (complete s (.raise .illegalCmd))

/-- A turn of the engine: "The engine has a step exactly when BUSY = 1" (30_encoding R93); with BUSY = 0 the turn
passes and nothing changes (log 3). -/
def engineTurn (s : State) : Out :=
  if s.busy then engineStep s else .next s

/-- One turn. -/
def takeTurn (t : Turn) (s : State) : Out :=
  match t with
  | .engine => engineTurn s
  | .host a => hostAccess a s
  | .waitIdle polls => waitIdleRound polls s
  | .hwReset => .next s.hwReset

end Sys2Proof.Machine
end

