-- ==== Sys2Proof/Machine/Step.lean ====
section
/-! DEFINITION. One step: the turn at the head of the agenda (00_scope R7). -/

namespace Sys2Proof.Machine

/-- One step. The head of the agenda says who moves (log 2). With no turn named the engine moves if a command is
pending, which is the weak fairness of 70_reset R262, and otherwise the HCE is idle (60_exceptions R234; log 3). -/
def step (s : State) : Host.Outcome State Fault Refusal :=
  match s.agenda with
  | [] => engineTurn s
  | t :: rest => takeTurn t { s with agenda := rest }

/-- `s` with the command word of `nbits` bits and value `w` issued and the engine's turn next: what a host's CMD
write to an idle HCE leaves (20_memory R66), the argument latched from ARG (log 9). -/
def State.withFetchWord (s : State) (nbits w : Nat) : State :=
  { s with busy := true, pendCmd := tableWord nbits w, pendArg := s.arg, agenda := .engine :: s.agenda }

end Sys2Proof.Machine
end

