-- ==== Sys2Proof/Machine/HostSyntax.lean ====
section
/-! DEFINITION. The host's assembler syntax and pseudo-instructions (30_encoding R98, R99). They are host software:
the HCE sees only the bus accesses they expand to, so here they expand to turns of an agenda. -/

namespace Sys2Proof.Machine

/-- The command a mnemonic with operands stands for; none where the assembler refuses (30_encoding R98). -/
def assemble (c : AsmCmd) : Option Instr :=
  if c.wf then
    some (match c with
      | .nop => .nop
      | .srst => .srst
      | .sclr => .sclr
      | .hclr => .hclr
      | .build => .build
      | .genc => .genc
      | .flush => .flush
      | .dec => .dec
      | .hwr sym _ => .hwr (BitVec.ofNat 8 sym)
      | .hrd sym => .hrd (BitVec.ofNat 8 sym)
      | .clen sym => .clen (BitVec.ofNat 8 sym)
      | .enc sym => .enc (BitVec.ofNat 8 sym)
      | .cbits sym wrd => .cbits (BitVec.ofNat 8 sym) (BitVec.ofNat 5 wrd)
      | .nrd node sel => .nrd (BitVec.ofNat 9 node) (BitVec.ofNat 2 sel))
  else none

/-- One line of a host program (30_encoding R98, R99). A line that waits carries the number of STATUS reads that
find BUSY = 1 before the engine's step, if a command is pending (log 19). A comment is no line. -/
inductive HostLine where
  /-- `W REG, v` -/
  | wr (r : Reg) (v : Word)
  /-- `R REG` -/
  | rd (r : Reg)
  /-- `.cmd w` -/
  | cmd (w : Word)
  /-- `WAITIDLE` -/
  | waitIdle (polls : Nat)
  /-- `<MNEM> ops` -/
  | mnem (c : AsmCmd) (polls : Nat)
  /-- `SETLEN n` -/
  | setLen (n : BitVec 64)
  /-- `PUSH b` -/
  | push (b : Byte)
  /-- `POP` -/
  | pop
  /-- `CHECK` -/
  | check
deriving DecidableEq, Repr

/-- `MemRead(HCE_BASE + off(REG), 4)` as a turn (30_encoding R98). -/
def readTurn (base : Nat) (r : Reg) : Turn := .host (.read .w32 (base + r.off))

/-- `MemWrite(HCE_BASE + off(REG), 4, v)` as a turn (30_encoding R98). -/
def writeTurn (base : Nat) (r : Reg) (v : Word) : Turn := .host (.write .w32 (base + r.off) v)

/-- The writes that issue a mnemonic: HWR's count goes to ARG first (30_encoding R99). -/
def issueTurns (base : Nat) (c : AsmCmd) (i : Instr) : List Turn :=
  match c with
  | .hwr _ count => [writeTurn base .ARG (BitVec.ofNat 32 count), writeTurn base .CMD (encode i)]
  | _ => [writeTurn base .CMD (encode i)]

/-- The expansion of a line (30_encoding R98, R99); none where the assembler refuses an operand. -/
def HostLine.turns (base : Nat) : HostLine → Option (List Turn)
  | .wr r v => some [writeTurn base r v]
  | .rd r => some [readTurn base r]
  | .cmd w => some [writeTurn base .CMD w]
  | .waitIdle polls => some (waitTurns polls)
  | .mnem c polls => (assemble c).map fun i => issueTurns base c i ++ waitTurns polls
  | .setLen n =>
    some [writeTurn base .LEN_LO (n.extractLsb' 0 32), writeTurn base .LEN_HI (n.extractLsb' 32 32)]
  | .push b => some [writeTurn base .IN_DATA (b.setWidth 32)]
  | .pop => some [readTurn base .OUT_DATA]
  | .check => some [readTurn base .STATUS]

/-- What CHECK tests in the STATUS value it read: "bits [23:16] (ERR) not equal to 0" (30_encoding R99). -/
def checkFails (status : Word) : Bool := decide (status.extractLsb' 16 8 ≠ 0)

/-- The turns of a program, line after line; none where the assembler refuses one of its lines. -/
def programTurns (base : Nat) : List HostLine → Option (List Turn)
  | [] => some []
  | l :: ls =>
    match l.turns base, programTurns base ls with
    | some t, some ts => some (t ++ ts)
    | _, _ => none

end Sys2Proof.Machine
end

