-- ==== Sys2Proof/Safety.lean ====
section
/-! DEFINITION. The terms claims are stated in: bit streams, paths in the tree, the shape of a tree, and the
invariant of the states a run can reach. -/

namespace Sys2Proof.Machine

/-! ## Bit streams (20_memory R61: bit 7 of a byte is first) -/

/-- The bits of a payload byte in stream order. -/
def byteBits (b : Byte) : List Bool := (List.range 8).map fun i => b.getLsbD (7 - i)

/-- The filled bits of ACC, `ACC[7]` first (10_state R42). -/
def State.accBits (s : State) : List Bool := (List.range s.accN.toNat).map fun i => s.acc.getLsbD (7 - i)

/-- The bits the unpacker has not consumed: those left in IBUF, then those of INF (10_state R43, R45). -/
def State.inBits (s : State) : List Bool :=
  ((List.range s.ibits.toNat).map fun i => s.ibuf.getLsbD (s.ibits.toNat - 1 - i)) ++ s.inf.flatMap byteBits

/-! ## Paths -/

/-- The bits `p` lead from node `n` to node `m`, every node left on the way being internal: right for 1, left for 0
(43_code_table R161, 45_unpacker R201). -/
def leads (arena : Vector Node 511) : NodeIx → List Bool → NodeIx → Prop
  | n, [], m => n = m
  | n, b :: p, m => (nodeAt arena n).leaf = false ∧ leads arena (childOf (nodeAt arena n) b) p m

/-- The bits `p` lead from node `n` to a leaf of `sym`. -/
def reaches (arena : Vector Node 511) (n : NodeIx) (p : List Bool) (sym : Byte) : Prop :=
  ∃ m, leads arena n p m ∧ (nodeAt arena m).leaf = true ∧ (nodeAt arena m).sym = sym

/-- The code the tree gives `sym` (43_code_table R161): the path to its leaf, or the one bit 0 if the root is the
only leaf (case 2). -/
def State.treeCode (s : State) (sym : Byte) (p : List Bool) : Prop :=
  if (s.nodeOf s.root).leaf then p = [false] ∧ (s.nodeOf s.root).sym = sym
  else reaches s.node s.root p sym

/-! ## The tree -/

/-- The present symbols in increasing value with their counts (42_tree_builder R134). -/
def presentLeaves (hist : Vector Word 256) : List (Byte × BitVec 64) :=
  (hist.toList.zipIdx.filter fun c => decide (c.1 ≠ 0)).map fun c => (BitVec.ofNat 8 c.2, c.1.setWidth 64)

/-- The children of the internal nodes `k, …, cnt - 1`, as naturals. -/
def childList (arena : Vector Node 511) (k cnt : Nat) : List Nat :=
  (List.range' k (cnt - k)).flatMap fun n => [(arenaAt arena n).left.toNat, (arenaAt arena n).right.toNat]

/-- The first `cnt` slots of an arena hold one full binary tree of `k` leaves whose root is the last of them
(10_state R32, R33; 42_tree_builder R133, R139, R140). -/
structure TreeShape (arena : Vector Node 511) (cnt k : Nat) : Prop where
  /-- `NODE_CNT = 2k - 1`, and 0 for no symbol. -/
  count : cnt = 2 * k - 1
  small : k ≤ 256
  /-- The leaves are 0..k-1 and use neither child field. -/
  leaves : ∀ n, n < k → (arenaAt arena n).leaf = true ∧ (arenaAt arena n).left = 0 ∧ (arenaAt arena n).right = 0
  /-- The internal nodes are k..2k-2, carry no symbol, and their children have smaller indices. -/
  internals : ∀ n, k ≤ n → n < cnt →
    (arenaAt arena n).leaf = false ∧ (arenaAt arena n).sym = 0 ∧
    (arenaAt arena n).left.toNat < n ∧ (arenaAt arena n).right.toNat < n
  /-- An internal node's frequency is the sum of its children's. -/
  freqs : ∀ n, k ≤ n → n < cnt →
    (arenaAt arena n).freq =
      (nodeAt arena (arenaAt arena n).left).freq + (nodeAt arena (arenaAt arena n).right).freq
  /-- Every node but the root is the child of exactly one internal node. -/
  parents : (childList arena k cnt).Perm (List.range (cnt - 1))
  /-- Leaves stand in increasing symbol order. -/
  order : ∀ m n, m < n → n < k → (arenaAt arena m).sym < (arenaAt arena n).sym

/-! ## The invariant -/

/-- Streams and FIFOs: legal parameters (00_scope R6), FIFOs within their capacities (10_state R45), IBITS at most 8
(R43), the unfilled bits of ACC 0 (R42). -/
structure StreamInv (s : State) : Prop where
  cfgLegal : s.cfg.wf = true
  inFits : s.inf.length ≤ s.cfg.inDepth
  outFits : s.outf.length ≤ s.cfg.outDepth
  ibitsLe : s.ibits.toNat ≤ 8
  accLow : ∀ i, i < 8 - s.accN.toNat → s.acc.getLsbD i = false

/-- Status: `CODES_VALID = 1` implies `TREE_VALID = 1` (10_state R39), ERR holds a code of 60_exceptions R220, RESULT
is 0 after an error (10_state R27), and a DEC that stopped for lack of input left no bit (45_unpacker R201). -/
structure StatusInv (s : State) : Prop where
  codesNeedTree : s.codesValid = true → s.treeValid = true
  errLegal : s.err.toNat ≤ 6
  errResult : s.err ≠ 0 → s.result = 0
  needInDry : s.needIn = true → s.ibits = 0

/-- The arena holds a tree (10_state R33), the heap is empty between commands (R36), a valid tree has the present
symbols as its leaves (R38), and DEC_NODE is ROOT or an internal node of the tree (R44). -/
structure TreeInv (s : State) : Prop where
  heapEmpty : s.heapN = 0
  tree : ∃ k, TreeShape s.node s.nodeCnt.toNat k ∧ s.rootValid = decide (0 < k) ∧
    s.root.toNat = s.nodeCnt.toNat - 1 ∧
    (s.treeValid = true →
      (List.range k).map (fun n => ((arenaAt s.node n).sym, (arenaAt s.node n).freq)) = presentLeaves s.hist)
  decNode : s.decNode = s.root ∨
    (s.decNode.toNat < s.nodeCnt.toNat ∧ (s.nodeOf s.decNode).leaf = false)

/-- `s` holds the tree BUILD derives from the counters `hist` (10_state R38), whatever its builder held before. -/
def State.builtFrom (s : State) (hist : List Word) : Prop :=
  ∃ b0 : Builder,
    s.node = (buildTree hist b0).b.node ∧ s.nodeCnt = BitVec.ofNat 10 (buildTree hist b0).b.nodeCnt ∧
    s.root = (buildTree hist b0).root ∧ s.rootValid = (buildTree hist b0).rootValid

/-- No stale table is ever valid: TREE_VALID means that the arena holds the tree BUILD derived from the current HIST
(10_state R38), CODES_VALID that the code table is the one GENC derived from the current tree (R39). -/
structure FreshInv (s : State) : Prop where
  tree : s.treeValid = true → s.builtFrom s.hist.toList
  codes : s.codesValid = true → s.treeValid = true ∧
    ∃ bits0, { s with codeBits := bits0 }.genCodes = { len := s.codeLen, bits := s.codeBits }

/-- What holds in every state a run can reach. -/
structure Inv (s : State) : Prop where
  stream : StreamInv s
  status : StatusInv s
  tree : TreeInv s
  fresh : FreshInv s

/-! ## What a program cannot observe -/

/-- `s` and `t` differ at most in state the spec leaves unspecified and unobservable: arena slots that are not
allocated (10_state R35), the contents of HEAP (R36), code bits at or beyond a code's length (R41), and PEND_CMD and
PEND_ARG while no command is pending (30_encoding R94). -/
structure SameVisible (s t : State) : Prop where
  rest : t = { s with
    node := t.node, heap := t.heap, codeBits := t.codeBits, pendCmd := t.pendCmd, pendArg := t.pendArg }
  nodes : ∀ n, n < s.nodeCnt.toNat → arenaAt t.node n = arenaAt s.node n
  codes : ∀ sym, t.codeAt sym = s.codeAt sym
  pending : s.busy = true → t.pendCmd = s.pendCmd ∧ t.pendArg = s.pendArg

/-! ## Commands and turns -/

/-- The mnemonic and operands a host writes for a command (30_encoding R98), HWR with its count. -/
def asmForm (count : Nat) : Instr → AsmCmd
  | .nop => .nop
  | .srst => .srst
  | .sclr => .sclr
  | .hclr => .hclr
  | .hwr sym => .hwr sym.toNat count
  | .hrd sym => .hrd sym.toNat
  | .build => .build
  | .nrd node sel => .nrd node.toNat sel.toNat
  | .genc => .genc
  | .clen sym => .clen sym.toNat
  | .cbits sym wrd => .cbits sym.toNat wrd.toNat
  | .enc sym => .enc sym.toNat
  | .flush => .flush
  | .dec => .dec

/-- The bits a command's format names (30_encoding R91): OP, and SYM, WRD, NODE, SEL where the format has them. -/
def namedBits : Instr → Word
  | .nop | .srst | .sclr | .hclr | .build | .genc | .flush | .dec => 0xFF000000#32
  | .hwr _ | .hrd _ | .clen _ | .enc _ => 0xFF0000FF#32
  | .cbits _ _ => 0xFF001FFF#32
  | .nrd _ _ => 0xFF0031FF#32

/-- The OP column of 30_encoding R95. -/
def listedOpcodes : List (BitVec 8) :=
  [0x00, 0x01, 0x02, 0x08, 0x09, 0x0A, 0x10, 0x11, 0x18, 0x19, 0x1A, 0x20, 0x21, 0x28]

/-- The requirement matrix of 60_exceptions R221, in the order of R222: ERR after each command. -/
def requiredErr (s : State) : Instr → BitVec 8
  | .nop | .srst | .sclr | .hclr | .hwr _ | .hrd _ | .build | .nrd _ _ => 0x00
  | .genc => if s.treeValid then 0x00 else 0x02
  | .clen _ | .cbits _ _ => if s.codesValid then 0x00 else 0x03
  | .enc sym =>
    if s.codesValid = false then 0x03
    else if (s.lenAt sym).toNat = 0 then 0x04
    else if s.outf.length + (s.accN.toNat + (s.lenAt sym).toNat) / 8 ≤ s.cfg.outDepth then 0x00 else 0x05
  | .flush => if 0 < s.accN.toNat ∧ s.outf.length = s.cfg.outDepth then 0x05 else 0x00
  | .dec =>
    if s.treeValid = false then 0x02
    else if s.origLen.toNat ≤ s.dcnt.toNat then 0x00
    else if s.rootValid = false then 0x06
    else if s.outf.length = s.cfg.outDepth then 0x05
    else 0x00

/-- The next step of `s` is the engine's (its turn is named, or no turn is), with `rest` the turns left. -/
def engineNext (s : State) (rest : List Turn) : Prop :=
  (s.agenda = [] ∧ rest = []) ∨ s.agenda = .engine :: rest

/-- The next step of `s` executes the command `i` (30_encoding R93). -/
def runs (s : State) (i : Instr) : Prop :=
  s.busy = true ∧ decode s.pendCmd = .ok i ∧ ∃ rest, engineNext s rest

/-- The next step of `s` is a hardware reset (70_reset R250). -/
def resetNext (s : State) : Prop := ∃ rest, s.agenda = .hwReset :: rest

/-- The sum of the counts of the leaves below node `n`, looking at most `fuel` levels down (42_tree_builder R139). -/
def leafSum (arena : Vector Node 511) : Nat → NodeIx → Nat
  | 0, _ => 0
  | fuel + 1, n =>
    if (nodeAt arena n).leaf then (nodeAt arena n).freq.toNat
    else leafSum arena fuel (nodeAt arena n).left + leafSum arena fuel (nodeAt arena n).right

/-- The heap invariant (10_state R37). -/
def HeapOrdered (b : Builder) : Prop :=
  ∀ i, 1 ≤ i → i < b.heapN → b.freqAt ((i - 1) / 2) ≤ b.freqAt i

/-- The slot reached from heap slot `n` by going up `d` parents, the parent of slot `i` being `floor((i-1)/2)`
(10_state R37). -/
def heapAncestor (n : Nat) : Nat → Nat
  | 0 => n
  | d + 1 => (heapAncestor n d - 1) / 2

/-- The number of INF bytes a DEC that consumes `bits` bits pops: none while IBUF has bits left, then one for every 8
(45_unpacker R200, R201). -/
def bytesPopped (s : State) (bits : Nat) : Nat := (bits - s.ibits.toNat + 7) / 8

/-! ## Runs of commands -/

/-- Execute commands one after another, each completing before the next is issued. -/
def runCmds : List Instr → State → Out
  | [], s => .next s
  | i :: is, s =>
    match exec i s with
    | .next t => runCmds is t
    | .fault r => .fault r
    | .refused r => .refused r

/-- An access the host may make (20_memory R63): aligned, 32 bits wide, inside the window. -/
def Admitted (c : Config) : Access → Prop
  | .read width addr => width = .w32 ∧ c.base ≤ addr ∧ addr ≤ c.base + 0xFC ∧ (addr - c.base) % 4 = 0
  | .write width addr _ => width = .w32 ∧ c.base ≤ addr ∧ addr ≤ c.base + 0xFC ∧ (addr - c.base) % 4 = 0

end Sys2Proof.Machine
end

