-- ==== Sys2Proof/Certificates/Slice0/Obligations.lean ====
section
/-! DEFINITION. The statements for the provers. Rule numbers are those of spec/. "Completes" names what
30_encoding R94 leaves: ERR, RESULT, BUSY = 0, IRQ.CMD_DONE. -/

open Sys2Proof Sys2Proof.Machine

/-! ## Encoding -/

/-- Decoding an encoded command gives it back, every operand at every value (30_encoding R91, R92, R95, R99). -/
def Obligations.DecodeOfEncode : Prop :=
  ∀ i : Instr, decode (encode i) = .ok i

/-- 30_encoding R91: the bits a format does not name never change what a word is, and the bits it names do. -/
def Obligations.DecodeReadsNamedBitsOnly : Prop :=
  ∀ (w : Word) (i : Instr), decode w = .ok i ↔ w &&& namedBits i = encode i

/-- 30_encoding R97: every word decodes to one row of R95 or is illegal, by its opcode alone; 14 opcodes are listed
and 242 are not (R96). -/
def Obligations.OpcodeAloneSelectsTheRow : Prop :=
  (∀ w : Word, (∃ i, decode w = .ok i) ↔ opField w ∈ listedOpcodes) ∧
  (∀ (w : Word) (i : Instr), decode w = .ok i → i.opcode = opField w) ∧
  (∀ i j : Instr, i.opcode = j.opcode → namedBits i = namedBits j) ∧
  listedOpcodes.Nodup ∧ listedOpcodes.length = 14

/-- Words written out in 30_encoding R99 and 95_test_vectors decode to the commands they stand for, one or more of
every family. -/
def Obligations.WordsOfTheSpecDecode : Prop :=
  decode 0x20000041#32 = .ok (.enc 0x41) ∧ decode 0x1A000107#32 = .ok (.cbits 7 1) ∧
  decode 0x11002006#32 = .ok (.nrd 6 2) ∧ decode 0x09000041#32 = .ok (.hwr 0x41) ∧
  decode 0x1A00E043#32 = .ok (.cbits 0x43 0) ∧ decode 0x00ABCDEF#32 = .ok .nop ∧
  decode 0x10000000#32 = .ok .build ∧ decode 0x18000000#32 = .ok .genc ∧
  decode 0x21000000#32 = .ok .flush ∧ decode 0x28000000#32 = .ok .dec ∧
  decode 0x02000000#32 = .ok .sclr ∧ decode 0x03000000#32 = .error (.illegalCmd 3)

/-! ## Steps and completion -/

/-- 30_encoding R93, R96: the engine has a step exactly when BUSY = 1, and it executes the latched command: `exec` of
the decoded command in the state whose agenda is what is left, or ILLEGAL_CMD, which changes nothing but ERR, RESULT,
ERR_CMD, BUSY and CMD_DONE. With BUSY = 0 the turn passes and nothing changes (the model's own, log 3). -/
def Obligations.StepRunsPendingCommand : Prop :=
  ∀ (s : State) (rest : List Turn), engineNext s rest →
    (∀ i, s.busy = true → decode s.pendCmd = .ok i → step s = exec i { s with agenda := rest }) ∧
    (s.busy = true → opField s.pendCmd ∉ listedOpcodes → step s = .next { s with
      agenda := rest, err := 0x01, result := 0, errCmd := s.pendCmd, busy := false, irq := s.irq ||| 0b001 }) ∧
    (s.busy = false → step s = .next { s with agenda := rest })

/-- 60_exceptions R224, R225: every command completes; one that completes with an error, an illegal one among them, has
changed nothing but ERR, RESULT, ERR_CMD, BUSY and IRQ.CMD_DONE, and one that succeeds leaves ERR_CMD alone (but SRST
resets it, 40_control R111). -/
def Obligations.FailureIsPrecise : Prop :=
  (∀ (s : State) (rest : List Turn), engineNext s rest → s.busy = true → ∃ t, step s = .next t ∧
    (t.err ≠ 0 → t = { s with
      agenda := rest, err := t.err, result := 0, errCmd := s.pendCmd, busy := false, irq := s.irq ||| 0b001 })) ∧
  ∀ (i : Instr) (s : State), ∃ t, exec i s = .next t ∧ t.busy = false ∧ t.irq = s.irq ||| 0b001 ∧
    (t.err ≠ 0 → t = { s with
      err := t.err, result := 0, errCmd := s.pendCmd, busy := false, irq := s.irq ||| 0b001 }) ∧
    (t.err = 0 → i ≠ .srst → t.errCmd = s.errCmd)

/-- 60_exceptions R221: the condition each command needs, and the error it reports otherwise. -/
def Obligations.ErrFollowsRequirements : Prop :=
  ∀ (i : Instr) (s : State), ∃ t, exec i s = .next t ∧ t.err = requiredErr s i

/-! ## Frames over all commands -/

/-- No command changes CTRL, the parameters, the turns to come or what the host has read; only SRST changes ARG,
ORIG_LEN, PEND_CMD or PEND_ARG. -/
def Obligations.HostRegistersKeptByCommands : Prop :=
  ∀ (i : Instr) (s t : State), exec i s = .next t →
    t.ctrl = s.ctrl ∧ t.cfg = s.cfg ∧ t.agenda = s.agenda ∧ t.rdata = s.rdata ∧
    (i ≠ .srst → t.arg = s.arg ∧ t.lenLo = s.lenLo ∧ t.lenHi = s.lenHi ∧
      t.pendCmd = s.pendCmd ∧ t.pendArg = s.pendArg)

/-- 10_state R34: NODE_CNT, ROOT and ROOT_VALID change only in BUILD, SRST and hardware reset; in every other step
NRD still reads the old nodes. HWR and HCLR clear TREE_VALID. -/
def Obligations.TreeRegistersChangeOnlyInBuildAndReset : Prop :=
  ∀ s s' : State, step s = .next s' →
    (¬ runs s .build → ¬ runs s .srst → ¬ resetNext s →
      s'.nodeCnt = s.nodeCnt ∧ s'.root = s.root ∧ s'.rootValid = s.rootValid ∧
      ∀ n sel, s'.nodeRead n sel = s.nodeRead n sel) ∧
    ((runs s .hclr ∨ ∃ sym, runs s (.hwr sym)) → s'.treeValid = false)

/-- What sets and what clears TREE_VALID and CODES_VALID (10_state R38, R39), over all steps. Whatever changes a counter
of HIST clears both (R31; 41_histogram R120, R121). -/
def Obligations.ValidBitsChangeOnlyAsStated : Prop :=
  ∀ s s' : State, step s = .next s' →
    (runs s .build → s'.treeValid = true ∧ s'.codesValid = false) ∧
    (runs s .genc → s.treeValid = true → s'.codesValid = true ∧ s'.treeValid = true) ∧
    ((runs s .hclr ∨ runs s .srst ∨ resetNext s ∨ ∃ sym, runs s (.hwr sym)) →
      s'.treeValid = false ∧ s'.codesValid = false) ∧
    (runs s .genc → s.treeValid = false → s'.treeValid = false ∧ s'.codesValid = s.codesValid) ∧
    (¬ runs s .hclr → ¬ runs s .srst → ¬ resetNext s → (∀ sym, ¬ runs s (.hwr sym)) →
      s'.hist = s.hist ∧
      (¬ runs s .build → s'.treeValid = s.treeValid ∧ (¬ runs s .genc → s'.codesValid = s.codesValid)))

/-- 10_state R45: OUTF is filled only at its tail, by ENC, FLUSH and DEC, in the order the commands complete; R27: OTOT
counts every byte they push. DCNT changes in DEC alone. (SRST and SCLR empty the FIFO and reset the counters.) -/
def Obligations.OutputBytesAreCounted : Prop :=
  ∀ (i : Instr) (s t : State), exec i s = .next t → i ≠ .srst → i ≠ .sclr →
    ∃ bytes : List Byte, t.outf = s.outf ++ bytes ∧ t.otot = s.otot + BitVec.ofNat 64 bytes.length ∧
      (bytes ≠ [] → i = .flush ∨ i = .dec ∨ ∃ sym, i = .enc sym) ∧ (i ≠ .dec → t.dcnt = s.dcnt)

/-! ## Control and histogram commands -/

/-- 40_control R110: any word with OP 0x00 is NOP, and NOP changes nothing but what completion does. -/
def Obligations.NopCompletes : Prop :=
  (∀ w : Word, opField w = 0x00#8 → decode w = .ok .nop) ∧
  ∀ s : State, exec .nop s = .next { s with err := 0, result := 0, busy := false, irq := s.irq ||| 0b001 }

/-- 40_control R111: every element to its reset value except CTRL and IRQ; the arena, heap and code bits, which have
none, are left open. STATUS is then 0x148 and TREE_INFO 0 (with legal parameters). -/
def Obligations.SrstResetsAllButCtrlAndIrq : Prop :=
  (∀ w : Word, opField w = 0x01#8 → decode w = .ok .srst) ∧
  ∀ s : State, ∃ t, exec .srst s = .next t ∧
    t = { State.resetWith s.cfg with
      agenda := s.agenda, rdata := s.rdata, ctrl := s.ctrl, irq := s.irq ||| 0b001,
      node := t.node, heap := t.heap, codeBits := t.codeBits } ∧
    (s.cfg.wf = true → t.status = 0x00000148 ∧ t.treeInfo = 0)

/-- 40_control R112: the packer, unpacker, FIFOs and counters are cleared, DEC_NODE goes to ROOT, all else is kept. -/
def Obligations.SclrClearsStreamOnly : Prop :=
  (∀ w : Word, opField w = 0x02#8 → decode w = .ok .sclr) ∧
  ∀ s : State, exec .sclr s = .next { s with
    acc := 0, accN := 0, ibuf := 0, ibits := 0, inf := [], outf := [], dcnt := 0, otot := 0, needIn := false,
    decNode := if s.rootValid = true then s.root else 0,
    err := 0, result := 0, busy := false, irq := s.irq ||| 0b001 }

/-- 41_histogram R120: every counter is 0, no tree and no code table is valid, all else is kept. -/
def Obligations.HclrClearsEveryCounter : Prop :=
  (∀ w : Word, opField w = 0x08#8 → decode w = .ok .hclr) ∧
  ∀ s : State, ∃ t, exec .hclr s = .next t ∧ (∀ sym, t.histAt sym = 0) ∧
    t = { s with
      hist := t.hist, treeValid := false, codesValid := false,
      err := 0, result := 0, busy := false, irq := s.irq ||| 0b001 }

/-- 41_histogram R121: the counter of SYM takes the latched argument, every other keeps its value. -/
def Obligations.HwrWritesOneCounter : Prop :=
  (∀ w : Word, opField w = 0x09#8 → decode w = .ok (.hwr (w.extractLsb' 0 8))) ∧
  ∀ (sym : Byte) (s : State), ∃ t, exec (.hwr sym) s = .next t ∧
    (∀ x, t.histAt x = if x = sym then s.pendArg else s.histAt x) ∧
    t = { s with
      hist := t.hist, treeValid := false, codesValid := false,
      err := 0, result := 0, busy := false, irq := s.irq ||| 0b001 }

/-- 41_histogram R122: at any time, and nothing but RESULT and the completion changes. -/
def Obligations.HrdReadsCounter : Prop :=
  (∀ w : Word, opField w = 0x0A#8 → decode w = .ok (.hrd (w.extractLsb' 0 8))) ∧
  ∀ (sym : Byte) (s : State), exec (.hrd sym) s =
    .next { s with err := 0, result := s.histAt sym, busy := false, irq := s.irq ||| 0b001 }

/-! ## Tree builder -/

/-- BUILD succeeds for every HIST (42_tree_builder R136): RESULT is the number k of present symbols, NODE_CNT is
2k - 1, ROOT the last node; what it does not touch is unchanged. -/
def Obligations.BuildSetsTreeRegisters : Prop :=
  ∀ s : State, ∃ t, exec .build s = .next t ∧
    t = { s with
      node := t.node, heap := t.heap, heapN := 0,
      nodeCnt := BitVec.ofNat 10 (2 * (presentLeaves s.hist).length - 1),
      root := BitVec.ofNat 9 (2 * (presentLeaves s.hist).length - 2),
      rootValid := decide (0 < (presentLeaves s.hist).length),
      treeValid := true, codesValid := false,
      decNode := BitVec.ofNat 9 (2 * (presentLeaves s.hist).length - 2),
      err := 0, result := BitVec.ofNat 32 (presentLeaves s.hist).length, busy := false, irq := s.irq ||| 0b001 }

/-- 42_tree_builder R134: leaf i is the i-th present symbol in increasing value, with its count. -/
def Obligations.BuildCollectsLeavesInOrder : Prop :=
  ∀ s t : State, exec .build s = .next t →
    ((presentLeaves s.hist).Pairwise fun a b => a.1 < b.1) ∧
    (∀ (sym : Byte) (f : BitVec 64), (sym, f) ∈ presentLeaves s.hist ↔
      s.histAt sym ≠ 0 ∧ f = (s.histAt sym).setWidth 64) ∧
    ∀ (n : Nat) (h : n < (presentLeaves s.hist).length),
      arenaAt t.node n =
        { leaf := true, sym := (presentLeaves s.hist)[n].1, freq := (presentLeaves s.hist)[n].2, left := 0, right := 0 }

/-- 10_state R33: the allocated nodes form one full binary tree rooted at ROOT, the last of them. -/
def Obligations.BuildMakesOneTree : Prop :=
  ∀ s t : State, exec .build s = .next t →
    TreeShape t.node t.nodeCnt.toNat (presentLeaves s.hist).length ∧
    t.nodeCnt.toNat = 2 * (presentLeaves s.hist).length - 1 ∧
    t.root.toNat = t.nodeCnt.toNat - 1 ∧
    t.rootValid = decide (0 < (presentLeaves s.hist).length)

/-- 42_tree_builder R139: an internal node's frequency is the sum over the leaves below it, and the root's is the sum
of the histogram; no sum overflows. Of two siblings the left is not the heavier, having been extracted first (R136). -/
def Obligations.BuildFrequenciesAreSums : Prop :=
  ∀ s t : State, exec .build s = .next t →
    (∀ n : NodeIx, n.toNat < t.nodeCnt.toNat → (t.nodeOf n).freq.toNat = leafSum t.node 256 n) ∧
    (∀ n : NodeIx, n.toNat < t.nodeCnt.toNat → (t.nodeOf n).leaf = false →
      (t.nodeOf (t.nodeOf n).left).freq ≤ (t.nodeOf (t.nodeOf n).right).freq) ∧
    (t.rootValid = true → (t.nodeOf t.root).freq.toNat = (s.hist.toList.map BitVec.toNat).sum) ∧
    (s.hist.toList.map BitVec.toNat).sum < 2 ^ 40

/-- The heap primitives keep the heap invariant of 10_state R37, Heapify establishes it, and ExtractMin returns an entry
of least frequency. Ties are as 42_tree_builder R130 to R132 and R135 have them: SiftDown moves only to a strictly
lighter child, the left one when the children tie, and goes on from there; HeapInsert passes strictly heavier parents
only; ExtractMin moves the last entry to slot 0; Heapify sifts from the last parent down to slot 0. -/
def Obligations.HeapPrimitivesKeepOrderAndTies : Prop :=
  (∀ (x : NodeIx) (b : Builder), b.heapN < 256 → HeapOrdered b → HeapOrdered (heapInsert x b)) ∧
  (∀ b : Builder, 1 ≤ b.heapN → b.heapN ≤ 256 → HeapOrdered b →
    HeapOrdered (extractMin b).2 ∧ ∀ i, i < b.heapN → b.freq (extractMin b).1 ≤ b.freqAt i) ∧
  (∀ (k : Nat) (b : Builder), k ≤ 256 → HeapOrdered (heapify k b)) ∧
  (∀ (b : Builder) (i : Nat),
    (b.lesserChild i = i ∨
      ((b.lesserChild i = 2 * i + 1 ∨ b.lesserChild i = 2 * i + 2) ∧ b.lesserChild i < b.heapN ∧
        b.freqAt (b.lesserChild i) < b.freqAt i)) ∧
    (∀ c, c = 2 * i + 1 ∨ c = 2 * i + 2 → c < b.heapN → b.freqAt (b.lesserChild i) ≤ b.freqAt c) ∧
    (b.freqAt (2 * i + 1) = b.freqAt (2 * i + 2) → b.lesserChild i ≠ 2 * i + 2)) ∧
  (∀ (b : Builder) (i j n : Nat), i < 256 → j < 256 →
    (b.swap i j).slot n = if n = i then b.slot j else if n = j then b.slot i else b.slot n) ∧
  (∀ (b : Builder) (i : Nat), siftDown i b =
    if b.lesserChild i = i then b else siftDown (b.lesserChild i) (b.swap i (b.lesserChild i))) ∧
  (∀ (x : NodeIx) (b : Builder), b.heapN < 256 → ∃ d,
    (∀ e, e < d → 0 < heapAncestor b.heapN e ∧ b.freq x < b.freqAt (heapAncestor b.heapN (e + 1)) ∧
      (heapInsert x b).slot (heapAncestor b.heapN e) = b.slot (heapAncestor b.heapN (e + 1))) ∧
    (heapAncestor b.heapN d = 0 ∨ ¬ b.freq x < b.freqAt (heapAncestor b.heapN (d + 1))) ∧
    (heapInsert x b).slot (heapAncestor b.heapN d) = x ∧
    (∀ n, (∀ e, e ≤ d → n ≠ heapAncestor b.heapN e) → (heapInsert x b).slot n = b.slot n)) ∧
  (∀ b : Builder, extractMin b =
    (b.slot 0, siftDown 0 { b with
      heap := b.heap.setIfInBounds 0 (b.slot (b.heapN - 1)), heapN := b.heapN - 1 })) ∧
  (∀ (k : Nat) (b : Builder), k ≤ 256 → ∃ b1 : Builder, b1.node = b.node ∧ b1.nodeCnt = b.nodeCnt ∧ b1.heapN = k ∧
    (∀ i, i < k → b1.slot i = BitVec.ofNat 9 i) ∧
    heapify k b = (List.range (k / 2)).reverse.foldl (fun c i => siftDown i c) b1)

/-- 42_tree_builder R138: the tree is a function of the 256 counters alone. -/
def Obligations.BuildDependsOnHistogramOnly : Prop :=
  ∀ s s' t t' : State, s.hist = s'.hist → exec .build s = .next t → exec .build s' = .next t' →
    t.nodeCnt = t'.nodeCnt ∧ t.root = t'.root ∧ t.rootValid = t'.rootValid ∧
    ∀ n, n < t.nodeCnt.toNat → arenaAt t.node n = arenaAt t'.node n

/-- 42_tree_builder R137: the field SEL names of an allocated node, 0 for any other index. -/
def Obligations.NrdReadsNodeField : Prop :=
  (∀ w : Word, opField w = 0x11#8 → decode w = .ok (.nrd (w.extractLsb' 0 9) (w.extractLsb' 12 2))) ∧
  ∀ (n : NodeIx) (sel : BitVec 2) (s : State), ∃ r : Word,
    exec (.nrd n sel) s = .next { s with err := 0, result := r, busy := false, irq := s.irq ||| 0b001 } ∧
    (s.nodeCnt.toNat ≤ n.toNat → r = 0) ∧
    (n.toNat < s.nodeCnt.toNat →
      (sel = 0 → r.getLsbD 31 = true ∧ r.getLsbD 30 = (s.nodeOf n).leaf ∧
        r.extractLsb' 8 22 = 0 ∧ r.extractLsb' 0 8 = (s.nodeOf n).sym) ∧
      (sel = 1 → r = 0#7 ++ (s.nodeOf n).right ++ 0#7 ++ (s.nodeOf n).left) ∧
      (sel = 2 → r = (s.nodeOf n).freq.extractLsb' 0 32) ∧
      (sel = 3 → r = (s.nodeOf n).freq.extractLsb' 32 32))

/-! ## Code table -/

/-- GENC (43_code_table R160): NO_TREE without a valid tree; with one, the table is filled, CODES_VALID set, and RESULT
is the greatest length; nothing else changes. -/
def Obligations.GencCompletes : Prop :=
  ∀ s : State,
    (s.treeValid = false → exec .genc s = .next { s with
      err := 0x02, result := 0, errCmd := s.pendCmd, busy := false, irq := s.irq ||| 0b001 }) ∧
    (s.treeValid = true → ∃ t, exec .genc s = .next t ∧
      t = { s with
        codeLen := t.codeLen, codeBits := t.codeBits, codesValid := true,
        err := 0, result := t.result, busy := false, irq := s.irq ||| 0b001 } ∧
      (∀ sym, (t.lenAt sym).toNat ≤ t.result.toNat) ∧ ∃ sym, (t.lenAt sym).toNat = t.result.toNat)

/-- 43_code_table R161: the code of a present symbol is the path from the root to its leaf, 0 for left and 1 for right;
with one symbol it is the one bit 0. Each leaf is reached by exactly one path. -/
def Obligations.GencRecordsTreePaths : Prop :=
  ∀ s t : State, TreeInv s → s.treeValid = true → exec .genc s = .next t →
    ∀ sym : Byte,
      (s.histAt sym ≠ 0 → ∃ p, s.treeCode sym p ∧ t.codeAt sym = p ∧ ∀ q, s.treeCode sym q → q = p) ∧
      (s.histAt sym = 0 → t.codeAt sym = [])

/-- 43_code_table R162: an absent symbol has length 0, the only symbol length 1, and with k ≥ 2 symbols a length is
between 1 and k - 1. -/
def Obligations.GencLengthsAreBounded : Prop :=
  ∀ s t : State, TreeInv s → s.treeValid = true → exec .genc s = .next t →
    ∀ sym : Byte,
      (s.histAt sym = 0 → t.lenAt sym = 0) ∧
      (s.histAt sym ≠ 0 → (presentLeaves s.hist).length = 1 → t.lenAt sym = 1) ∧
      (s.histAt sym ≠ 0 → 2 ≤ (presentLeaves s.hist).length →
        1 ≤ (t.lenAt sym).toNat ∧ (t.lenAt sym).toNat ≤ (presentLeaves s.hist).length - 1)

/-- 43_code_table R163: no code is a prefix of another present symbol's, and for k ≥ 2 symbols the Kraft sum is 1
(here multiplied by 2^255); for one symbol it is 1/2. -/
def Obligations.GencCodesArePrefixFreeAndComplete : Prop :=
  ∀ s t : State, TreeInv s → s.treeValid = true → exec .genc s = .next t →
    (∀ a b : Byte, s.histAt a ≠ 0 → s.histAt b ≠ 0 → t.codeAt a <+: t.codeAt b → a = b) ∧
    (2 ≤ (presentLeaves s.hist).length →
      (t.codeLen.toList.map fun l => if l = 0 then 0 else 2 ^ (255 - l.toNat)).sum = 2 ^ 255) ∧
    ((presentLeaves s.hist).length = 1 →
      (t.codeLen.toList.map fun l => if l = 0 then 0 else 2 ^ (255 - l.toNat)).sum = 2 ^ 254)

/-- 43_code_table R164: the length, 0 for an absent symbol, or NO_CODES. -/
def Obligations.ClenReadsLength : Prop :=
  (∀ w : Word, opField w = 0x19#8 → decode w = .ok (.clen (w.extractLsb' 0 8))) ∧
  ∀ (sym : Byte) (s : State),
    (s.codesValid = true → exec (.clen sym) s = .next { s with
      err := 0, result := BitVec.ofNat 32 (s.lenAt sym).toNat, busy := false, irq := s.irq ||| 0b001 }) ∧
    (s.codesValid = false → exec (.clen sym) s = .next { s with
      err := 0x03, result := 0, errCmd := s.pendCmd, busy := false, irq := s.irq ||| 0b001 })

/-- 43_code_table R165: code bit `32*WRD + j` lands in RESULT[31 - j]; positions at or beyond the length read 0. -/
def Obligations.CbitsReadsCodeWord : Prop :=
  (∀ w : Word, opField w = 0x1A#8 → decode w = .ok (.cbits (w.extractLsb' 0 8) (w.extractLsb' 8 5))) ∧
  ∀ (sym : Byte) (wrd : BitVec 5) (s : State),
    (s.codesValid = true → ∃ r : Word,
      exec (.cbits sym wrd) s = .next { s with err := 0, result := r, busy := false, irq := s.irq ||| 0b001 } ∧
      ∀ j, j < 32 → r.getLsbD (31 - j) = (s.codeAt sym).getD (32 * wrd.toNat + j) false) ∧
    (s.codesValid = false → exec (.cbits sym wrd) s = .next { s with
      err := 0x03, result := 0, errCmd := s.pendCmd, busy := false, irq := s.irq ||| 0b001 })

/-! ## Packer -/

/-- 44_packer R183: the bytes pushed and the bits left in ACC are the bits that were in ACC followed by the code; ENC
pushes `floor((ACC_N + L) / 8)` bytes, which is RESULT, and touches nothing else. -/
def Obligations.EncAppendsCode : Prop :=
  ∀ (sym : Byte) (s : State), (∀ i, i < 8 - s.accN.toNat → s.acc.getLsbD i = false) →
    s.codesValid = true → s.lenAt sym ≠ 0 →
    s.outf.length + (s.accN.toNat + (s.lenAt sym).toNat) / 8 ≤ s.cfg.outDepth →
    ∃ t bytes, exec (.enc sym) s = .next t ∧
      bytes.length = (s.accN.toNat + (s.lenAt sym).toNat) / 8 ∧
      t = { s with
        acc := t.acc, accN := t.accN, outf := s.outf ++ bytes, otot := s.otot + BitVec.ofNat 64 bytes.length,
        err := 0, result := BitVec.ofNat 32 bytes.length, busy := false, irq := s.irq ||| 0b001 } ∧
      t.accN.toNat = (s.accN.toNat + (s.lenAt sym).toNat) % 8 ∧
      bytes.flatMap byteBits ++ t.accBits = s.accBits ++ s.codeAt sym ∧
      ∀ i, i < 8 - t.accN.toNat → t.acc.getLsbD i = false

/-- 44_packer R182: nothing to flush, or no room (OUT_FULL), or the byte ACC is pushed and the pad count returned. -/
def Obligations.FlushPadsPartialByte : Prop :=
  (∀ w : Word, opField w = 0x21#8 → decode w = .ok .flush) ∧
  ∀ s : State,
    (s.accN = 0 → exec .flush s = .next { s with err := 0, result := 0, busy := false, irq := s.irq ||| 0b001 }) ∧
    (s.accN ≠ 0 → s.outf.length ≠ s.cfg.outDepth → exec .flush s = .next { s with
      outf := s.outf ++ [s.acc], otot := s.otot + 1, acc := 0, accN := 0,
      err := 0, result := BitVec.ofNat 32 (8 - s.accN.toNat), busy := false, irq := s.irq ||| 0b001 }) ∧
    (s.accN ≠ 0 → s.outf.length = s.cfg.outDepth → exec .flush s = .next { s with
      err := 0x05, result := 0, errCmd := s.pendCmd, busy := false, irq := s.irq ||| 0b001 })

/-- 44_packer R184: a sequence of ENCs and a FLUSH pushes the concatenated codes, most significant bit first, padded
with 0 bits to whole bytes. -/
def Obligations.StreamIsConcatenatedCodes : Prop :=
  ∀ (xs : List Byte) (s : State), StreamInv s → s.codesValid = true → (∀ x ∈ xs, s.lenAt x ≠ 0) →
    s.accN = 0 → s.outf = [] → ((xs.flatMap s.codeAt).length + 7) / 8 ≤ s.cfg.outDepth →
    ∃ t pad, runCmds (xs.map Instr.enc ++ [.flush]) s = .next t ∧ t.err = 0 ∧
      t.outf.flatMap byteBits = xs.flatMap s.codeAt ++ List.replicate pad false ∧ pad < 8 ∧
      t.outf.length = ((xs.flatMap s.codeAt).length + 7) / 8

/-! ## Unpacker -/

/-- 45_unpacker R201, R200: from a tree whose root is internal, DEC follows the unread bits, first bit first, to a leaf;
it consumes exactly the bits of that path, popping an INF byte only when IBITS = 0, emits the leaf's symbol and goes back
to ROOT. -/
def Obligations.DecFollowsBitsToLeaf : Prop :=
  ∀ (s : State) (p rest : List Bool) (sym : Byte), TreeInv s → s.treeValid = true → s.rootValid = true →
    (s.nodeOf s.root).leaf = false → s.dcnt.toNat < s.origLen.toNat → s.outf.length ≠ s.cfg.outDepth →
    s.inBits = p ++ rest → reaches s.node s.decNode p sym →
    ∃ t, exec .dec s = .next t ∧ t.inBits = rest ∧
      t.inf = s.inf.drop (bytesPopped s p.length) ∧ (s.ibuf :: s.inf)[bytesPopped s p.length]? = some t.ibuf ∧
      t.ibits.toNat + p.length = s.ibits.toNat + 8 * bytesPopped s p.length ∧
      t = { s with
        decNode := s.root, ibuf := t.ibuf, ibits := t.ibits, inf := t.inf, needIn := false,
        outf := s.outf ++ [sym], otot := s.otot + 1, dcnt := s.dcnt + 1,
        err := 0, result := 0x100#32 ||| sym.setWidth 32 ||| (if s.origLen ≤ s.dcnt + 1 then 0x400#32 else 0#32),
        busy := false, irq := s.irq ||| 0b001 }

/-- 45_unpacker R200, R201: when the unread bits run out before a leaf, DEC has consumed them all, is at the internal
node they lead to, and reports NEED_IN. -/
def Obligations.DecStopsForInput : Prop :=
  ∀ (s : State) (m : NodeIx), TreeInv s → s.treeValid = true → s.rootValid = true →
    (s.nodeOf s.root).leaf = false → s.dcnt.toNat < s.origLen.toNat → s.outf.length ≠ s.cfg.outDepth →
    leads s.node s.decNode s.inBits m → (s.nodeOf m).leaf = false →
    ∃ t, exec .dec s = .next t ∧ (s.ibuf :: s.inf).getLast? = some t.ibuf ∧
      t = { s with
        decNode := m, ibuf := t.ibuf, ibits := 0, inf := [], needIn := true,
        err := 0, result := 0x200, busy := false, irq := s.irq ||| 0b001 }

/-- 45_unpacker R202: with one symbol each DEC consumes exactly one bit, whatever its value, and emits the root's symbol;
with no bit it asks for input and changes nothing else. -/
def Obligations.DecSingleSymbolTree : Prop :=
  ∀ s : State, TreeInv s → s.treeValid = true → s.rootValid = true → (s.nodeOf s.root).leaf = true →
    s.dcnt.toNat < s.origLen.toNat → s.outf.length ≠ s.cfg.outDepth →
    ∃ t, exec .dec s = .next t ∧ t.err = 0 ∧ t.decNode = s.root ∧
      (∀ b rest, s.inBits = b :: rest → t.inBits = rest ∧
        t.inf = s.inf.drop (bytesPopped s 1) ∧ (s.ibuf :: s.inf)[bytesPopped s 1]? = some t.ibuf ∧
        t.ibits.toNat + 1 = s.ibits.toNat + 8 * bytesPopped s 1 ∧
        t = { s with
          ibuf := t.ibuf, ibits := t.ibits, inf := t.inf, needIn := false,
          outf := s.outf ++ [(s.nodeOf s.root).sym], otot := s.otot + 1, dcnt := s.dcnt + 1, err := 0,
          result := 0x100#32 ||| (s.nodeOf s.root).sym.setWidth 32 |||
            (if s.origLen ≤ s.dcnt + 1 then 0x400#32 else 0#32),
          busy := false, irq := s.irq ||| 0b001 }) ∧
      (s.inBits = [] → t = { s with
        ibits := 0, inf := [], needIn := true, err := 0, result := 0x200, busy := false, irq := s.irq ||| 0b001 })

/-- 45_unpacker R203: once DCNT >= ORIG_LEN, DEC consumes no bit, pushes no byte and reports DONE. -/
def Obligations.DecStopsAtOriginalLength : Prop :=
  ∀ s : State, s.treeValid = true → s.origLen.toNat ≤ s.dcnt.toNat →
    exec .dec s = .next { s with
      needIn := false, err := 0, result := 0x400, busy := false, irq := s.irq ||| 0b001 }

/-- Decoding never detects corruption (45_unpacker R204): whatever the unread bits, DEC succeeds, and with at least 255
of them it emits some symbol of the tree. -/
def Obligations.DecAcceptsAnyBits : Prop :=
  ∀ s : State, TreeInv s → s.treeValid = true → s.rootValid = true → s.dcnt.toNat < s.origLen.toNat →
    s.outf.length ≠ s.cfg.outDepth →
    ∃ t, exec .dec s = .next t ∧ t.err = 0 ∧
      (t.needIn = true ∨ ∃ sym p, t.outf = s.outf ++ [sym] ∧ s.treeCode sym p) ∧
      (255 ≤ s.inBits.length → t.needIn = false)

/-- A NEED_IN stop keeps all progress (45_unpacker R200): decoding the rest of the input later is decoding all of it at
once. -/
def Obligations.DecIsResumable : Prop :=
  ∀ (s t : State) (more : List Byte), exec .dec s = .next t → t.result = 0x200#32 →
    exec .dec { t with inf := more } = exec .dec { s with inf := s.inf ++ more }

/-- The round trip (45_unpacker R205): the payload that ENC and FLUSH make of `xs`, decoded with the same tree from a
cleared stream and ORIG_LEN the length of `xs`, gives exactly `xs`, and then DONE. -/
def Obligations.DecodeOfEncodedStream : Prop :=
  ∀ (xs : List Byte) (s : State), Inv s → s.codesValid = true → (∀ x ∈ xs, s.lenAt x ≠ 0) →
    s.accN = 0 → s.outf = [] → ((xs.flatMap s.codeAt).length + 7) / 8 ≤ s.cfg.outDepth →
    xs.length ≤ s.cfg.outDepth →
    ∃ t u, runCmds (xs.map Instr.enc ++ [.flush]) s = .next t ∧
      runCmds (List.replicate xs.length .dec) { t with
        inf := t.outf, outf := [], ibuf := 0, ibits := 0, dcnt := 0, decNode := t.root,
        lenLo := BitVec.ofNat 32 xs.length, lenHi := 0 } = .next u ∧
      u.outf = xs ∧ u.err = 0 ∧ u.decDone = true

/-! ## Host accesses -/

/-- 20_memory R64, R70: an admitted read of any register but OUT_DATA returns the value of the register at that offset of
10_state R22 and leaves all state unchanged; CMD, IN_DATA and the reserved offsets read 0. -/
def Obligations.ReadsHaveNoSideEffect : Prop :=
  ∀ (s : State) (rest : List Turn) (off : Nat),
    s.agenda = .host (.read .w32 (s.cfg.base + off)) :: rest → off % 4 = 0 → off ≤ 0xFC → off ≠ 0x3C →
    ∃ v, step s = .next { s with agenda := rest, rdata := some v } ∧
      (∀ r : Reg, (off, r) ∈ [(0x00, Reg.ID), (0x04, .PARAM), (0x08, .CTRL), (0x0C, .STATUS), (0x10, .IRQ), (0x14, .ARG),
        (0x1C, .RESULT), (0x20, .LEN_LO), (0x24, .LEN_HI), (0x28, .DCNT_LO), (0x2C, .DCNT_HI), (0x30, .OTOT_LO),
        (0x34, .OTOT_HI), (0x40, .FIFO_LVL), (0x44, .TREE_INFO), (0x48, .PACK_STATE), (0x4C, .DEC_STATE),
        (0x50, .ERR_CMD)] → v = s.regValue r) ∧
      (off = 0x18 ∨ off = 0x38 ∨ 0x54 ≤ off → v = 0)

/-- 10_state R30: an OUT_DATA read pops OUTF and returns VALID and the byte, or returns 0 and changes nothing; a write
to OUT_DATA is ignored. -/
def Obligations.OutDataReadPops : Prop :=
  (∀ (s : State) (rest : List Turn), s.agenda = .host (.read .w32 (s.cfg.base + 0x3C)) :: rest →
    (s.outf = [] → step s = .next { s with agenda := rest, rdata := some 0 }) ∧
    (∀ b out, s.outf = b :: out →
      step s = .next { s with agenda := rest, outf := out, rdata := some (0x00000100#32 ||| b.setWidth 32) })) ∧
  ∀ (s : State) (rest : List Turn) (v : Word), s.agenda = .host (.write .w32 (s.cfg.base + 0x3C) v) :: rest →
    step s = .next { s with agenda := rest }

/-- 10_state R25: STATUS field by field. -/
def Obligations.StatusReadsItsFields : Prop :=
  ∀ s : State,
    s.regValue .STATUS = s.status ∧
    s.status.getLsbD 0 = s.busy ∧ s.status.getLsbD 1 = s.treeValid ∧ s.status.getLsbD 2 = s.codesValid ∧
    s.status.getLsbD 3 = decide (s.origLen.toNat ≤ s.dcnt.toNat) ∧ s.status.getLsbD 4 = s.needIn ∧
    s.status.getLsbD 5 = decide (s.inf.length = s.cfg.inDepth) ∧ s.status.getLsbD 6 = s.inf.isEmpty ∧
    s.status.getLsbD 7 = decide (s.outf.length = s.cfg.outDepth) ∧ s.status.getLsbD 8 = s.outf.isEmpty ∧
    s.status.extractLsb' 9 7 = 0 ∧ s.status.extractLsb' 16 8 = s.err ∧ s.status.extractLsb' 24 8 = 0

/-- 10_state R22, R23, R24, R26 to R29: the other registers, field by field. -/
def Obligations.RegistersReadTheirFields : Prop :=
  ∀ s : State,
    s.regValue .ID = 0x48554631 ∧
    s.regValue .PARAM = BitVec.ofNat 16 s.cfg.outDepth ++ BitVec.ofNat 16 s.cfg.inDepth ∧
    s.regValue .CTRL = 0#29 ++ s.ctrl ∧ s.regValue .IRQ = 0#29 ++ s.irq ∧
    s.regValue .ARG = s.arg ∧ s.regValue .RESULT = s.result ∧ s.regValue .ERR_CMD = s.errCmd ∧
    s.regValue .LEN_HI ++ s.regValue .LEN_LO = s.origLen ∧
    s.regValue .DCNT_HI ++ s.regValue .DCNT_LO = s.dcnt ∧ s.regValue .OTOT_HI ++ s.regValue .OTOT_LO = s.otot ∧
    s.regValue .FIFO_LVL = BitVec.ofNat 16 s.outf.length ++ BitVec.ofNat 16 s.inf.length ∧
    s.regValue .TREE_INFO = BitVec.ofBool s.rootValid ++ 0#6 ++ s.root ++ 0#6 ++ s.nodeCnt ∧
    s.regValue .PACK_STATE = 0#4 ++ s.ibits ++ s.ibuf ++ 0#5 ++ s.accN ++ s.acc ∧
    s.regValue .DEC_STATE = 0#23 ++ s.decNode

/-- 20_memory R65, R68: a write to CTRL, IRQ, ARG, LEN_LO or LEN_HI has the effect of its row; a write to a read-only
or reserved offset is ignored. (CMD and IN_DATA: the two statements below.) -/
def Obligations.WritesActByOffset : Prop :=
  ∀ (s : State) (rest : List Turn) (off : Nat) (v : Word),
    s.agenda = .host (.write .w32 (s.cfg.base + off) v) :: rest → off % 4 = 0 → off ≤ 0xFC →
    (off = 0x08 → step s = .next { s with agenda := rest, ctrl := v.extractLsb' 0 3 }) ∧
    (off = 0x10 → step s = .next { s with agenda := rest, irq := s.irq &&& ~~~(v.extractLsb' 0 3) }) ∧
    (off = 0x14 → step s = .next { s with agenda := rest, arg := v }) ∧
    (off = 0x20 → step s = .next { s with agenda := rest, lenLo := v }) ∧
    (off = 0x24 → step s = .next { s with agenda := rest, lenHi := v }) ∧
    (off ∉ [0x08, 0x10, 0x14, 0x18, 0x20, 0x24, 0x38] → step s = .next { s with agenda := rest })

/-- 20_memory R66: a CMD write issues the command with the ARG of that moment, or is dropped and sets OVERRUN. -/
def Obligations.CmdWriteIssuesOrOverruns : Prop :=
  ∀ (s : State) (rest : List Turn) (v : Word), s.agenda = .host (.write .w32 (s.cfg.base + 0x18) v) :: rest →
    (s.busy = false → step s = .next { s with agenda := rest, pendCmd := v, pendArg := s.arg, busy := true }) ∧
    (s.busy = true → step s = .next { s with agenda := rest, irq := s.irq ||| 0b010 })

/-- 20_memory R67: an IN_DATA write pushes bits 7:0, or drops the byte and sets IN_OVF. -/
def Obligations.InDataWritePushesOrOverflows : Prop :=
  ∀ (s : State) (rest : List Turn) (v : Word), s.agenda = .host (.write .w32 (s.cfg.base + 0x38) v) :: rest →
    (s.inf.length < s.cfg.inDepth →
      step s = .next { s with agenda := rest, inf := s.inf ++ [v.extractLsb' 0 8] }) ∧
    (s.cfg.inDepth ≤ s.inf.length → step s = .next { s with agenda := rest, irq := s.irq ||| 0b100 })

/-- 20_memory R63 (and R69): the only steps that are refused are host accesses that are not aligned 32-bit ones inside
the window, and those all are. No step faults. -/
def Obligations.OnlyInadmissibleAccessesAreRefused : Prop :=
  ∀ s : State, ((∃ r, step s = .refused r) ↔ ∃ a rest, s.agenda = .host a :: rest ∧ ¬ Admitted s.cfg a) ∧
    ((∃ s', step s = .next s') ↔ ¬ ∃ r, step s = .refused r)

/-- 60_exceptions R226, R227: `irq_out`; and a step sets at most one pending bit, CMD_DONE only by an engine step,
OVERRUN only by a CMD write while BUSY, IN_OVF only by an IN_DATA write to a full INF. -/
def Obligations.InterruptBitsAreSetByTheirSources : Prop :=
  (∀ s : State, s.irqOut = true ↔ ∃ i, i < 3 ∧ s.irq.getLsbD i = true ∧ s.ctrl.getLsbD i = true) ∧
  ∀ s s' : State, step s = .next s' →
    (s.irq.getLsbD 0 = false → s'.irq.getLsbD 0 = true → s.busy = true ∧ ∃ rest, engineNext s rest) ∧
    (s.irq.getLsbD 1 = false → s'.irq.getLsbD 1 = true →
      s.busy = true ∧ ∃ v rest, s.agenda = .host (.write .w32 (s.cfg.base + 0x18) v) :: rest) ∧
    (s.irq.getLsbD 2 = false → s'.irq.getLsbD 2 = true →
      s.cfg.inDepth ≤ s.inf.length ∧ ∃ v rest, s.agenda = .host (.write .w32 (s.cfg.base + 0x38) v) :: rest)

/-- Waiting on BUSY synchronises (20_memory R73, 70_reset R262): however many admitted host accesses come first, a
pending command completes once the turns are used up. -/
def Obligations.PendingCommandEventuallyCompletes : Prop :=
  ∀ s : State, s.busy = true → (∀ t ∈ s.agenda, ∃ a, t = .host a ∧ Admitted s.cfg a) →
    ∃ s', Host.Core.run core (s.agenda.length + 1) s = .next s' ∧ s'.busy = false ∧ s'.agenda = []

/-- 30_encoding R98, R92: an assembler refuses an operand out of range instead of truncating it; the commands it accepts
are exactly the written forms of the commands, and each is encoded as the command it stands for. -/
def Obligations.AssemblerAcceptsExactlyTheCommands : Prop :=
  (∀ c : AsmCmd, c.wf = false → assemble c = none ∧ ∀ base polls, HostLine.turns base (.mnem c polls) = none) ∧
  (∀ c : AsmCmd, c.wf = true ↔ ∃ (i : Instr) (count : Word), c = asmForm count.toNat i) ∧
  (∀ (i : Instr) (count : Word), assemble (asmForm count.toNat i) = some i)

/-- 30_encoding R99: the line of a mnemonic, run on an idle HCE with nothing else going on, executes that command
(HWR with its count in ARG) and leaves the host with the STATUS of the state after it. Its WAITIDLE is the loop of R99:
a round reads STATUS and ends the loop exactly when it finds BUSY = 0; where the engine's turn falls while BUSY = 1 is
the argument (log 19). -/
def Obligations.MnemonicLineRunsCommand : Prop :=
  (∀ (s : State) (rest : List Turn) (polls : Nat), s.agenda = .waitIdle polls :: rest →
    (s.busy = false → step s = .next { s with rdata := some s.status, agenda := rest }) ∧
    (s.busy = true → polls = 0 →
      step s = .next { s with rdata := some s.status, agenda := .engine :: .waitIdle 0 :: rest }) ∧
    (s.busy = true → ∀ n, polls = n + 1 →
      step s = .next { s with rdata := some s.status, agenda := .waitIdle n :: rest })) ∧
  ∀ (s : State) (i : Instr) (count : Word) (polls : Nat), s.busy = false → s.agenda = [] →
    ∃ ts arg rd t, HostLine.turns s.cfg.base (.mnem (asmForm count.toNat i) polls) = some ts ∧
      (arg = if i.opcode = 0x09 then count else s.arg) ∧
      exec i { s with arg := arg, pendCmd := encode i, pendArg := arg, busy := true, rdata := rd } = .next t ∧
      Host.Core.run core (polls + 3 + if i.opcode = 0x09 then 1 else 0) { s with agenda := ts } =
        .next { t with rdata := some t.status } ∧
      t.busy = false

/-! ## Reset and invariants -/

/-- 70_reset R251: every register after reset, for all legal parameters, and what the first commands answer. -/
def Obligations.ResetRegisterValues : Prop :=
  ∀ c : Config, c.wf = true →
    (State.resetWith c).regValue .ID = 0x48554631 ∧
    (State.resetWith c).regValue .PARAM = BitVec.ofNat 32 (c.outDepth * 65536 + c.inDepth) ∧
    (State.resetWith c).regValue .STATUS = 0x00000148 ∧
    (∀ r : Reg, r ≠ .ID → r ≠ .PARAM → r ≠ .STATUS → (State.resetWith c).regValue r = 0) ∧
    (∀ sym, ∃ t, exec (.hrd sym) (State.resetWith c) = .next t ∧ t.err = 0 ∧ t.result = 0) ∧
    (∀ n sel, ∃ t, exec (.nrd n sel) (State.resetWith c) = .next t ∧ t.err = 0 ∧ t.result = 0) ∧
    (∀ sym, ∃ t, exec (.clen sym) (State.resetWith c) = .next t ∧ t.err = 0x03) ∧
    (∀ sym wrd, ∃ t, exec (.cbits sym wrd) (State.resetWith c) = .next t ∧ t.err = 0x03) ∧
    (∀ sym, ∃ t, exec (.enc sym) (State.resetWith c) = .next t ∧ t.err = 0x03) ∧
    (∃ t, exec .genc (State.resetWith c) = .next t ∧ t.err = 0x02) ∧
    (∃ t, exec .dec (State.resetWith c) = .next t ∧ t.err = 0x02)

/-- 70_reset R250: a hardware reset takes every element to its reset value, abandoning a pending command without
CMD_DONE; the arena, heap and code bits, which have none, are left open. -/
def Obligations.HardwareResetRestoresState : Prop :=
  ∀ (s : State) (rest : List Turn), s.agenda = .hwReset :: rest →
    ∃ t, step s = .next t ∧ t.busy = false ∧ t.irq = 0 ∧
      t = { State.resetWith s.cfg with
        agenda := rest, rdata := s.rdata, node := t.node, heap := t.heap, codeBits := t.codeBits }

/-- The invariant holds after a reset with any legal parameters. -/
def Obligations.ResetMeetsInvariant : Prop :=
  ∀ c : Config, c.wf = true → Inv (State.resetWith c)

/-- FIFOs stay within their capacities (10_state R45), IBITS at most 8 (R43), the unfilled bits of ACC 0 (R42): every
step keeps it. -/
def Obligations.StepKeepsStreamInv : Prop :=
  ∀ s s' : State, StreamInv s → step s = .next s' → StreamInv s'

/-- CODES_VALID implies TREE_VALID (10_state R39), RESULT is 0 after an error (R27): every step keeps it. -/
def Obligations.StepKeepsStatusInv : Prop :=
  ∀ s s' : State, StatusInv s → step s = .next s' → StatusInv s'

/-- The arena always holds a full binary tree, over the present symbols while TREE_VALID, with DEC_NODE at ROOT or at
an internal node, and the heap is empty between commands (10_state R33, R36, R38, R44): every step keeps it. -/
def Obligations.StepKeepsTreeInv : Prop :=
  ∀ s s' : State, TreeInv s → step s = .next s' → TreeInv s'

/-- No stale table is ever valid (10_state R38, R39; 70_reset R261): every step keeps it. -/
def Obligations.StepKeepsFreshInv : Prop :=
  ∀ s s' : State, FreshInv s → step s = .next s' → FreshInv s'

/-- What the spec leaves unspecified cannot be observed (10_state R35, R36, R41, R46): two states that differ in nothing
else are refused together or step to two states that differ in nothing else. In particular, every value a host reads is
the same, whatever the model put in that state. -/
def Obligations.UnspecifiedStateIsUnobservable : Prop :=
  ∀ s t : State, TreeInv s → TreeInv t → SameVisible s t →
    (∀ s', step s = .next s' → ∃ t', step t = .next t' ∧ SameVisible s' t') ∧
    (∀ r, step s = .refused r → step t = .refused r)
end

