-- ==== Sys2Proof/Laws/Bits.lean ====
section
/-! SUPPORT. Bits of vectors: setting one bit, writing a path into a code string, the CBITS word, bytes as bit lists. -/

namespace Sys2Proof.Machine

/-- Reading bit `j` after setting bit `i`. -/
theorem getLsbD_setBitTo {w : Nat} (v : BitVec w) (i j : Nat) (b : Bool) :
    (setBitTo v i b).getLsbD j = if i = j ∧ j < w then b else v.getLsbD j := by
  unfold setBitTo
  by_cases hj : j < w
  · by_cases hij : i = j
    · cases b <;> simp [hij, hj]
    · cases b <;> simp [hij, hj] <;> omega
  · have := BitVec.getLsbD_of_ge v j (by omega)
    cases b
    · simp [hj, this]
    · simp [hj, this, BitVec.getLsbD_twoPow]; omega

/-- Position `j` of a code string after a path is written from position `i`. -/
theorem getLsbD_putBits (p : List Bool) : ∀ (c : CodeString) (i j : Nat), j < 255 →
    (putBits c i p).getLsbD j = if i ≤ j then p.getD (j - i) (c.getLsbD j) else c.getLsbD j := by
  induction p with
  | nil => intro c i j _; simp [putBits]
  | cons b p ih =>
    intro c i j hj
    rw [putBits, ih _ _ _ hj, getLsbD_setBitTo]
    rcases Nat.lt_trichotomy i j with h | h | h
    · have h1 : j - i = (j - (i + 1)) + 1 := by omega
      rw [if_pos (by omega), if_neg (by omega), if_pos (by omega), h1, List.getD_cons_succ]
    · subst h; simp [hj]
    · rw [if_neg (by omega), if_neg (by omega), if_neg (by omega)]

/-- A path of at most 255 bits, written from position 0, is what the first positions read. -/
theorem map_putBits (c : CodeString) (p : List Bool) (h : p.length ≤ 255) :
    (List.range p.length).map (putBits c 0 p).getLsbD = p := by
  apply List.ext_getElem
  · simp
  · intro i h1 h2
    simp only [List.getElem_map, List.getElem_range]
    rw [getLsbD_putBits p c 0 i (by omega)]
    simp [List.getD_eq_getElem?_getD, h2]

/-- A byte has eight bits in stream order. -/
@[simp] theorem byteBits_length (b : Byte) : (byteBits b).length = 8 := by simp [byteBits]

/-- The bits of a byte in stream order determine it. -/
theorem byteBits_injective {a b : Byte} (h : byteBits a = byteBits b) : a = b := by
  apply BitVec.eq_of_getLsbD_eq
  intro i hi
  have h7 : 7 - i < 8 := by omega
  have := congrArg (fun l => l[7 - i]?) h
  simpa [byteBits, h7, show 7 - (7 - i) = i by omega] using this

/-- One more round of the CBITS loop touches one bit. -/
theorem codeWord_loop (len : BitVec 8) (bits : CodeString) (wrd : BitVec 5) (n : Nat) (hn : n ≤ 32) (i : Nat) :
    ((List.range n).foldl (fun r j =>
      let p := 32 * wrd.toNat + j
      if p < len.toNat then setBitTo r (31 - j) (bits.getLsbD p) else r) 0#32).getLsbD i =
    (decide (i < 32) && decide (31 - i < n) && decide (32 * wrd.toNat + (31 - i) < len.toNat) &&
      bits.getLsbD (32 * wrd.toNat + (31 - i))) := by
  induction n with
  | zero => simp
  | succ n ih =>
    rw [List.range_succ, List.foldl_append]
    simp only [List.foldl_cons, List.foldl_nil]
    have ih := ih (by omega)
    split
    · rename_i hlt
      rw [getLsbD_setBitTo]
      split
      · rename_i h
        have h1 : 31 - i = n := by omega
        simp [h.2, h1, hlt]
      · rename_i h
        rw [ih]
        by_cases hi : i < 32
        · have : 31 - i ≠ n := by omega
          have h2 : (31 - i < n + 1) ↔ (31 - i < n) := by omega
          simp [hi, h2]
        · simp [hi]
    · rename_i hlt
      rw [ih]
      by_cases hn' : 31 - i = n
      · simp [hn', hlt]
      · have h2 : (31 - i < n + 1) ↔ (31 - i < n) := by omega
        simp [h2]

/-- The CBITS word bit by bit (43_code_table R165). -/
theorem getLsbD_codeWord (len : BitVec 8) (bits : CodeString) (wrd : BitVec 5) (i : Nat) :
    (codeWord len bits wrd).getLsbD i =
      (decide (i < 32) && decide (32 * wrd.toNat + (31 - i) < len.toNat) &&
        bits.getLsbD (32 * wrd.toNat + (31 - i))) := by
  rw [codeWord, codeWord_loop _ _ _ 32 (Nat.le_refl _)]
  by_cases hi : i < 32
  · simp [hi, show 31 - i < 32 by omega]
  · simp [hi]

/-- Reading bit `j` of a flag placed at bit `i` (10_state R25). -/
theorem getLsbD_flag (b : Bool) (i j : Nat) : (flag b i).getLsbD j = (b && decide (i = j) && decide (j < 32)) := by
  unfold flag
  rw [BitVec.getLsbD_shiftLeft, BitVec.getLsbD_setWidth]
  by_cases hj : j < 32
  · by_cases hi : j < i
    · have : i ≠ j := by omega
      simp [hi, this]
    · have hlt : j - i < 32 := by omega
      by_cases he : i = j
      · subst he; simp [hj]
      · have : j - i ≠ 0 := by omega
        simp [hj, hi, he, hlt, BitVec.getLsbD_ofBool, this]
  · simp [hj]

end Sys2Proof.Machine
end

