-- ==== Sys2Proof/Laws/Heap.lean ====
section
/-! SUPPORT. What the heap primitives and the allocator do (42_tree_builder R130 to R133): each leaves the arena alone,
and each keeps the entries of the heap but for the one it adds or takes. -/

namespace Sys2Proof.Machine

/-! ## Slots -/

@[simp] theorem Builder.setSlot_node (b : Builder) (i : Nat) (x : NodeIx) : (b.setSlot i x).node = b.node := rfl
@[simp] theorem Builder.setSlot_nodeCnt (b : Builder) (i : Nat) (x : NodeIx) :
    (b.setSlot i x).nodeCnt = b.nodeCnt := rfl
@[simp] theorem Builder.setSlot_heapN (b : Builder) (i : Nat) (x : NodeIx) : (b.setSlot i x).heapN = b.heapN := rfl
@[simp] theorem Builder.swap_node (b : Builder) (i j : Nat) : (b.swap i j).node = b.node := rfl
@[simp] theorem Builder.swap_nodeCnt (b : Builder) (i j : Nat) : (b.swap i j).nodeCnt = b.nodeCnt := rfl
@[simp] theorem Builder.swap_heapN (b : Builder) (i j : Nat) : (b.swap i j).heapN = b.heapN := rfl

/-- Reading a slot after writing one. -/
theorem Builder.slot_setSlot (b : Builder) (i j : Nat) (x : NodeIx) (hi : i < 256) :
    (b.setSlot i x).slot j = if i = j then x else b.slot j := by
  unfold Builder.slot Builder.setSlot
  rw [Vector.getElem?_setIfInBounds]
  split <;> simp_all

/-- A frequency does not depend on the heap. -/
theorem Builder.freq_congr {b c : Builder} (h : b.node = c.node) (n : NodeIx) : b.freq n = c.freq n := by
  simp [Builder.freq, h]

/-- Writing a slot changes no frequency. -/
@[simp] theorem Builder.freq_setSlot (b : Builder) (i : Nat) (x n : NodeIx) : (b.setSlot i x).freq n = b.freq n := rfl

/-- After a swap, slot `n` holds what the swapped slot held. -/
theorem Builder.slot_swap (b : Builder) (i j n : Nat) (hi : i < 256) (hj : j < 256) :
    (b.swap i j).slot n = b.slot (Equiv.swap i j n) := by
  unfold Builder.swap
  rw [Builder.slot_setSlot _ _ _ _ hj, Builder.slot_setSlot _ _ _ _ hi, Equiv.swap_apply_def]
  by_cases h1 : n = i <;> by_cases h2 : n = j <;> simp_all [eq_comm]

/-- The entries in use, slot 0 first. -/
def Builder.entries (b : Builder) : List NodeIx := (List.range b.heapN).map b.slot

@[simp] theorem Builder.entries_length (b : Builder) : b.entries.length = b.heapN := by simp [Builder.entries]

/-- Swapping two slots in use permutes the entries. -/
theorem Builder.entries_swap (b : Builder) (i j : Nat) (hi : i < b.heapN) (hj : j < b.heapN) (hn : b.heapN ≤ 256) :
    (b.swap i j).entries.Perm b.entries := by
  have h : (b.swap i j).entries = ((List.range b.heapN).map (Equiv.swap i j)).map b.slot := by
    simp only [Builder.entries, Builder.swap_heapN, List.map_map]
    apply List.map_congr_left
    intro n _
    exact b.slot_swap i j n (by omega) (by omega)
  rw [h]
  apply List.Perm.map
  rw [List.perm_ext_iff_of_nodup ((List.nodup_range).map (Equiv.injective _)) List.nodup_range]
  intro n
  simp only [List.mem_map, List.mem_range]
  constructor
  · rintro ⟨m, hm, rfl⟩
    rw [Equiv.swap_apply_def]
    split
    · exact hj
    · split
      · exact hi
      · exact hm
  · intro hn'
    refine ⟨Equiv.swap i j n, ?_, Equiv.swap_apply_self _ _ _⟩
    rw [Equiv.swap_apply_def]
    split
    · exact hj
    · split
      · exact hi
      · exact hn'

/-- The slot SiftDown moves to is `i` or a child of `i` in use. -/
theorem Builder.lesserChild_cases (b : Builder) (i : Nat) :
    b.lesserChild i = i ∨ (i < b.lesserChild i ∧ b.lesserChild i < b.heapN) := by
  unfold Builder.lesserChild
  dsimp only
  split_ifs
  · right; omega
  · right; omega
  · right; omega
  · left; rfl

/-! ## SiftDown (R130) -/

theorem siftDownLoop_frame (fuel : Nat) : ∀ (i : Nat) (b : Builder),
    (siftDownLoop fuel i b).node = b.node ∧ (siftDownLoop fuel i b).nodeCnt = b.nodeCnt ∧
      (siftDownLoop fuel i b).heapN = b.heapN := by
  induction fuel with
  | zero => intro i b; exact ⟨rfl, rfl, rfl⟩
  | succ fuel ih =>
    intro i b
    rw [siftDownLoop]
    split
    · exact ⟨rfl, rfl, rfl⟩
    · exact ih _ _

@[simp] theorem siftDown_node (i : Nat) (b : Builder) : (siftDown i b).node = b.node := (siftDownLoop_frame _ _ _).1
@[simp] theorem siftDown_nodeCnt (i : Nat) (b : Builder) : (siftDown i b).nodeCnt = b.nodeCnt :=
  (siftDownLoop_frame _ _ _).2.1
@[simp] theorem siftDown_heapN (i : Nat) (b : Builder) : (siftDown i b).heapN = b.heapN :=
  (siftDownLoop_frame _ _ _).2.2

theorem siftDownLoop_entries (fuel : Nat) : ∀ (i : Nat) (b : Builder), b.heapN ≤ 256 →
    (siftDownLoop fuel i b).entries.Perm b.entries := by
  induction fuel with
  | zero => intro i b _; exact .refl _
  | succ fuel ih =>
    intro i b hn
    rw [siftDownLoop]
    split
    · exact .refl _
    · rename_i hm
      have hc := (b.lesserChild_cases i).resolve_left hm
      exact (ih _ (b.swap i (b.lesserChild i)) hn).trans (b.entries_swap _ _ (by omega) hc.2 hn)

/-- SiftDown permutes the entries. -/
theorem siftDown_entries (i : Nat) (b : Builder) (hn : b.heapN ≤ 256) : (siftDown i b).entries.Perm b.entries :=
  siftDownLoop_entries _ _ _ hn

/-! ## HeapInsert (R131) -/

theorem siftUpLoop_frame (x : NodeIx) (fuel : Nat) : ∀ (i : Nat) (b : Builder),
    (siftUpLoop x fuel i b).node = b.node ∧ (siftUpLoop x fuel i b).nodeCnt = b.nodeCnt ∧
      (siftUpLoop x fuel i b).heapN = b.heapN := by
  induction fuel with
  | zero => intro i b; exact ⟨rfl, rfl, rfl⟩
  | succ fuel ih =>
    intro i b
    rw [siftUpLoop]
    split
    · exact ih _ _
    · exact ⟨rfl, rfl, rfl⟩

@[simp] theorem heapInsert_node (x : NodeIx) (b : Builder) : (heapInsert x b).node = b.node := (siftUpLoop_frame _ _ _ _).1
@[simp] theorem heapInsert_nodeCnt (x : NodeIx) (b : Builder) : (heapInsert x b).nodeCnt = b.nodeCnt :=
  (siftUpLoop_frame _ _ _ _).2.1
@[simp] theorem heapInsert_heapN (x : NodeIx) (b : Builder) : (heapInsert x b).heapN = b.heapN + 1 :=
  (siftUpLoop_frame _ _ _ _).2.2

/-- Moving the hole from `i` to `p` and filling it is swapping the two slots of the filled heap. -/
theorem Builder.move_hole (b : Builder) (i p : Nat) (x : NodeIx) (hi : i < 256) (hp : p < 256) (hne : p ≠ i) (n : Nat) :
    ((b.setSlot i (b.slot p)).setSlot p x).slot n = ((b.setSlot i x).swap i p).slot n := by
  rw [Builder.slot_swap _ _ _ _ hi hp, Builder.slot_setSlot _ _ _ _ hp, Builder.slot_setSlot _ _ _ _ hi,
    Builder.slot_setSlot _ _ _ _ hi, Equiv.swap_apply_def]
  by_cases h1 : n = i <;> by_cases h2 : n = p <;> simp_all [eq_comm]

theorem siftUpLoop_entries (x : NodeIx) (fuel : Nat) : ∀ (i : Nat) (b : Builder), i < b.heapN → b.heapN ≤ 256 →
    (siftUpLoop x fuel i b).entries.Perm (b.setSlot i x).entries := by
  induction fuel with
  | zero => intro i b _ _; exact .refl _
  | succ fuel ih =>
    intro i b hi hn
    rw [siftUpLoop]
    split
    · rename_i h
      refine (ih _ (b.setSlot i (b.slot ((i - 1) / 2))) ?_ hn).trans ?_
      · simp only [Builder.setSlot_heapN]; omega
      · have hp : (i - 1) / 2 ≠ i := by omega
        have he : ((b.setSlot i (b.slot ((i - 1) / 2))).setSlot ((i - 1) / 2) x).entries =
            ((b.setSlot i x).swap i ((i - 1) / 2)).entries := by
          simp only [Builder.entries, Builder.setSlot_heapN, Builder.swap_heapN]
          exact List.map_congr_left fun n _ => b.move_hole _ _ x (by omega) (by omega) hp n
        rw [he]
        refine (b.setSlot i x).entries_swap _ _ ?_ ?_ hn
        · exact hi
        · simp only [Builder.setSlot_heapN]; omega
    · exact .refl _

/-- HeapInsert adds its argument to the entries. -/
theorem heapInsert_entries (x : NodeIx) (b : Builder) (hn : b.heapN < 256) :
    (heapInsert x b).entries.Perm (x :: b.entries) := by
  refine (siftUpLoop_entries x b.heapN b.heapN { b with heapN := b.heapN + 1 } (by simp) (by simpa using hn)).trans ?_
  have h : (({ b with heapN := b.heapN + 1 } : Builder).setSlot b.heapN x).entries = b.entries ++ [x] := by
    simp only [Builder.entries, Builder.setSlot_heapN, List.range_succ, List.map_append, List.map_cons, List.map_nil]
    congr 1
    · apply List.map_congr_left
      intro n hn'
      rw [List.mem_range] at hn'
      rw [Builder.slot_setSlot _ _ _ _ hn, if_neg (by omega)]
      rfl
    · rw [Builder.slot_setSlot _ _ _ _ hn, if_pos rfl]
  rw [h]
  exact List.perm_append_singleton x b.entries

/-! ## ExtractMin (R132) -/

@[simp] theorem extractMin_node (b : Builder) : (extractMin b).2.node = b.node := by simp [extractMin]
@[simp] theorem extractMin_nodeCnt (b : Builder) : (extractMin b).2.nodeCnt = b.nodeCnt := by simp [extractMin]
@[simp] theorem extractMin_heapN (b : Builder) : (extractMin b).2.heapN = b.heapN - 1 := by simp [extractMin]
@[simp] theorem extractMin_fst (b : Builder) : (extractMin b).1 = b.slot 0 := rfl

/-- ExtractMin takes what it returns out of the entries. -/
theorem extractMin_entries (b : Builder) (h1 : 1 ≤ b.heapN) (hn : b.heapN ≤ 256) :
    b.entries.Perm ((extractMin b).1 :: (extractMin b).2.entries) := by
  have hs := siftDown_entries 0 ({ b.setSlot 0 (b.slot (b.heapN - 1)) with heapN := b.heapN - 1 } : Builder)
    (by simp only; omega)
  refine List.Perm.trans ?_ (List.Perm.cons _ hs.symm)
  obtain ⟨m, hm⟩ : ∃ m, b.heapN = m + 1 := ⟨b.heapN - 1, by omega⟩
  have hslot : ∀ n, ({ b.setSlot 0 (b.slot (b.heapN - 1)) with heapN := b.heapN - 1 } : Builder).slot n =
      if 0 = n then b.slot (b.heapN - 1) else b.slot n := fun n => b.slot_setSlot 0 n _ (by omega)
  simp only [Builder.entries, extractMin_fst, hm, Nat.add_sub_cancel]
  have he : (List.range m).map ({ b.setSlot 0 (b.slot m) with heapN := m } : Builder).slot =
      (List.range m).map fun n => if 0 = n then b.slot m else b.slot n := by
    apply List.map_congr_left
    intro n _
    have := hslot n
    rwa [hm, Nat.add_sub_cancel] at this
  rw [he]
  cases m with
  | zero => simp
  | succ m =>
    rw [List.range_succ, List.range_succ_eq_map]
    simp only [List.map_append, List.map_cons, List.map_nil, List.map_map, if_true]
    rw [List.cons_append]
    refine List.Perm.cons _ ?_
    refine (List.perm_append_singleton _ _).trans (List.Perm.cons _ ?_)
    have : (fun n => if 0 = n then b.slot (m + 1) else b.slot n) ∘ Nat.succ = b.slot ∘ Nat.succ := by
      funext n; simp
    rw [this]

/-! ## The allocator (R133) -/

@[simp] theorem Builder.alloc_fst (b : Builder) (nd : Node) : (b.alloc nd).1 = BitVec.ofNat 9 b.nodeCnt := rfl
@[simp] theorem Builder.alloc_heap (b : Builder) (nd : Node) : (b.alloc nd).2.heap = b.heap := rfl
@[simp] theorem Builder.alloc_heapN (b : Builder) (nd : Node) : (b.alloc nd).2.heapN = b.heapN := rfl
@[simp] theorem Builder.alloc_nodeCnt (b : Builder) (nd : Node) : (b.alloc nd).2.nodeCnt = b.nodeCnt + 1 := rfl
@[simp] theorem Builder.alloc_entries (b : Builder) (nd : Node) : (b.alloc nd).2.entries = b.entries := rfl

/-- The arena after an allocation: the next slot holds the new record, every other slot what it held. -/
theorem Builder.arenaAt_alloc (b : Builder) (nd : Node) (n : Nat) (h : b.nodeCnt < 511) :
    arenaAt (b.alloc nd).2.node n = if b.nodeCnt = n then nd else arenaAt b.node n := by
  simp only [arenaAt, Builder.alloc, Vector.getElem?_setIfInBounds]
  split <;> simp_all

end Sys2Proof.Machine
end

