-- ==== Sys2Proof/Laws/Tree.lean ====
section
/-! SUPPORT. What BUILD's reduction makes: one full binary tree over the present symbols (10_state R33; 42_tree_builder
R133 to R136). -/

namespace Sys2Proof.Machine

/-! ## Leaf collection (R134) -/

/-- The record of a leaf (10_state R32). -/
def leafNode (p : Byte × BitVec 64) : Node :=
  { leaf := true, sym := p.1, freq := p.2, left := 0, right := 0 }

/-- The present symbols among the counters of symbols `sym`, `sym + 1`, …. -/
def presentFrom (cs : List Word) (sym : Nat) : List (Byte × BitVec 64) :=
  ((cs.zipIdx sym).filter fun c => decide (c.1 ≠ 0)).map fun c => (BitVec.ofNat 8 c.2, c.1.setWidth 64)

theorem presentLeaves_eq (hist : Vector Word 256) : presentLeaves hist = presentFrom hist.toList 0 := rfl

theorem presentFrom_cons (c : Word) (cs : List Word) (sym : Nat) :
    presentFrom (c :: cs) sym =
      if c = 0 then presentFrom cs (sym + 1)
      else (BitVec.ofNat 8 sym, c.setWidth 64) :: presentFrom cs (sym + 1) := by
  unfold presentFrom
  rw [List.zipIdx_cons, List.filter_cons]
  by_cases h : c = 0#32 <;> simp [h]

theorem presentFrom_length_le (cs : List Word) : ∀ sym, (presentFrom cs sym).length ≤ cs.length := by
  intro sym
  simpa [presentFrom] using List.length_filter_le (fun c : Word × Nat => decide (c.1 ≠ 0)) (cs.zipIdx sym)

/-- Leaf collection appends one leaf per present symbol, in increasing symbol order, and leaves the heap alone. -/
theorem collectLeaves_spec (cs : List Word) : ∀ (sym : Nat) (b : Builder),
    b.nodeCnt + (presentFrom cs sym).length ≤ 511 →
    (collectLeaves cs sym b).nodeCnt = b.nodeCnt + (presentFrom cs sym).length ∧
    (collectLeaves cs sym b).heap = b.heap ∧ (collectLeaves cs sym b).heapN = b.heapN ∧
    (∀ n, n < b.nodeCnt → arenaAt (collectLeaves cs sym b).node n = arenaAt b.node n) ∧
    (∀ n, (h : n < (presentFrom cs sym).length) →
      arenaAt (collectLeaves cs sym b).node (b.nodeCnt + n) = leafNode (presentFrom cs sym)[n]) := by
  induction cs with
  | nil => intro sym b _; simp [collectLeaves, presentFrom]
  | cons c cs ih =>
    intro sym b hb
    rw [collectLeaves]
    by_cases hc : c = 0
    · have hp : presentFrom (c :: cs) sym = presentFrom cs (sym + 1) := by rw [presentFrom_cons, if_pos hc]
      simp only [hp] at hb ⊢
      rw [if_pos hc]
      exact ih (sym + 1) b hb
    · have hp : presentFrom (c :: cs) sym =
          (BitVec.ofNat 8 sym, c.setWidth 64) :: presentFrom cs (sym + 1) := by rw [presentFrom_cons, if_neg hc]
      simp only [hp] at hb ⊢
      rw [if_neg hc]
      have hlen : b.nodeCnt + ((presentFrom cs (sym + 1)).length + 1) ≤ 511 := by simpa using hb
      obtain ⟨h1, h2, h3, h4, h5⟩ := ih (sym + 1) (allocLeaf (BitVec.ofNat 8 sym) c b).2
        (by simp only [allocLeaf, Builder.alloc_nodeCnt]; omega)
      simp only [allocLeaf, Builder.alloc_nodeCnt, Builder.alloc_heap, Builder.alloc_heapN] at h1 h2 h3 h4 h5
      refine ⟨by rw [allocLeaf, h1]; simp; omega, h2, h3, ?_, ?_⟩
      · intro n hn
        rw [allocLeaf, h4 n (by omega), Builder.arenaAt_alloc _ _ _ (by omega), if_neg (by omega)]
      · intro n hn
        rcases n with _ | n
        · simp only [allocLeaf, Nat.add_zero, List.getElem_cons_zero]
          rw [h4 _ (by omega), Builder.arenaAt_alloc _ _ _ (by omega), if_pos rfl]
          rfl
        · rw [allocLeaf, show b.nodeCnt + (n + 1) = b.nodeCnt + 1 + n by omega]
          exact h5 n (by simpa using hn)

/-- The present symbols stand in increasing order. -/
theorem presentFrom_sorted (cs : List Word) : ∀ sym, sym + cs.length ≤ 256 →
    ((presentFrom cs sym).Pairwise fun a b => a.1 < b.1) ∧ ∀ p ∈ presentFrom cs sym, sym ≤ p.1.toNat := by
  induction cs with
  | nil => intro sym _; simp [presentFrom]
  | cons c cs ih =>
    intro sym h
    simp only [List.length_cons] at h
    obtain ⟨h1, h2⟩ := ih (sym + 1) (by omega)
    rw [presentFrom_cons]
    split
    · exact ⟨h1, fun p hp => Nat.le_of_succ_le (h2 p hp)⟩
    · have hs : (BitVec.ofNat 8 sym).toNat = sym := by rw [BitVec.toNat_ofNat]; omega
      refine ⟨List.pairwise_cons.2 ⟨fun p hp => ?_, h1⟩, ?_⟩
      · have := h2 p hp
        exact BitVec.lt_def.2 (show (BitVec.ofNat 8 sym).toNat < p.1.toNat by omega)
      · intro p hp
        rcases List.mem_cons.1 hp with rfl | hp
        · exact Nat.le_of_eq hs.symm
        · exact Nat.le_of_succ_le (h2 p hp)

/-! ## Heapify (R135) -/

theorem fillHeap_spec (b : Builder) (k : Nat) (hk : k ≤ 256) :
    (fillHeap k b).node = b.node ∧ (fillHeap k b).nodeCnt = b.nodeCnt ∧
    (∀ n, n < k → (fillHeap k b).slot n = BitVec.ofNat 9 n) := by
  induction k with
  | zero => simp [fillHeap]
  | succ k ih =>
    obtain ⟨h1, h2, h3⟩ := ih (by omega)
    have he : fillHeap (k + 1) b = (fillHeap k b).setSlot k (BitVec.ofNat 9 k) := by
      simp [fillHeap, List.range_succ]
    refine ⟨by rw [he]; exact h1, by rw [he]; exact h2, ?_⟩
    intro n hn
    rw [he, Builder.slot_setSlot _ _ _ _ (by omega)]
    split
    · rename_i h; rw [h]
    · exact h3 n (by omega)

theorem siftAll_spec (j : Nat) : ∀ b : Builder, b.heapN ≤ 256 →
    (siftAll j b).node = b.node ∧ (siftAll j b).nodeCnt = b.nodeCnt ∧ (siftAll j b).heapN = b.heapN ∧
    (siftAll j b).entries.Perm b.entries := by
  induction j with
  | zero => intro b _; exact ⟨rfl, rfl, rfl, .refl _⟩
  | succ j ih =>
    intro b hn
    obtain ⟨h1, h2, h3, h4⟩ := ih (siftDown j b) (by simpa using hn)
    rw [siftAll]
    exact ⟨by simp [h1], by simp [h2], by simp [h3], h4.trans (siftDown_entries j b hn)⟩

/-- Heapify leaves the arena alone and holds the leaves 0..k-1. -/
theorem heapify_spec (b : Builder) (k : Nat) (hk : k ≤ 256) :
    (heapify k b).node = b.node ∧ (heapify k b).nodeCnt = b.nodeCnt ∧ (heapify k b).heapN = k ∧
    (heapify k b).entries.Perm ((List.range k).map (BitVec.ofNat 9)) := by
  obtain ⟨f1, f2, f3⟩ := fillHeap_spec b k hk
  obtain ⟨h1, h2, h3, h4⟩ := siftAll_spec (k / 2) { fillHeap k b with heapN := k } hk
  refine ⟨h1.trans f1, h2.trans f2, h3, h4.trans (.of_eq ?_)⟩
  exact List.map_congr_left fun n hn => f3 n (List.mem_range.1 hn)

/-! ## The reduction (R136) -/

/-- Arenas that agree on the internal nodes have the same children. -/
theorem childList_congr {a a' : Vector Node 511} {k cnt : Nat}
    (h : ∀ n, k ≤ n → n < cnt → arenaAt a' n = arenaAt a n) : childList a' k cnt = childList a k cnt := by
  unfold childList
  apply List.flatMap_congr
  intro n hn
  rw [List.mem_range'_1] at hn
  rw [h n hn.1 (by omega)]

/-- One more internal node adds its two children. -/
theorem childList_succ (a : Vector Node 511) (k cnt : Nat) (h : k ≤ cnt) :
    childList a k (cnt + 1) =
      childList a k cnt ++ [(arenaAt a cnt).left.toNat, (arenaAt a cnt).right.toNat] := by
  unfold childList
  rw [show cnt + 1 - k = cnt - k + 1 by omega, List.range'_concat, List.flatMap_append]
  simp [show k + (cnt - k) = cnt by omega]

/-- What the reduction loop keeps: the arena holds `k` leaves and full trees over them, whose roots are the heap's
entries. -/
structure Forest (k : Nat) (b : Builder) : Prop where
  balance : b.nodeCnt + b.heapN = 2 * k
  small : k ≤ 256
  some : 1 ≤ b.heapN
  started : k ≤ b.nodeCnt
  leaves : ∀ n, n < k →
    (arenaAt b.node n).leaf = true ∧ (arenaAt b.node n).left = 0 ∧ (arenaAt b.node n).right = 0
  internals : ∀ n, k ≤ n → n < b.nodeCnt →
    (arenaAt b.node n).leaf = false ∧ (arenaAt b.node n).sym = 0 ∧
    (arenaAt b.node n).left.toNat < n ∧ (arenaAt b.node n).right.toNat < n
  freqs : ∀ n, k ≤ n → n < b.nodeCnt →
    (arenaAt b.node n).freq =
      (nodeAt b.node (arenaAt b.node n).left).freq + (nodeAt b.node (arenaAt b.node n).right).freq
  cover : (b.entries.map BitVec.toNat ++ childList b.node k b.nodeCnt).Perm (List.range b.nodeCnt)

/-- Every entry of the heap is an allocated node. -/
theorem Forest.entry_lt {k : Nat} {b : Builder} (h : Forest k b) {x : NodeIx} (hx : x ∈ b.entries) :
    x.toNat < b.nodeCnt := by
  have : x.toNat ∈ List.range b.nodeCnt :=
    h.cover.subset (List.mem_append_left _ (List.mem_map_of_mem hx))
  exact List.mem_range.1 this

/-- The leaves alone are a forest (R134, R135). -/
theorem Forest.of_leaves {k : Nat} {b : Builder} (h1 : 1 ≤ k) (hk : k ≤ 256) (hc : b.nodeCnt = k) (hn : b.heapN = k)
    (hl : ∀ n, n < k → (arenaAt b.node n).leaf = true ∧ (arenaAt b.node n).left = 0 ∧ (arenaAt b.node n).right = 0)
    (he : b.entries.Perm ((List.range k).map (BitVec.ofNat 9))) : Forest k b where
  balance := by omega
  small := hk
  some := by omega
  started := by omega
  leaves := hl
  internals := fun n h h' => by omega
  freqs := fun n h h' => by omega
  cover := by
    have h0 : childList b.node k b.nodeCnt = [] := by simp [childList, hc]
    rw [h0, List.append_nil, hc]
    refine (he.map _).trans (.of_eq ?_)
    rw [List.map_map]
    conv_rhs => rw [← List.map_id (List.range k)]
    apply List.map_congr_left
    intro n hn
    rw [List.mem_range] at hn
    simp only [Function.comp_apply, BitVec.toNat_ofNat, id_eq]
    omega

/-- One round of the reduction: a node more in the arena, an entry less in the heap, the nodes before unchanged. -/
theorem mergeTwo_spec {k : Nat} {b : Builder} (h : Forest k b) (h2 : 1 < b.heapN) :
    Forest k (mergeTwo b) ∧ (mergeTwo b).heapN + 1 = b.heapN ∧ (mergeTwo b).nodeCnt = b.nodeCnt + 1 ∧
    ∀ n, n < b.nodeCnt → arenaAt (mergeTwo b).node n = arenaAt b.node n := by
  have hbal := h.balance
  have hsmall := h.small
  have hst := h.started
  -- the two extractions and the allocation, by name
  obtain ⟨l, hl⟩ : ∃ l, (extractMin b).1 = l := ⟨_, rfl⟩
  obtain ⟨b1, hb1⟩ : ∃ b1, (extractMin b).2 = b1 := ⟨_, rfl⟩
  obtain ⟨r, hr⟩ : ∃ r, (extractMin b1).1 = r := ⟨_, rfl⟩
  obtain ⟨b2, hb2⟩ : ∃ b2, (extractMin b1).2 = b2 := ⟨_, rfl⟩
  have n1 : b1.heapN = b.heapN - 1 := by rw [← hb1]; simp
  have n2 : b2.heapN = b.heapN - 2 := by rw [← hb2]; simp [n1]; omega
  have nd1 : b1.node = b.node := by rw [← hb1]; simp
  have nd2 : b2.node = b.node := by rw [← hb2]; simp [nd1]
  have c2 : b2.nodeCnt = b.nodeCnt := by rw [← hb2, extractMin_nodeCnt, ← hb1, extractMin_nodeCnt]
  have hperm : b.entries.Perm (l :: r :: b2.entries) := by
    have p1 := extractMin_entries b (by omega) (by omega)
    have p2 := extractMin_entries b1 (by omega) (by omega)
    rw [hl, hb1] at p1
    rw [hr, hb2] at p2
    exact p1.trans (p2.cons _)
  have hll := h.entry_lt (hperm.symm.subset (List.mem_cons_self : l ∈ l :: r :: b2.entries))
  have hrr := h.entry_lt (hperm.symm.subset (by simp : r ∈ l :: r :: b2.entries))
  let nd : Node := { leaf := false, sym := 0, freq := b2.freq l + b2.freq r, left := l, right := r }
  have hm : mergeTwo b = heapInsert (BitVec.ofNat 9 b2.nodeCnt) (b2.alloc nd).2 := by
    simp only [mergeTwo, hl, hb1, hr, hb2, allocInternal]
    rfl
  have hcnt : (mergeTwo b).nodeCnt = b.nodeCnt + 1 := by rw [hm]; simp [c2]
  have hheap : (mergeTwo b).heapN + 1 = b.heapN := by rw [hm]; simp [n2]; omega
  have harena : ∀ n, arenaAt (mergeTwo b).node n = if b.nodeCnt = n then nd else arenaAt b.node n := by
    intro n
    rw [hm, heapInsert_node, Builder.arenaAt_alloc _ _ _ (by omega), c2, nd2]
  have hold : ∀ n, n < b.nodeCnt → arenaAt (mergeTwo b).node n = arenaAt b.node n := fun n hn => by
    rw [harena, if_neg (by omega)]
  refine ⟨⟨by omega, hsmall, by omega, by omega, ?_, ?_, ?_, ?_⟩, hheap, hcnt, hold⟩
  · intro n hn
    rw [hold n (by omega)]
    exact h.leaves n hn
  · intro n hkn hn
    rw [hcnt] at hn
    rcases Nat.lt_succ_iff_lt_or_eq.1 hn with hn' | rfl
    · rw [hold n hn']
      exact h.internals n hkn hn'
    · rw [harena, if_pos rfl]
      exact ⟨rfl, rfl, hll, hrr⟩
  · intro n hkn hn
    rw [hcnt] at hn
    rcases Nat.lt_succ_iff_lt_or_eq.1 hn with hn' | rfl
    · have hi := h.internals n hkn hn'
      rw [hold n hn', nodeAt, nodeAt, hold _ (by omega), hold _ (by omega)]
      exact h.freqs n hkn hn'
    · rw [harena, if_pos rfl]
      simp only [nodeAt, nd, hold _ hll, hold _ hrr, Builder.freq, nd2]
  · have he : (mergeTwo b).entries.Perm (BitVec.ofNat 9 b.nodeCnt :: b2.entries) := by
      rw [hm, ← c2]
      exact (heapInsert_entries _ _ (by simp [n2]; omega)).trans (.of_eq (by simp))
    have hx : (BitVec.ofNat 9 b.nodeCnt).toNat = b.nodeCnt := by rw [BitVec.toNat_ofNat]; omega
    rw [hcnt, childList_succ _ _ _ hst, childList_congr fun n _ hn => hold n hn, harena, if_pos rfl, List.range_succ]
    rw [List.perm_iff_count]
    intro a
    have e1 := (he.map BitVec.toNat).count_eq a
    have e2 := (hperm.map BitVec.toNat).count_eq a
    have e3 := h.cover.count_eq a
    simp only [List.map_cons, List.count_append, List.count_cons, List.count_nil, hx, nd] at e1 e2 e3 ⊢
    omega

/-- The reduction loop ends with one entry, and never changes a node it finds. -/
theorem reduceLoop_spec {k : Nat} (fuel : Nat) : ∀ {b : Builder}, Forest k b → b.heapN ≤ fuel + 1 →
    Forest k (reduceLoop fuel b) ∧ (reduceLoop fuel b).heapN = 1 ∧
    ∀ n, n < b.nodeCnt → arenaAt (reduceLoop fuel b).node n = arenaAt b.node n := by
  induction fuel with
  | zero => intro b h hf; exact ⟨h, Nat.le_antisymm hf h.some, fun _ _ => rfl⟩
  | succ fuel ih =>
    intro b h hf
    rw [reduceLoop]
    split
    · rename_i h2
      obtain ⟨g, g1, g2, g3⟩ := mergeTwo_spec h h2
      obtain ⟨i1, i2, i3⟩ := ih g (by omega)
      exact ⟨i1, i2, fun n hn => (i3 n (by omega)).trans (g3 n hn)⟩
    · exact ⟨h, Nat.le_antisymm (by omega) h.some, fun _ _ => rfl⟩

/-- A forest of one tree: its root is the node allocated last, and every other node has one parent. -/
theorem Forest.finish {k : Nat} {b : Builder} (h : Forest k b) (h1 : b.heapN = 1) :
    (b.slot 0).toNat = b.nodeCnt - 1 ∧ (childList b.node k b.nodeCnt).Perm (List.range (b.nodeCnt - 1)) := by
  have hbal := h.balance
  have hst := h.started
  have he : b.entries = [b.slot 0] := by simp [Builder.entries, h1]
  have hcov := h.cover
  rw [he] at hcov
  obtain ⟨m, hm⟩ : ∃ m, b.nodeCnt = m + 1 := ⟨b.nodeCnt - 1, by omega⟩
  have hroot : (b.slot 0).toNat = m := by
    have hmem : m ∈ [b.slot 0].map BitVec.toNat ++ childList b.node k b.nodeCnt :=
      hcov.symm.subset (List.mem_range.2 (by omega))
    rcases List.mem_append.1 hmem with hmem | hmem
    · simpa [eq_comm] using hmem
    · simp only [childList, List.mem_flatMap, List.mem_range'_1] at hmem
      obtain ⟨n, hn, hmn⟩ := hmem
      have := h.internals n hn.1 (by omega)
      simp only [List.mem_cons, List.not_mem_nil, or_false] at hmn
      omega
  refine ⟨by omega, ?_⟩
  rw [List.perm_iff_count]
  intro a
  have e := hcov.count_eq a
  rw [hm, List.range_succ] at e
  simp only [List.map_cons, List.map_nil, List.count_append, List.count_cons, List.count_nil, hroot] at e
  rw [hm, Nat.add_sub_cancel]
  omega

/-- What BUILD's reduction gives for 256 counters, whatever the builder held before (R133 to R136). -/
theorem buildTree_spec (hist : List Word) (b0 : Builder) (hlen : hist.length = 256) :
    (buildTree hist b0).k = (presentFrom hist 0).length ∧
    TreeShape (buildTree hist b0).b.node (buildTree hist b0).b.nodeCnt (buildTree hist b0).k ∧
    (buildTree hist b0).b.heapN = 0 ∧
    (buildTree hist b0).rootValid = decide (0 < (buildTree hist b0).k) ∧
    (buildTree hist b0).root.toNat = (buildTree hist b0).b.nodeCnt - 1 ∧
    ∀ n, (h : n < (presentFrom hist 0).length) →
      arenaAt (buildTree hist b0).b.node n = leafNode (presentFrom hist 0)[n] := by
  have hk : (presentFrom hist 0).length ≤ 256 := hlen ▸ presentFrom_length_le hist 0
  obtain ⟨c1, -, -, -, c5⟩ := collectLeaves_spec hist 0 { b0 with nodeCnt := 0 } (by simp only; omega)
  simp only [Nat.zero_add] at c1 c5
  obtain ⟨bL, hbL⟩ : ∃ bL, collectLeaves hist 0 { b0 with nodeCnt := 0 } = bL := ⟨_, rfl⟩
  rw [hbL] at c1 c5
  obtain ⟨k, hkdef⟩ : ∃ k, (presentFrom hist 0).length = k := ⟨_, rfl⟩
  obtain ⟨f1, f2, f3, f4⟩ := heapify_spec bL k (by omega)
  obtain ⟨bH, hbH⟩ : ∃ bH, heapify k bL = bH := ⟨_, rfl⟩
  rw [hbH] at f1 f2 f3 f4
  have hord := (presentFrom_sorted hist 0 (by omega)).1
  by_cases h0 : k = 0
  · have hb : buildTree hist b0 = { k := 0, b := bH, root := 0, rootValid := false } := by
      simp only [buildTree, hbL, c1, hkdef, h0, if_true]
      rw [← h0, hbH]
    rw [hb]
    have hc : bH.nodeCnt = 0 := by omega
    refine ⟨by simp only; omega, ⟨by simpa using hc, by simp, by simp, ?_, ?_, ?_, by simp⟩, by simpa using f3.trans h0, by simp,
      by simp [hc], fun n hn => by omega⟩
    · intro n _ hn; simp only [hc] at hn; omega
    · intro n _ hn; simp only [hc] at hn; omega
    · simp [hc, childList]
  · have hF : Forest k bH := by
      refine Forest.of_leaves (by omega) (by omega) (by omega) f3 ?_ f4
      intro n hn
      rw [f1, c5 n (by omega)]
      exact ⟨rfl, rfl, rfl⟩
    obtain ⟨g, g1, g2⟩ := reduceLoop_spec bH.heapN hF (by omega)
    obtain ⟨bR, hbR⟩ : ∃ bR, reduceLoop bH.heapN bH = bR := ⟨_, rfl⟩
    rw [hbR] at g g1 g2
    have hb : buildTree hist b0 =
        { k := k, b := (extractMin bR).2, root := bR.slot 0, rootValid := true } := by
      simp only [buildTree, hbL, c1, hkdef, hbH, h0, if_false, hbR]
      rfl
    have hbal := g.balance
    obtain ⟨r1, r2⟩ := g.finish g1
    have hleaf : ∀ n, (h : n < k) → arenaAt bR.node n = leafNode ((presentFrom hist 0)[n]'(by omega)) := by
      intro n hn
      rw [g2 n (by omega), f1, c5 n (by omega)]
    rw [hb]
    refine ⟨by simpa using hkdef.symm, ⟨?_, ?_, ?_, ?_, ?_, ?_, ?_⟩, by simp [g1], by simp; omega, ?_, ?_⟩
    · simp only [extractMin_nodeCnt]; omega
    · simp only; omega
    · simpa using g.leaves
    · simpa using g.internals
    · simpa using g.freqs
    · simpa using r2
    · intro m n hmn hn
      simp only at hn
      simp only [extractMin_node]
      rw [hleaf m (by omega), hleaf n hn]
      exact List.pairwise_iff_getElem.1 hord m n (by omega) (by omega) hmn
    · simpa using r1
    · intro n hn
      simpa using hleaf n (by omega)

/-- The writes of BUILD leave a tree over the present symbols (10_state R33, R38), with DEC_NODE at its root. -/
theorem treeInv_withTree (s : State) : TreeInv (s.withTree (buildTree s.hist.toList s.builder)) := by
  obtain ⟨h1, h2, h3, h4, h5, h6⟩ := buildTree_spec s.hist.toList s.builder (by simp)
  have hc := h2.count
  have hsm := h2.small
  have hcnt : (BitVec.ofNat 10 (buildTree s.hist.toList s.builder).b.nodeCnt).toNat =
      (buildTree s.hist.toList s.builder).b.nodeCnt := by rw [BitVec.toNat_ofNat]; omega
  refine ⟨by simp [State.withTree, h3], ⟨(buildTree s.hist.toList s.builder).k, ?_, h4, ?_, ?_⟩, .inl rfl⟩
  · show TreeShape _ (BitVec.ofNat 10 _).toNat _
    rw [hcnt]; exact h2
  · show _ = (BitVec.ofNat 10 _).toNat - 1
    rw [hcnt]; exact h5
  · intro _
    show (List.range (buildTree s.hist.toList s.builder).k).map (fun n =>
      ((arenaAt (buildTree s.hist.toList s.builder).b.node n).sym,
        (arenaAt (buildTree s.hist.toList s.builder).b.node n).freq)) = presentLeaves s.hist
    rw [presentLeaves_eq, h1]
    apply List.ext_getElem
    · simp
    · intro n _ hn
      simp only [List.getElem_map, List.getElem_range]
      rw [h6 n hn]
      rfl

end Sys2Proof.Machine
end

