-- ==== Sys2Proof/Laws/Path.lean ====
section
/-! SUPPORT. Paths in a tree: one path reaches at most one leaf, and every node of a full tree is reached from its
root (10_state R33). -/

namespace Sys2Proof.Machine

@[simp] theorem leads_nil (arena : Vector Node 511) (n m : NodeIx) : leads arena n [] m ↔ n = m := Iff.rfl

@[simp] theorem leads_cons (arena : Vector Node 511) (n m : NodeIx) (b : Bool) (p : List Bool) :
    leads arena n (b :: p) m ↔
      (nodeAt arena n).leaf = false ∧ leads arena (childOf (nodeAt arena n) b) p m := Iff.rfl

/-- Paths compose. -/
theorem leads_append (arena : Vector Node 511) (p q : List Bool) : ∀ n m,
    leads arena n (p ++ q) m ↔ ∃ x, leads arena n p x ∧ leads arena x q m := by
  induction p with
  | nil => intro n m; simp
  | cons b p ih => intro n m; simp [ih, and_assoc]

/-- A path ends in one node. -/
theorem leads_unique {arena : Vector Node 511} {p : List Bool} : ∀ {n m m' : NodeIx},
    leads arena n p m → leads arena n p m' → m = m' := by
  induction p with
  | nil => intro n m m' h h'; exact (h.symm.trans h' : m = m')
  | cons b p ih => intro n m m' h h'; exact ih h.2 h'.2

theorem reaches_nil (arena : Vector Node 511) (n : NodeIx) (sym : Byte) :
    reaches arena n [] sym ↔ (nodeAt arena n).leaf = true ∧ (nodeAt arena n).sym = sym := by
  simp [reaches]

theorem reaches_cons (arena : Vector Node 511) (n : NodeIx) (b : Bool) (p : List Bool) (sym : Byte) :
    reaches arena n (b :: p) sym ↔
      (nodeAt arena n).leaf = false ∧ reaches arena (childOf (nodeAt arena n) b) p sym := by
  simp [reaches, and_assoc]

/-- A path that reaches a leaf is no proper prefix of another one, and two that agree name one symbol. -/
theorem reaches_prefix {arena : Vector Node 511} {p q : List Bool} : ∀ {n : NodeIx} {a b : Byte},
    reaches arena n p a → reaches arena n (p ++ q) b → q = [] ∧ a = b := by
  induction p with
  | nil =>
    intro n a b h h'
    rw [reaches_nil] at h
    cases q with
    | nil => rw [List.append_nil, reaches_nil] at h'; exact ⟨rfl, h.2.symm.trans h'.2⟩
    | cons c q => rw [List.nil_append, reaches_cons, h.1] at h'; exact absurd h'.1 (by decide)
  | cons c p ih =>
    intro n a b h h'
    rw [List.cons_append] at h'
    rw [reaches_cons] at h h'
    exact ih h.2 h'.2

/-- The children of an internal node of a tree are allocated and below it. -/
theorem TreeShape.child {arena : Vector Node 511} {cnt k : Nat} (h : TreeShape arena cnt k) {n : NodeIx}
    (hn : n.toNat < cnt) (hl : (nodeAt arena n).leaf = false) (b : Bool) :
    (childOf (nodeAt arena n) b).toNat < n.toNat ∧ k ≤ n.toNat := by
  have hk : k ≤ n.toNat := by
    by_contra hlt
    have := (h.leaves n.toNat (by omega)).1
    rw [← nodeAt, hl] at this
    exact absurd this (by decide)
  have hi := h.internals n.toNat hk hn
  exact ⟨by cases b; exacts [hi.2.2.1, hi.2.2.2], hk⟩

/-- Every allocated node is reached from the root, which is the node allocated last. -/
theorem TreeShape.reachable {arena : Vector Node 511} {cnt k : Nat} (h : TreeShape arena cnt k) {root : NodeIx}
    (hr : root.toNat = cnt - 1) : ∀ (d : Nat) (n : NodeIx), n.toNat + d = cnt - 1 → n.toNat < cnt →
      ∃ p, leads arena root p n := by
  intro d
  induction d using Nat.strong_induction_on with
  | _ d ih =>
    intro n hd hn
    rcases Nat.eq_zero_or_pos d with h0 | hpos
    · refine ⟨[], ?_⟩
      exact BitVec.eq_of_toNat_eq (by omega)
    · have hmem : n.toNat ∈ childList arena k cnt := h.parents.symm.subset (List.mem_range.2 (by omega))
      simp only [childList, List.mem_flatMap, List.mem_range'_1, List.mem_cons, List.not_mem_nil, or_false] at hmem
      obtain ⟨m, hm, hc⟩ := hmem
      have hi := h.internals m hm.1 (by omega)
      have hmx : (BitVec.ofNat 9 m : NodeIx).toNat = m := by
        have := h.count
        have := h.small
        rw [BitVec.toNat_ofNat]; omega
      have hnm : nodeAt arena (BitVec.ofNat 9 m) = arenaAt arena m := by rw [nodeAt, hmx]
      have hlt : n.toNat < m := by rcases hc with hc | hc <;> omega
      obtain ⟨p, hp⟩ := ih (cnt - 1 - m) (by omega) (BitVec.ofNat 9 m) (by omega) (by omega)
      rcases hc with hc | hc
      · refine ⟨p ++ [false], (leads_append _ _ _ _ _).2 ⟨_, hp, ?_⟩⟩
        rw [leads_cons, leads_nil, hnm]
        exact ⟨hi.1, BitVec.eq_of_toNat_eq hc.symm⟩
      · refine ⟨p ++ [true], (leads_append _ _ _ _ _).2 ⟨_, hp, ?_⟩⟩
        rw [leads_cons, leads_nil, hnm]
        exact ⟨hi.1, BitVec.eq_of_toNat_eq hc.symm⟩

/-- Every leaf of a tree is reached from its root. -/
theorem TreeShape.leaf_reached {arena : Vector Node 511} {cnt k : Nat} (h : TreeShape arena cnt k) {root : NodeIx}
    (hr : root.toNat = cnt - 1) {n : Nat} (hn : n < k) : ∃ p, reaches arena root p (arenaAt arena n).sym := by
  have hc := h.count
  have hs := h.small
  have hx : (BitVec.ofNat 9 n : NodeIx).toNat = n := by rw [BitVec.toNat_ofNat]; omega
  obtain ⟨p, hp⟩ := h.reachable hr (cnt - 1 - n) (BitVec.ofNat 9 n) (by omega) (by omega)
  exact ⟨p, _, hp, by rw [nodeAt, hx]; exact (h.leaves n hn).1, by rw [nodeAt, hx]⟩

/-- A path from an allocated node stays among the allocated nodes, and is no longer than the internal nodes below
(42_tree_builder R140). -/
theorem TreeShape.leads_bound {arena : Vector Node 511} {cnt k : Nat} (h : TreeShape arena cnt k) {p : List Bool} :
    ∀ {n m : NodeIx}, n.toNat < cnt → leads arena n p m → m.toNat ≤ n.toNat ∧ p.length ≤ n.toNat + 1 - k := by
  induction p with
  | nil => intro n m hn hp; cases hp; simp
  | cons b p ih =>
    intro n m hn hp
    rw [leads_cons] at hp
    obtain ⟨hc, hk⟩ := h.child hn hp.1 b
    obtain ⟨h1, h2⟩ := ih (by omega) hp.2
    exact ⟨by omega, by simp only [List.length_cons]; omega⟩

/-- No node has two parents, nor one parent twice (10_state R33). -/
theorem TreeShape.parent_unique {arena : Vector Node 511} {cnt k : Nat} (h : TreeShape arena cnt k)
    {x y : NodeIx} (hx : x.toNat < cnt) (hy : y.toNat < cnt) (lx : (nodeAt arena x).leaf = false)
    (ly : (nodeAt arena y).leaf = false) {b c : Bool} (he : childOf (nodeAt arena x) b = childOf (nodeAt arena y) c) :
    x = y ∧ b = c := by
  have hkx := (h.child hx lx true).2
  have hky := (h.child hy ly true).2
  have hnd : (childList arena k cnt).Nodup := h.parents.nodup_iff.2 List.nodup_range
  unfold childList at hnd
  rw [List.nodup_flatMap] at hnd
  obtain ⟨h1, h2⟩ := hnd
  have hmem : ∀ {z : NodeIx} (d : Bool), (childOf (nodeAt arena z) d).toNat ∈
      [(arenaAt arena z.toNat).left.toNat, (arenaAt arena z.toNat).right.toNat] := by
    intro z d
    cases d <;> simp [childOf, nodeAt]
  have hxy : x.toNat = y.toNat := by
    by_contra hne
    have hd : List.Disjoint [(arenaAt arena x.toNat).left.toNat, (arenaAt arena x.toNat).right.toNat]
        [(arenaAt arena y.toNat).left.toNat, (arenaAt arena y.toNat).right.toNat] := by
      have hsymm : Std.Symm (Function.onFun List.Disjoint
          fun n => [(arenaAt arena n).left.toNat, (arenaAt arena n).right.toNat]) := ⟨fun _ _ hs => List.Disjoint.symm hs⟩
      exact h2.forall (List.mem_range'_1.2 ⟨hkx, by omega⟩) (List.mem_range'_1.2 ⟨hky, by omega⟩) hne
    exact hd (hmem b) (by rw [he]; exact hmem c)
  obtain rfl : x = y := BitVec.eq_of_toNat_eq hxy
  refine ⟨rfl, ?_⟩
  have hn := h1 x.toNat (List.mem_range'_1.2 ⟨hkx, by omega⟩)
  simp only [List.nodup_cons, List.mem_singleton] at hn
  have hlr : (nodeAt arena x).left ≠ (nodeAt arena x).right := fun e => hn.1 (by rw [← nodeAt, e])
  cases b <;> cases c <;> first | rfl | exact absurd he hlr | exact absurd he.symm hlr

/-- One path leads from the root to a node (10_state R33). -/
theorem TreeShape.path_unique {arena : Vector Node 511} {cnt k : Nat} (h : TreeShape arena cnt k) {root : NodeIx}
    (hr : root.toNat < cnt) : ∀ (p q : List Bool) (m : NodeIx),
      leads arena root p m → leads arena root q m → p = q := by
  have hstep : ∀ (p : List Bool) (b : Bool) (m : NodeIx), leads arena root (p ++ [b]) m →
      ∃ x, leads arena root p x ∧ x.toNat < cnt ∧ (nodeAt arena x).leaf = false ∧ childOf (nodeAt arena x) b = m := by
    intro p b m hm
    obtain ⟨x, hx, hc⟩ := (leads_append _ _ _ _ _).1 hm
    rw [leads_cons, leads_nil] at hc
    exact ⟨x, hx, Nat.lt_of_le_of_lt (h.leads_bound hr hx).1 hr, hc.1, hc.2⟩
  have hproper : ∀ (p : List Bool) (b : Bool), ¬ leads arena root (p ++ [b]) root := by
    intro p b hm
    obtain ⟨x, hx, hxc, hl, hc⟩ := hstep p b root hm
    have h1 := (h.child hxc hl b).1
    rw [hc] at h1
    have h2 := (h.leads_bound hr hx).1
    omega
  intro p
  induction p using List.reverseRecOn with
  | nil =>
    intro q m hp hq
    cases hp
    rcases List.eq_nil_or_concat q with rfl | ⟨q, c, rfl⟩
    · rfl
    · exact absurd (by simpa using hq) (hproper q c)
  | append_singleton p b ih =>
    intro q m hp hq
    rcases List.eq_nil_or_concat q with rfl | ⟨q, c, rfl⟩
    · cases hq
      exact absurd hp (hproper p b)
    · obtain ⟨x, hx, hxc, hxl, hxm⟩ := hstep p b m hp
      obtain ⟨y, hy, hyc, hyl, hym⟩ := hstep q c m (by simpa using hq)
      obtain ⟨rfl, rfl⟩ := h.parent_unique hxc hyc hxl hyl (hxm.trans hym.symm)
      rw [ih q x hx hy, List.concat_eq_append]

end Sys2Proof.Machine
end

