-- ==== Sys2Proof/Laws/Codes.lean ====
section
/-! SUPPORT. What GENC's walk records: for every symbol the path to its leaf, and nothing for a symbol without one
(43_code_table R160 to R162). -/

namespace Sys2Proof.Machine

/-- `CODE_LEN[sym]` of a table. -/
def CodeTable.lenOf (t : CodeTable) (sym : Byte) : BitVec 8 := t.len[sym.toNat]'sym.isLt

/-- `CODE_BITS[sym]` of a table. -/
def CodeTable.bitsOf (t : CodeTable) (sym : Byte) : CodeString := t.bits[sym.toNat]'sym.isLt

theorem CodeTable.lenOf_record (t : CodeTable) (sym x : Byte) (p : List Bool) :
    (t.record sym p).lenOf x = if sym = x then BitVec.ofNat 8 p.length else t.lenOf x := by
  simp only [CodeTable.lenOf, CodeTable.record, Vector.getElem_set, BitVec.toNat_inj]

theorem CodeTable.bitsOf_record (t : CodeTable) (sym x : Byte) (p : List Bool) :
    (t.record sym p).bitsOf x = if sym = x then putBits (t.bitsOf x) 0 p else t.bitsOf x := by
  simp only [CodeTable.bitsOf, CodeTable.record, Vector.getElem_set, BitVec.toNat_inj]
  split
  · rename_i h; subst h; rfl
  · rfl

/-- The table `t` holds the string `p` for `sym`. -/
def CodeTable.holds (t : CodeTable) (sym : Byte) (p : List Bool) : Prop :=
  t.lenOf sym = BitVec.ofNat 8 p.length ∧ ∃ c, t.bitsOf sym = putBits c 0 p

/-- What the walk below node `n` does to the entry of `sym`: records a path to its leaf, or leaves it alone if there is
none. -/
theorem walkCodes_spec {arena : Vector Node 511} {cnt k : Nat} (h : TreeShape arena cnt k) (sym : Byte) (fuel : Nat) :
    ∀ (n : NodeIx) (p : List Bool) (t : CodeTable), n.toNat < cnt → n.toNat + 1 - k < fuel →
    (∃ q, reaches arena n q sym ∧ (walkCodes arena fuel n p t).holds sym (p ++ q)) ∨
    ((walkCodes arena fuel n p t).lenOf sym = t.lenOf sym ∧ (walkCodes arena fuel n p t).bitsOf sym = t.bitsOf sym ∧
      ∀ q, ¬ reaches arena n q sym) := by
  induction fuel with
  | zero => intro n p t _ hf; omega
  | succ fuel ih =>
    intro n p t hn hf
    rw [walkCodes]
    by_cases hl : (nodeAt arena n).leaf = true
    · simp only [hl, if_true]
      by_cases hs : (nodeAt arena n).sym = sym
      · left
        refine ⟨[], (reaches_nil _ _ _).2 ⟨hl, hs⟩, ?_, t.bitsOf sym, ?_⟩
        · rw [CodeTable.lenOf_record, if_pos hs, List.append_nil]
        · rw [CodeTable.bitsOf_record, if_pos hs, List.append_nil]
      · right
        refine ⟨by rw [CodeTable.lenOf_record, if_neg hs], by rw [CodeTable.bitsOf_record, if_neg hs], ?_⟩
        intro q hq
        cases q with
        | nil => exact hs ((reaches_nil _ _ _).1 hq).2
        | cons b q => rw [reaches_cons, hl] at hq; exact absurd hq.1 (by decide)
    · have hl : (nodeAt arena n).leaf = false := by simpa using hl
      simp only [hl, Bool.false_eq_true, if_false]
      obtain ⟨c1, hk⟩ := h.child hn hl true
      obtain ⟨c0, -⟩ := h.child hn hl false
      simp only [childOf, Bool.false_eq_true, if_false, if_true] at c0 c1
      rcases ih (nodeAt arena n).right (p ++ [true]) (walkCodes arena fuel (nodeAt arena n).left (p ++ [false]) t)
        (by omega) (by omega) with ⟨q, hq, hh⟩ | ⟨h1, h2, h3⟩
      · left
        exact ⟨true :: q, (reaches_cons _ _ _ _ _).2 ⟨hl, hq⟩, by simpa using hh⟩
      · rcases ih (nodeAt arena n).left (p ++ [false]) t (by omega) (by omega) with ⟨q, hq, hh⟩ | ⟨g1, g2, g3⟩
        · left
          refine ⟨false :: q, (reaches_cons _ _ _ _ _).2 ⟨hl, hq⟩, ?_⟩
          rw [CodeTable.holds, h1, h2]
          simpa [CodeTable.holds] using hh
        · right
          refine ⟨h1.trans g1, h2.trans g2, ?_⟩
          intro q hq
          cases q with
          | nil => rw [reaches_nil, hl] at hq; exact absurd hq.1 (by decide)
          | cons b q =>
            rw [reaches_cons] at hq
            cases b
            · exact g3 q hq.2
            · exact h3 q hq.2

/-- The state with a code table in place of its own. -/
def State.withCodes (t : CodeTable) (s : State) : State := { s with codeLen := t.len, codeBits := t.bits }

/-- The code a table holds for `sym` is the string it was given, if that has at most 255 bits. -/
theorem codeAt_of_holds {s : State} {t : CodeTable} {sym : Byte} {p : List Bool} (h : t.holds sym p)
    (hp : p.length ≤ 255) : (s.withCodes t).codeAt sym = p ∧ ((s.withCodes t).lenAt sym).toNat = p.length := by
  obtain ⟨h1, c, h2⟩ := h
  have hl : (t.lenOf sym).toNat = p.length := by rw [h1, BitVec.toNat_ofNat]; omega
  refine ⟨?_, hl⟩
  have : (s.withCodes t).codeAt sym = (List.range (t.lenOf sym).toNat).map (t.bitsOf sym).getLsbD := rfl
  rw [this, hl, h2]
  exact map_putBits c p hp

/-- The table GENC derives (43_code_table R160, R161): every symbol with a leaf gets the code the tree gives it, of
length at most `max(1, k - 1)` (R162), every other symbol length 0. -/
theorem genCodes_spec {s : State} {k : Nat} (h : TreeShape s.node s.nodeCnt.toNat k)
    (hv : s.rootValid = decide (0 < k)) (hr : s.root.toNat = s.nodeCnt.toNat - 1) (sym : Byte) :
    (∃ p, 0 < k ∧ s.treeCode sym p ∧ p ≠ [] ∧ p.length ≤ max 1 (k - 1) ∧
      (s.withCodes s.genCodes).codeAt sym = p ∧ ((s.withCodes s.genCodes).lenAt sym).toNat = p.length) ∨
    ((s.withCodes s.genCodes).lenAt sym = 0 ∧ (s.withCodes s.genCodes).codeAt sym = [] ∧
      (0 < k → ∀ p, ¬ s.treeCode sym p)) := by
  have hc := h.count
  have hsm := h.small
  let t0 : CodeTable := { len := Vector.replicate 256 0, bits := s.codeBits }
  have ht0 : t0.lenOf sym = 0 := by simp [t0, CodeTable.lenOf]
  have hnone : ∀ t : CodeTable, t.lenOf sym = 0 → (s.withCodes t).lenAt sym = 0 ∧ (s.withCodes t).codeAt sym = [] := by
    intro t ht
    refine ⟨ht, ?_⟩
    have : (s.withCodes t).codeAt sym = (List.range (t.lenOf sym).toNat).map (t.bitsOf sym).getLsbD := rfl
    rw [this, ht]; rfl
  by_cases hk : 0 < k
  · have hroot : s.root.toNat < s.nodeCnt.toNat := by omega
    by_cases hl : (s.nodeOf s.root).leaf = true
    · have hg : s.genCodes = t0.record (s.nodeOf s.root).sym [false] := by
        simp [State.genCodes, hv, hk, hl, t0]
      rw [hg]
      by_cases hs : (s.nodeOf s.root).sym = sym
      · left
        have hh : (t0.record (s.nodeOf s.root).sym [false]).holds sym [false] :=
          ⟨by rw [CodeTable.lenOf_record, if_pos hs], t0.bitsOf sym, by rw [CodeTable.bitsOf_record, if_pos hs]⟩
        obtain ⟨e1, e2⟩ := codeAt_of_holds (s := s) hh (by simp)
        exact ⟨[false], hk, by simp [State.treeCode, hl, hs], by simp, by simp, e1, e2⟩
      · right
        obtain ⟨e1, e2⟩ := hnone (t0.record (s.nodeOf s.root).sym [false])
          (by rw [CodeTable.lenOf_record, if_neg hs, ht0])
        exact ⟨e1, e2, fun _ p hp => by simp [State.treeCode, hl, hs] at hp⟩
    · have hl : (s.nodeOf s.root).leaf = false := by simpa using hl
      have hg : s.genCodes = walkCodes s.node 256 s.root [] t0 := by
        simp [State.genCodes, hv, hk, hl, t0]
      rw [hg]
      have htc : ∀ p, s.treeCode sym p ↔ reaches s.node s.root p sym := by
        intro p; simp [State.treeCode, hl]
      rcases walkCodes_spec h sym 256 s.root [] t0 hroot (by omega) with ⟨q, hq, hh⟩ | ⟨h1, -, h3⟩
      · left
        rw [List.nil_append] at hh
        have hlen : q.length ≤ k - 1 := by
          obtain ⟨m, hm, -⟩ := hq
          have := (h.leads_bound hroot hm).2
          omega
        have hne : q ≠ [] := by
          rintro rfl
          rw [reaches_nil] at hq
          rw [State.nodeOf, hq.1] at hl
          exact absurd hl (by decide)
        obtain ⟨e1, e2⟩ := codeAt_of_holds (s := s) hh (by omega)
        exact ⟨q, hk, (htc q).2 hq, hne, by omega, e1, e2⟩
      · right
        obtain ⟨e1, e2⟩ := hnone _ (h1.trans ht0)
        exact ⟨e1, e2, fun _ p hp => h3 p ((htc p).1 hp)⟩
  · right
    have hg : s.genCodes = t0 := by simp [State.genCodes, hv, hk, t0]
    rw [hg]
    obtain ⟨e1, e2⟩ := hnone t0 ht0
    exact ⟨e1, e2, fun h => absurd h hk⟩

end Sys2Proof.Machine
end

