-- ==== Sys2Proof/Laws/Encoding.lean ====
section
/-! SUPPORT. The fields of an encoded command. -/

namespace Sys2Proof

/-- A bit of a word put together from an opcode and an operand area (30_encoding R90). -/
theorem getLsbD_word (op : BitVec 8) (area : BitVec 24) (i : Nat) :
    (op ++ area : Word).getLsbD i = if i < 24 then area.getLsbD i else op.getLsbD (i - 24) := by
  have h := BitVec.getLsbD_append (x := op) (y := area) (i := i)
  by_cases hi : i < 24 <;> simpa [hi] using h

/-- The opcode field of `op ++ area` (30_encoding R90). -/
theorem opField_append (op : BitVec 8) (area : BitVec 24) : opField (op ++ area) = op := by
  apply BitVec.eq_of_getLsbD_eq
  intro i hi
  rw [opField, BitVec.getLsbD_extractLsb', getLsbD_word]
  simp [hi]

/-- The opcode field of an encoded command is the OP column of 30_encoding R95. -/
theorem opField_encode (i : Instr) : opField (encode i) = i.opcode := opField_append _ _

/-- A field below bit 24 is a field of the operand area. -/
theorem extract_append_low (op : BitVec 8) (area : BitVec 24) (lo len : Nat) (h : lo + len ≤ 24) :
    (op ++ area : Word).extractLsb' lo len = area.extractLsb' lo len := by
  apply BitVec.eq_of_getLsbD_eq
  intro i hi
  rw [BitVec.getLsbD_extractLsb', BitVec.getLsbD_extractLsb', getLsbD_word, if_pos (by omega)]

/-- A decoded command has the opcode of the word (30_encoding R95: the row is selected by `word[31:24]`). -/
theorem opcode_of_decode {w : Word} {i : Instr} (h : decode w = .ok i) : i.opcode = opField w := by
  unfold decode at h
  split at h <;> first | (cases h; simp_all [Instr.opcode]) | cases h

end Sys2Proof
end

