-- ==== Sys2Proof/Laws/State.lean ====
section
/-! SUPPORT. One lemma per field and named update of State, each true by rfl, so that no later proof unfolds a record
update. -/

namespace Sys2Proof.Machine

/-! `State.setIrq` changes IRQ alone. -/

@[simp] theorem State.setIrq_cfg (s : State) (m : BitVec 3) : (s.setIrq m).cfg = s.cfg := rfl
@[simp] theorem State.setIrq_agenda (s : State) (m : BitVec 3) : (s.setIrq m).agenda = s.agenda := rfl
@[simp] theorem State.setIrq_rdata (s : State) (m : BitVec 3) : (s.setIrq m).rdata = s.rdata := rfl
@[simp] theorem State.setIrq_ctrl (s : State) (m : BitVec 3) : (s.setIrq m).ctrl = s.ctrl := rfl
@[simp] theorem State.setIrq_irq (s : State) (m : BitVec 3) : (s.setIrq m).irq = s.irq ||| m := rfl
@[simp] theorem State.setIrq_arg (s : State) (m : BitVec 3) : (s.setIrq m).arg = s.arg := rfl
@[simp] theorem State.setIrq_result (s : State) (m : BitVec 3) : (s.setIrq m).result = s.result := rfl
@[simp] theorem State.setIrq_err (s : State) (m : BitVec 3) : (s.setIrq m).err = s.err := rfl
@[simp] theorem State.setIrq_errCmd (s : State) (m : BitVec 3) : (s.setIrq m).errCmd = s.errCmd := rfl
@[simp] theorem State.setIrq_lenLo (s : State) (m : BitVec 3) : (s.setIrq m).lenLo = s.lenLo := rfl
@[simp] theorem State.setIrq_lenHi (s : State) (m : BitVec 3) : (s.setIrq m).lenHi = s.lenHi := rfl
@[simp] theorem State.setIrq_dcnt (s : State) (m : BitVec 3) : (s.setIrq m).dcnt = s.dcnt := rfl
@[simp] theorem State.setIrq_otot (s : State) (m : BitVec 3) : (s.setIrq m).otot = s.otot := rfl
@[simp] theorem State.setIrq_busy (s : State) (m : BitVec 3) : (s.setIrq m).busy = s.busy := rfl
@[simp] theorem State.setIrq_pendCmd (s : State) (m : BitVec 3) : (s.setIrq m).pendCmd = s.pendCmd := rfl
@[simp] theorem State.setIrq_pendArg (s : State) (m : BitVec 3) : (s.setIrq m).pendArg = s.pendArg := rfl
@[simp] theorem State.setIrq_hist (s : State) (m : BitVec 3) : (s.setIrq m).hist = s.hist := rfl
@[simp] theorem State.setIrq_node (s : State) (m : BitVec 3) : (s.setIrq m).node = s.node := rfl
@[simp] theorem State.setIrq_nodeCnt (s : State) (m : BitVec 3) : (s.setIrq m).nodeCnt = s.nodeCnt := rfl
@[simp] theorem State.setIrq_root (s : State) (m : BitVec 3) : (s.setIrq m).root = s.root := rfl
@[simp] theorem State.setIrq_rootValid (s : State) (m : BitVec 3) : (s.setIrq m).rootValid = s.rootValid := rfl
@[simp] theorem State.setIrq_treeValid (s : State) (m : BitVec 3) : (s.setIrq m).treeValid = s.treeValid := rfl
@[simp] theorem State.setIrq_heap (s : State) (m : BitVec 3) : (s.setIrq m).heap = s.heap := rfl
@[simp] theorem State.setIrq_heapN (s : State) (m : BitVec 3) : (s.setIrq m).heapN = s.heapN := rfl
@[simp] theorem State.setIrq_codesValid (s : State) (m : BitVec 3) : (s.setIrq m).codesValid = s.codesValid := rfl
@[simp] theorem State.setIrq_codeLen (s : State) (m : BitVec 3) : (s.setIrq m).codeLen = s.codeLen := rfl
@[simp] theorem State.setIrq_codeBits (s : State) (m : BitVec 3) : (s.setIrq m).codeBits = s.codeBits := rfl
@[simp] theorem State.setIrq_acc (s : State) (m : BitVec 3) : (s.setIrq m).acc = s.acc := rfl
@[simp] theorem State.setIrq_accN (s : State) (m : BitVec 3) : (s.setIrq m).accN = s.accN := rfl
@[simp] theorem State.setIrq_ibuf (s : State) (m : BitVec 3) : (s.setIrq m).ibuf = s.ibuf := rfl
@[simp] theorem State.setIrq_ibits (s : State) (m : BitVec 3) : (s.setIrq m).ibits = s.ibits := rfl
@[simp] theorem State.setIrq_decNode (s : State) (m : BitVec 3) : (s.setIrq m).decNode = s.decNode := rfl
@[simp] theorem State.setIrq_needIn (s : State) (m : BitVec 3) : (s.setIrq m).needIn = s.needIn := rfl
@[simp] theorem State.setIrq_inf (s : State) (m : BitVec 3) : (s.setIrq m).inf = s.inf := rfl
@[simp] theorem State.setIrq_outf (s : State) (m : BitVec 3) : (s.setIrq m).outf = s.outf := rfl

/-! A successful completion (30_encoding R94). -/

@[simp] theorem State.succeed_cfg (s : State) (r : Word) : (s.succeed r).cfg = s.cfg := rfl
@[simp] theorem State.succeed_agenda (s : State) (r : Word) : (s.succeed r).agenda = s.agenda := rfl
@[simp] theorem State.succeed_rdata (s : State) (r : Word) : (s.succeed r).rdata = s.rdata := rfl
@[simp] theorem State.succeed_ctrl (s : State) (r : Word) : (s.succeed r).ctrl = s.ctrl := rfl
@[simp] theorem State.succeed_irq (s : State) (r : Word) : (s.succeed r).irq = s.irq ||| irqCmdDone := rfl
@[simp] theorem State.succeed_arg (s : State) (r : Word) : (s.succeed r).arg = s.arg := rfl
@[simp] theorem State.succeed_result (s : State) (r : Word) : (s.succeed r).result = r := rfl
@[simp] theorem State.succeed_err (s : State) (r : Word) : (s.succeed r).err = 0 := rfl
@[simp] theorem State.succeed_errCmd (s : State) (r : Word) : (s.succeed r).errCmd = s.errCmd := rfl
@[simp] theorem State.succeed_lenLo (s : State) (r : Word) : (s.succeed r).lenLo = s.lenLo := rfl
@[simp] theorem State.succeed_lenHi (s : State) (r : Word) : (s.succeed r).lenHi = s.lenHi := rfl
@[simp] theorem State.succeed_dcnt (s : State) (r : Word) : (s.succeed r).dcnt = s.dcnt := rfl
@[simp] theorem State.succeed_otot (s : State) (r : Word) : (s.succeed r).otot = s.otot := rfl
@[simp] theorem State.succeed_busy (s : State) (r : Word) : (s.succeed r).busy = false := rfl
@[simp] theorem State.succeed_pendCmd (s : State) (r : Word) : (s.succeed r).pendCmd = s.pendCmd := rfl
@[simp] theorem State.succeed_pendArg (s : State) (r : Word) : (s.succeed r).pendArg = s.pendArg := rfl
@[simp] theorem State.succeed_hist (s : State) (r : Word) : (s.succeed r).hist = s.hist := rfl
@[simp] theorem State.succeed_node (s : State) (r : Word) : (s.succeed r).node = s.node := rfl
@[simp] theorem State.succeed_nodeCnt (s : State) (r : Word) : (s.succeed r).nodeCnt = s.nodeCnt := rfl
@[simp] theorem State.succeed_root (s : State) (r : Word) : (s.succeed r).root = s.root := rfl
@[simp] theorem State.succeed_rootValid (s : State) (r : Word) : (s.succeed r).rootValid = s.rootValid := rfl
@[simp] theorem State.succeed_treeValid (s : State) (r : Word) : (s.succeed r).treeValid = s.treeValid := rfl
@[simp] theorem State.succeed_heap (s : State) (r : Word) : (s.succeed r).heap = s.heap := rfl
@[simp] theorem State.succeed_heapN (s : State) (r : Word) : (s.succeed r).heapN = s.heapN := rfl
@[simp] theorem State.succeed_codesValid (s : State) (r : Word) : (s.succeed r).codesValid = s.codesValid := rfl
@[simp] theorem State.succeed_codeLen (s : State) (r : Word) : (s.succeed r).codeLen = s.codeLen := rfl
@[simp] theorem State.succeed_codeBits (s : State) (r : Word) : (s.succeed r).codeBits = s.codeBits := rfl
@[simp] theorem State.succeed_acc (s : State) (r : Word) : (s.succeed r).acc = s.acc := rfl
@[simp] theorem State.succeed_accN (s : State) (r : Word) : (s.succeed r).accN = s.accN := rfl
@[simp] theorem State.succeed_ibuf (s : State) (r : Word) : (s.succeed r).ibuf = s.ibuf := rfl
@[simp] theorem State.succeed_ibits (s : State) (r : Word) : (s.succeed r).ibits = s.ibits := rfl
@[simp] theorem State.succeed_decNode (s : State) (r : Word) : (s.succeed r).decNode = s.decNode := rfl
@[simp] theorem State.succeed_needIn (s : State) (r : Word) : (s.succeed r).needIn = s.needIn := rfl
@[simp] theorem State.succeed_inf (s : State) (r : Word) : (s.succeed r).inf = s.inf := rfl
@[simp] theorem State.succeed_outf (s : State) (r : Word) : (s.succeed r).outf = s.outf := rfl

/-! A completion with an error (30_encoding R94). -/

@[simp] theorem State.fail_cfg (s : State) (e : CmdError) : (s.fail e).cfg = s.cfg := rfl
@[simp] theorem State.fail_agenda (s : State) (e : CmdError) : (s.fail e).agenda = s.agenda := rfl
@[simp] theorem State.fail_rdata (s : State) (e : CmdError) : (s.fail e).rdata = s.rdata := rfl
@[simp] theorem State.fail_ctrl (s : State) (e : CmdError) : (s.fail e).ctrl = s.ctrl := rfl
@[simp] theorem State.fail_irq (s : State) (e : CmdError) : (s.fail e).irq = s.irq ||| irqCmdDone := rfl
@[simp] theorem State.fail_arg (s : State) (e : CmdError) : (s.fail e).arg = s.arg := rfl
@[simp] theorem State.fail_result (s : State) (e : CmdError) : (s.fail e).result = 0 := rfl
@[simp] theorem State.fail_err (s : State) (e : CmdError) : (s.fail e).err = e.code := rfl
@[simp] theorem State.fail_errCmd (s : State) (e : CmdError) : (s.fail e).errCmd = s.pendCmd := rfl
@[simp] theorem State.fail_lenLo (s : State) (e : CmdError) : (s.fail e).lenLo = s.lenLo := rfl
@[simp] theorem State.fail_lenHi (s : State) (e : CmdError) : (s.fail e).lenHi = s.lenHi := rfl
@[simp] theorem State.fail_dcnt (s : State) (e : CmdError) : (s.fail e).dcnt = s.dcnt := rfl
@[simp] theorem State.fail_otot (s : State) (e : CmdError) : (s.fail e).otot = s.otot := rfl
@[simp] theorem State.fail_busy (s : State) (e : CmdError) : (s.fail e).busy = false := rfl
@[simp] theorem State.fail_pendCmd (s : State) (e : CmdError) : (s.fail e).pendCmd = s.pendCmd := rfl
@[simp] theorem State.fail_pendArg (s : State) (e : CmdError) : (s.fail e).pendArg = s.pendArg := rfl
@[simp] theorem State.fail_hist (s : State) (e : CmdError) : (s.fail e).hist = s.hist := rfl
@[simp] theorem State.fail_node (s : State) (e : CmdError) : (s.fail e).node = s.node := rfl
@[simp] theorem State.fail_nodeCnt (s : State) (e : CmdError) : (s.fail e).nodeCnt = s.nodeCnt := rfl
@[simp] theorem State.fail_root (s : State) (e : CmdError) : (s.fail e).root = s.root := rfl
@[simp] theorem State.fail_rootValid (s : State) (e : CmdError) : (s.fail e).rootValid = s.rootValid := rfl
@[simp] theorem State.fail_treeValid (s : State) (e : CmdError) : (s.fail e).treeValid = s.treeValid := rfl
@[simp] theorem State.fail_heap (s : State) (e : CmdError) : (s.fail e).heap = s.heap := rfl
@[simp] theorem State.fail_heapN (s : State) (e : CmdError) : (s.fail e).heapN = s.heapN := rfl
@[simp] theorem State.fail_codesValid (s : State) (e : CmdError) : (s.fail e).codesValid = s.codesValid := rfl
@[simp] theorem State.fail_codeLen (s : State) (e : CmdError) : (s.fail e).codeLen = s.codeLen := rfl
@[simp] theorem State.fail_codeBits (s : State) (e : CmdError) : (s.fail e).codeBits = s.codeBits := rfl
@[simp] theorem State.fail_acc (s : State) (e : CmdError) : (s.fail e).acc = s.acc := rfl
@[simp] theorem State.fail_accN (s : State) (e : CmdError) : (s.fail e).accN = s.accN := rfl
@[simp] theorem State.fail_ibuf (s : State) (e : CmdError) : (s.fail e).ibuf = s.ibuf := rfl
@[simp] theorem State.fail_ibits (s : State) (e : CmdError) : (s.fail e).ibits = s.ibits := rfl
@[simp] theorem State.fail_decNode (s : State) (e : CmdError) : (s.fail e).decNode = s.decNode := rfl
@[simp] theorem State.fail_needIn (s : State) (e : CmdError) : (s.fail e).needIn = s.needIn := rfl
@[simp] theorem State.fail_inf (s : State) (e : CmdError) : (s.fail e).inf = s.inf := rfl
@[simp] theorem State.fail_outf (s : State) (e : CmdError) : (s.fail e).outf = s.outf := rfl

/-! A byte pushed into OUTF. -/

@[simp] theorem State.pushOut_cfg (s : State) (b : Byte) : (s.pushOut b).cfg = s.cfg := rfl
@[simp] theorem State.pushOut_agenda (s : State) (b : Byte) : (s.pushOut b).agenda = s.agenda := rfl
@[simp] theorem State.pushOut_rdata (s : State) (b : Byte) : (s.pushOut b).rdata = s.rdata := rfl
@[simp] theorem State.pushOut_ctrl (s : State) (b : Byte) : (s.pushOut b).ctrl = s.ctrl := rfl
@[simp] theorem State.pushOut_irq (s : State) (b : Byte) : (s.pushOut b).irq = s.irq := rfl
@[simp] theorem State.pushOut_arg (s : State) (b : Byte) : (s.pushOut b).arg = s.arg := rfl
@[simp] theorem State.pushOut_result (s : State) (b : Byte) : (s.pushOut b).result = s.result := rfl
@[simp] theorem State.pushOut_err (s : State) (b : Byte) : (s.pushOut b).err = s.err := rfl
@[simp] theorem State.pushOut_errCmd (s : State) (b : Byte) : (s.pushOut b).errCmd = s.errCmd := rfl
@[simp] theorem State.pushOut_lenLo (s : State) (b : Byte) : (s.pushOut b).lenLo = s.lenLo := rfl
@[simp] theorem State.pushOut_lenHi (s : State) (b : Byte) : (s.pushOut b).lenHi = s.lenHi := rfl
@[simp] theorem State.pushOut_dcnt (s : State) (b : Byte) : (s.pushOut b).dcnt = s.dcnt := rfl
@[simp] theorem State.pushOut_otot (s : State) (b : Byte) : (s.pushOut b).otot = s.otot + 1 := rfl
@[simp] theorem State.pushOut_busy (s : State) (b : Byte) : (s.pushOut b).busy = s.busy := rfl
@[simp] theorem State.pushOut_pendCmd (s : State) (b : Byte) : (s.pushOut b).pendCmd = s.pendCmd := rfl
@[simp] theorem State.pushOut_pendArg (s : State) (b : Byte) : (s.pushOut b).pendArg = s.pendArg := rfl
@[simp] theorem State.pushOut_hist (s : State) (b : Byte) : (s.pushOut b).hist = s.hist := rfl
@[simp] theorem State.pushOut_node (s : State) (b : Byte) : (s.pushOut b).node = s.node := rfl
@[simp] theorem State.pushOut_nodeCnt (s : State) (b : Byte) : (s.pushOut b).nodeCnt = s.nodeCnt := rfl
@[simp] theorem State.pushOut_root (s : State) (b : Byte) : (s.pushOut b).root = s.root := rfl
@[simp] theorem State.pushOut_rootValid (s : State) (b : Byte) : (s.pushOut b).rootValid = s.rootValid := rfl
@[simp] theorem State.pushOut_treeValid (s : State) (b : Byte) : (s.pushOut b).treeValid = s.treeValid := rfl
@[simp] theorem State.pushOut_heap (s : State) (b : Byte) : (s.pushOut b).heap = s.heap := rfl
@[simp] theorem State.pushOut_heapN (s : State) (b : Byte) : (s.pushOut b).heapN = s.heapN := rfl
@[simp] theorem State.pushOut_codesValid (s : State) (b : Byte) : (s.pushOut b).codesValid = s.codesValid := rfl
@[simp] theorem State.pushOut_codeLen (s : State) (b : Byte) : (s.pushOut b).codeLen = s.codeLen := rfl
@[simp] theorem State.pushOut_codeBits (s : State) (b : Byte) : (s.pushOut b).codeBits = s.codeBits := rfl
@[simp] theorem State.pushOut_acc (s : State) (b : Byte) : (s.pushOut b).acc = s.acc := rfl
@[simp] theorem State.pushOut_accN (s : State) (b : Byte) : (s.pushOut b).accN = s.accN := rfl
@[simp] theorem State.pushOut_ibuf (s : State) (b : Byte) : (s.pushOut b).ibuf = s.ibuf := rfl
@[simp] theorem State.pushOut_ibits (s : State) (b : Byte) : (s.pushOut b).ibits = s.ibits := rfl
@[simp] theorem State.pushOut_decNode (s : State) (b : Byte) : (s.pushOut b).decNode = s.decNode := rfl
@[simp] theorem State.pushOut_needIn (s : State) (b : Byte) : (s.pushOut b).needIn = s.needIn := rfl
@[simp] theorem State.pushOut_inf (s : State) (b : Byte) : (s.pushOut b).inf = s.inf := rfl
@[simp] theorem State.pushOut_outf (s : State) (b : Byte) : (s.pushOut b).outf = s.outf ++ [b] := rfl

/-! Both valid bits dropped. -/

@[simp] theorem State.dropValid_cfg (s : State) : s.dropValid.cfg = s.cfg := rfl
@[simp] theorem State.dropValid_agenda (s : State) : s.dropValid.agenda = s.agenda := rfl
@[simp] theorem State.dropValid_rdata (s : State) : s.dropValid.rdata = s.rdata := rfl
@[simp] theorem State.dropValid_ctrl (s : State) : s.dropValid.ctrl = s.ctrl := rfl
@[simp] theorem State.dropValid_irq (s : State) : s.dropValid.irq = s.irq := rfl
@[simp] theorem State.dropValid_arg (s : State) : s.dropValid.arg = s.arg := rfl
@[simp] theorem State.dropValid_result (s : State) : s.dropValid.result = s.result := rfl
@[simp] theorem State.dropValid_err (s : State) : s.dropValid.err = s.err := rfl
@[simp] theorem State.dropValid_errCmd (s : State) : s.dropValid.errCmd = s.errCmd := rfl
@[simp] theorem State.dropValid_lenLo (s : State) : s.dropValid.lenLo = s.lenLo := rfl
@[simp] theorem State.dropValid_lenHi (s : State) : s.dropValid.lenHi = s.lenHi := rfl
@[simp] theorem State.dropValid_dcnt (s : State) : s.dropValid.dcnt = s.dcnt := rfl
@[simp] theorem State.dropValid_otot (s : State) : s.dropValid.otot = s.otot := rfl
@[simp] theorem State.dropValid_busy (s : State) : s.dropValid.busy = s.busy := rfl
@[simp] theorem State.dropValid_pendCmd (s : State) : s.dropValid.pendCmd = s.pendCmd := rfl
@[simp] theorem State.dropValid_pendArg (s : State) : s.dropValid.pendArg = s.pendArg := rfl
@[simp] theorem State.dropValid_hist (s : State) : s.dropValid.hist = s.hist := rfl
@[simp] theorem State.dropValid_node (s : State) : s.dropValid.node = s.node := rfl
@[simp] theorem State.dropValid_nodeCnt (s : State) : s.dropValid.nodeCnt = s.nodeCnt := rfl
@[simp] theorem State.dropValid_root (s : State) : s.dropValid.root = s.root := rfl
@[simp] theorem State.dropValid_rootValid (s : State) : s.dropValid.rootValid = s.rootValid := rfl
@[simp] theorem State.dropValid_treeValid (s : State) : s.dropValid.treeValid = false := rfl
@[simp] theorem State.dropValid_heap (s : State) : s.dropValid.heap = s.heap := rfl
@[simp] theorem State.dropValid_heapN (s : State) : s.dropValid.heapN = s.heapN := rfl
@[simp] theorem State.dropValid_codesValid (s : State) : s.dropValid.codesValid = false := rfl
@[simp] theorem State.dropValid_codeLen (s : State) : s.dropValid.codeLen = s.codeLen := rfl
@[simp] theorem State.dropValid_codeBits (s : State) : s.dropValid.codeBits = s.codeBits := rfl
@[simp] theorem State.dropValid_acc (s : State) : s.dropValid.acc = s.acc := rfl
@[simp] theorem State.dropValid_accN (s : State) : s.dropValid.accN = s.accN := rfl
@[simp] theorem State.dropValid_ibuf (s : State) : s.dropValid.ibuf = s.ibuf := rfl
@[simp] theorem State.dropValid_ibits (s : State) : s.dropValid.ibits = s.ibits := rfl
@[simp] theorem State.dropValid_decNode (s : State) : s.dropValid.decNode = s.decNode := rfl
@[simp] theorem State.dropValid_needIn (s : State) : s.dropValid.needIn = s.needIn := rfl
@[simp] theorem State.dropValid_inf (s : State) : s.dropValid.inf = s.inf := rfl
@[simp] theorem State.dropValid_outf (s : State) : s.dropValid.outf = s.outf := rfl

/-! One counter written. -/

@[simp] theorem State.setHist_cfg (s : State) (sym : Byte) (c : Word) : (s.setHist sym c).cfg = s.cfg := rfl
@[simp] theorem State.setHist_agenda (s : State) (sym : Byte) (c : Word) : (s.setHist sym c).agenda = s.agenda := rfl
@[simp] theorem State.setHist_rdata (s : State) (sym : Byte) (c : Word) : (s.setHist sym c).rdata = s.rdata := rfl
@[simp] theorem State.setHist_ctrl (s : State) (sym : Byte) (c : Word) : (s.setHist sym c).ctrl = s.ctrl := rfl
@[simp] theorem State.setHist_irq (s : State) (sym : Byte) (c : Word) : (s.setHist sym c).irq = s.irq := rfl
@[simp] theorem State.setHist_arg (s : State) (sym : Byte) (c : Word) : (s.setHist sym c).arg = s.arg := rfl
@[simp] theorem State.setHist_result (s : State) (sym : Byte) (c : Word) : (s.setHist sym c).result = s.result := rfl
@[simp] theorem State.setHist_err (s : State) (sym : Byte) (c : Word) : (s.setHist sym c).err = s.err := rfl
@[simp] theorem State.setHist_errCmd (s : State) (sym : Byte) (c : Word) : (s.setHist sym c).errCmd = s.errCmd := rfl
@[simp] theorem State.setHist_lenLo (s : State) (sym : Byte) (c : Word) : (s.setHist sym c).lenLo = s.lenLo := rfl
@[simp] theorem State.setHist_lenHi (s : State) (sym : Byte) (c : Word) : (s.setHist sym c).lenHi = s.lenHi := rfl
@[simp] theorem State.setHist_dcnt (s : State) (sym : Byte) (c : Word) : (s.setHist sym c).dcnt = s.dcnt := rfl
@[simp] theorem State.setHist_otot (s : State) (sym : Byte) (c : Word) : (s.setHist sym c).otot = s.otot := rfl
@[simp] theorem State.setHist_busy (s : State) (sym : Byte) (c : Word) : (s.setHist sym c).busy = s.busy := rfl
@[simp] theorem State.setHist_pendCmd (s : State) (sym : Byte) (c : Word) : (s.setHist sym c).pendCmd = s.pendCmd := rfl
@[simp] theorem State.setHist_pendArg (s : State) (sym : Byte) (c : Word) : (s.setHist sym c).pendArg = s.pendArg := rfl
@[simp] theorem State.setHist_hist (s : State) (sym : Byte) (c : Word) : (s.setHist sym c).hist = s.hist.set sym.toNat c sym.isLt := rfl
@[simp] theorem State.setHist_node (s : State) (sym : Byte) (c : Word) : (s.setHist sym c).node = s.node := rfl
@[simp] theorem State.setHist_nodeCnt (s : State) (sym : Byte) (c : Word) : (s.setHist sym c).nodeCnt = s.nodeCnt := rfl
@[simp] theorem State.setHist_root (s : State) (sym : Byte) (c : Word) : (s.setHist sym c).root = s.root := rfl
@[simp] theorem State.setHist_rootValid (s : State) (sym : Byte) (c : Word) : (s.setHist sym c).rootValid = s.rootValid := rfl
@[simp] theorem State.setHist_treeValid (s : State) (sym : Byte) (c : Word) : (s.setHist sym c).treeValid = s.treeValid := rfl
@[simp] theorem State.setHist_heap (s : State) (sym : Byte) (c : Word) : (s.setHist sym c).heap = s.heap := rfl
@[simp] theorem State.setHist_heapN (s : State) (sym : Byte) (c : Word) : (s.setHist sym c).heapN = s.heapN := rfl
@[simp] theorem State.setHist_codesValid (s : State) (sym : Byte) (c : Word) : (s.setHist sym c).codesValid = s.codesValid := rfl
@[simp] theorem State.setHist_codeLen (s : State) (sym : Byte) (c : Word) : (s.setHist sym c).codeLen = s.codeLen := rfl
@[simp] theorem State.setHist_codeBits (s : State) (sym : Byte) (c : Word) : (s.setHist sym c).codeBits = s.codeBits := rfl
@[simp] theorem State.setHist_acc (s : State) (sym : Byte) (c : Word) : (s.setHist sym c).acc = s.acc := rfl
@[simp] theorem State.setHist_accN (s : State) (sym : Byte) (c : Word) : (s.setHist sym c).accN = s.accN := rfl
@[simp] theorem State.setHist_ibuf (s : State) (sym : Byte) (c : Word) : (s.setHist sym c).ibuf = s.ibuf := rfl
@[simp] theorem State.setHist_ibits (s : State) (sym : Byte) (c : Word) : (s.setHist sym c).ibits = s.ibits := rfl
@[simp] theorem State.setHist_decNode (s : State) (sym : Byte) (c : Word) : (s.setHist sym c).decNode = s.decNode := rfl
@[simp] theorem State.setHist_needIn (s : State) (sym : Byte) (c : Word) : (s.setHist sym c).needIn = s.needIn := rfl
@[simp] theorem State.setHist_inf (s : State) (sym : Byte) (c : Word) : (s.setHist sym c).inf = s.inf := rfl
@[simp] theorem State.setHist_outf (s : State) (sym : Byte) (c : Word) : (s.setHist sym c).outf = s.outf := rfl

/-! The stream state cleared (40_control R112). -/

@[simp] theorem State.clearStream_cfg (s : State) : s.clearStream.cfg = s.cfg := rfl
@[simp] theorem State.clearStream_agenda (s : State) : s.clearStream.agenda = s.agenda := rfl
@[simp] theorem State.clearStream_rdata (s : State) : s.clearStream.rdata = s.rdata := rfl
@[simp] theorem State.clearStream_ctrl (s : State) : s.clearStream.ctrl = s.ctrl := rfl
@[simp] theorem State.clearStream_irq (s : State) : s.clearStream.irq = s.irq := rfl
@[simp] theorem State.clearStream_arg (s : State) : s.clearStream.arg = s.arg := rfl
@[simp] theorem State.clearStream_result (s : State) : s.clearStream.result = s.result := rfl
@[simp] theorem State.clearStream_err (s : State) : s.clearStream.err = s.err := rfl
@[simp] theorem State.clearStream_errCmd (s : State) : s.clearStream.errCmd = s.errCmd := rfl
@[simp] theorem State.clearStream_lenLo (s : State) : s.clearStream.lenLo = s.lenLo := rfl
@[simp] theorem State.clearStream_lenHi (s : State) : s.clearStream.lenHi = s.lenHi := rfl
@[simp] theorem State.clearStream_dcnt (s : State) : s.clearStream.dcnt = 0 := rfl
@[simp] theorem State.clearStream_otot (s : State) : s.clearStream.otot = 0 := rfl
@[simp] theorem State.clearStream_busy (s : State) : s.clearStream.busy = s.busy := rfl
@[simp] theorem State.clearStream_pendCmd (s : State) : s.clearStream.pendCmd = s.pendCmd := rfl
@[simp] theorem State.clearStream_pendArg (s : State) : s.clearStream.pendArg = s.pendArg := rfl
@[simp] theorem State.clearStream_hist (s : State) : s.clearStream.hist = s.hist := rfl
@[simp] theorem State.clearStream_node (s : State) : s.clearStream.node = s.node := rfl
@[simp] theorem State.clearStream_nodeCnt (s : State) : s.clearStream.nodeCnt = s.nodeCnt := rfl
@[simp] theorem State.clearStream_root (s : State) : s.clearStream.root = s.root := rfl
@[simp] theorem State.clearStream_rootValid (s : State) : s.clearStream.rootValid = s.rootValid := rfl
@[simp] theorem State.clearStream_treeValid (s : State) : s.clearStream.treeValid = s.treeValid := rfl
@[simp] theorem State.clearStream_heap (s : State) : s.clearStream.heap = s.heap := rfl
@[simp] theorem State.clearStream_heapN (s : State) : s.clearStream.heapN = s.heapN := rfl
@[simp] theorem State.clearStream_codesValid (s : State) : s.clearStream.codesValid = s.codesValid := rfl
@[simp] theorem State.clearStream_codeLen (s : State) : s.clearStream.codeLen = s.codeLen := rfl
@[simp] theorem State.clearStream_codeBits (s : State) : s.clearStream.codeBits = s.codeBits := rfl
@[simp] theorem State.clearStream_acc (s : State) : s.clearStream.acc = 0 := rfl
@[simp] theorem State.clearStream_accN (s : State) : s.clearStream.accN = 0 := rfl
@[simp] theorem State.clearStream_ibuf (s : State) : s.clearStream.ibuf = 0 := rfl
@[simp] theorem State.clearStream_ibits (s : State) : s.clearStream.ibits = 0 := rfl
@[simp] theorem State.clearStream_decNode (s : State) : s.clearStream.decNode = if s.rootValid then s.root else 0 := rfl
@[simp] theorem State.clearStream_needIn (s : State) : s.clearStream.needIn = false := rfl
@[simp] theorem State.clearStream_inf (s : State) : s.clearStream.inf = [] := rfl
@[simp] theorem State.clearStream_outf (s : State) : s.clearStream.outf = [] := rfl

/-! A tree written back (42_tree_builder R136). -/

@[simp] theorem State.withTree_cfg (s : State) (t : BuiltTree) : (s.withTree t).cfg = s.cfg := rfl
@[simp] theorem State.withTree_agenda (s : State) (t : BuiltTree) : (s.withTree t).agenda = s.agenda := rfl
@[simp] theorem State.withTree_rdata (s : State) (t : BuiltTree) : (s.withTree t).rdata = s.rdata := rfl
@[simp] theorem State.withTree_ctrl (s : State) (t : BuiltTree) : (s.withTree t).ctrl = s.ctrl := rfl
@[simp] theorem State.withTree_irq (s : State) (t : BuiltTree) : (s.withTree t).irq = s.irq := rfl
@[simp] theorem State.withTree_arg (s : State) (t : BuiltTree) : (s.withTree t).arg = s.arg := rfl
@[simp] theorem State.withTree_result (s : State) (t : BuiltTree) : (s.withTree t).result = s.result := rfl
@[simp] theorem State.withTree_err (s : State) (t : BuiltTree) : (s.withTree t).err = s.err := rfl
@[simp] theorem State.withTree_errCmd (s : State) (t : BuiltTree) : (s.withTree t).errCmd = s.errCmd := rfl
@[simp] theorem State.withTree_lenLo (s : State) (t : BuiltTree) : (s.withTree t).lenLo = s.lenLo := rfl
@[simp] theorem State.withTree_lenHi (s : State) (t : BuiltTree) : (s.withTree t).lenHi = s.lenHi := rfl
@[simp] theorem State.withTree_dcnt (s : State) (t : BuiltTree) : (s.withTree t).dcnt = s.dcnt := rfl
@[simp] theorem State.withTree_otot (s : State) (t : BuiltTree) : (s.withTree t).otot = s.otot := rfl
@[simp] theorem State.withTree_busy (s : State) (t : BuiltTree) : (s.withTree t).busy = s.busy := rfl
@[simp] theorem State.withTree_pendCmd (s : State) (t : BuiltTree) : (s.withTree t).pendCmd = s.pendCmd := rfl
@[simp] theorem State.withTree_pendArg (s : State) (t : BuiltTree) : (s.withTree t).pendArg = s.pendArg := rfl
@[simp] theorem State.withTree_hist (s : State) (t : BuiltTree) : (s.withTree t).hist = s.hist := rfl
@[simp] theorem State.withTree_node (s : State) (t : BuiltTree) : (s.withTree t).node = t.b.node := rfl
@[simp] theorem State.withTree_nodeCnt (s : State) (t : BuiltTree) : (s.withTree t).nodeCnt = BitVec.ofNat 10 t.b.nodeCnt := rfl
@[simp] theorem State.withTree_root (s : State) (t : BuiltTree) : (s.withTree t).root = t.root := rfl
@[simp] theorem State.withTree_rootValid (s : State) (t : BuiltTree) : (s.withTree t).rootValid = t.rootValid := rfl
@[simp] theorem State.withTree_treeValid (s : State) (t : BuiltTree) : (s.withTree t).treeValid = true := rfl
@[simp] theorem State.withTree_heap (s : State) (t : BuiltTree) : (s.withTree t).heap = t.b.heap := rfl
@[simp] theorem State.withTree_heapN (s : State) (t : BuiltTree) : (s.withTree t).heapN = BitVec.ofNat 9 t.b.heapN := rfl
@[simp] theorem State.withTree_codesValid (s : State) (t : BuiltTree) : (s.withTree t).codesValid = false := rfl
@[simp] theorem State.withTree_codeLen (s : State) (t : BuiltTree) : (s.withTree t).codeLen = s.codeLen := rfl
@[simp] theorem State.withTree_codeBits (s : State) (t : BuiltTree) : (s.withTree t).codeBits = s.codeBits := rfl
@[simp] theorem State.withTree_acc (s : State) (t : BuiltTree) : (s.withTree t).acc = s.acc := rfl
@[simp] theorem State.withTree_accN (s : State) (t : BuiltTree) : (s.withTree t).accN = s.accN := rfl
@[simp] theorem State.withTree_ibuf (s : State) (t : BuiltTree) : (s.withTree t).ibuf = s.ibuf := rfl
@[simp] theorem State.withTree_ibits (s : State) (t : BuiltTree) : (s.withTree t).ibits = s.ibits := rfl
@[simp] theorem State.withTree_decNode (s : State) (t : BuiltTree) : (s.withTree t).decNode = t.root := rfl
@[simp] theorem State.withTree_needIn (s : State) (t : BuiltTree) : (s.withTree t).needIn = s.needIn := rfl
@[simp] theorem State.withTree_inf (s : State) (t : BuiltTree) : (s.withTree t).inf = s.inf := rfl
@[simp] theorem State.withTree_outf (s : State) (t : BuiltTree) : (s.withTree t).outf = s.outf := rfl

/-! Input consumed (45_unpacker R200). -/

@[simp] theorem State.withWalk_cfg (s : State) (w : WalkEnd) : (s.withWalk w).cfg = s.cfg := rfl
@[simp] theorem State.withWalk_agenda (s : State) (w : WalkEnd) : (s.withWalk w).agenda = s.agenda := rfl
@[simp] theorem State.withWalk_rdata (s : State) (w : WalkEnd) : (s.withWalk w).rdata = s.rdata := rfl
@[simp] theorem State.withWalk_ctrl (s : State) (w : WalkEnd) : (s.withWalk w).ctrl = s.ctrl := rfl
@[simp] theorem State.withWalk_irq (s : State) (w : WalkEnd) : (s.withWalk w).irq = s.irq := rfl
@[simp] theorem State.withWalk_arg (s : State) (w : WalkEnd) : (s.withWalk w).arg = s.arg := rfl
@[simp] theorem State.withWalk_result (s : State) (w : WalkEnd) : (s.withWalk w).result = s.result := rfl
@[simp] theorem State.withWalk_err (s : State) (w : WalkEnd) : (s.withWalk w).err = s.err := rfl
@[simp] theorem State.withWalk_errCmd (s : State) (w : WalkEnd) : (s.withWalk w).errCmd = s.errCmd := rfl
@[simp] theorem State.withWalk_lenLo (s : State) (w : WalkEnd) : (s.withWalk w).lenLo = s.lenLo := rfl
@[simp] theorem State.withWalk_lenHi (s : State) (w : WalkEnd) : (s.withWalk w).lenHi = s.lenHi := rfl
@[simp] theorem State.withWalk_dcnt (s : State) (w : WalkEnd) : (s.withWalk w).dcnt = s.dcnt := rfl
@[simp] theorem State.withWalk_otot (s : State) (w : WalkEnd) : (s.withWalk w).otot = s.otot := rfl
@[simp] theorem State.withWalk_busy (s : State) (w : WalkEnd) : (s.withWalk w).busy = s.busy := rfl
@[simp] theorem State.withWalk_pendCmd (s : State) (w : WalkEnd) : (s.withWalk w).pendCmd = s.pendCmd := rfl
@[simp] theorem State.withWalk_pendArg (s : State) (w : WalkEnd) : (s.withWalk w).pendArg = s.pendArg := rfl
@[simp] theorem State.withWalk_hist (s : State) (w : WalkEnd) : (s.withWalk w).hist = s.hist := rfl
@[simp] theorem State.withWalk_node (s : State) (w : WalkEnd) : (s.withWalk w).node = s.node := rfl
@[simp] theorem State.withWalk_nodeCnt (s : State) (w : WalkEnd) : (s.withWalk w).nodeCnt = s.nodeCnt := rfl
@[simp] theorem State.withWalk_root (s : State) (w : WalkEnd) : (s.withWalk w).root = s.root := rfl
@[simp] theorem State.withWalk_rootValid (s : State) (w : WalkEnd) : (s.withWalk w).rootValid = s.rootValid := rfl
@[simp] theorem State.withWalk_treeValid (s : State) (w : WalkEnd) : (s.withWalk w).treeValid = s.treeValid := rfl
@[simp] theorem State.withWalk_heap (s : State) (w : WalkEnd) : (s.withWalk w).heap = s.heap := rfl
@[simp] theorem State.withWalk_heapN (s : State) (w : WalkEnd) : (s.withWalk w).heapN = s.heapN := rfl
@[simp] theorem State.withWalk_codesValid (s : State) (w : WalkEnd) : (s.withWalk w).codesValid = s.codesValid := rfl
@[simp] theorem State.withWalk_codeLen (s : State) (w : WalkEnd) : (s.withWalk w).codeLen = s.codeLen := rfl
@[simp] theorem State.withWalk_codeBits (s : State) (w : WalkEnd) : (s.withWalk w).codeBits = s.codeBits := rfl
@[simp] theorem State.withWalk_acc (s : State) (w : WalkEnd) : (s.withWalk w).acc = s.acc := rfl
@[simp] theorem State.withWalk_accN (s : State) (w : WalkEnd) : (s.withWalk w).accN = s.accN := rfl
@[simp] theorem State.withWalk_ibuf (s : State) (w : WalkEnd) : (s.withWalk w).ibuf = w.ibuf := rfl
@[simp] theorem State.withWalk_ibits (s : State) (w : WalkEnd) : (s.withWalk w).ibits = BitVec.ofNat 4 w.ibits := rfl
@[simp] theorem State.withWalk_decNode (s : State) (w : WalkEnd) : (s.withWalk w).decNode = w.node := rfl
@[simp] theorem State.withWalk_needIn (s : State) (w : WalkEnd) : (s.withWalk w).needIn = s.needIn := rfl
@[simp] theorem State.withWalk_inf (s : State) (w : WalkEnd) : (s.withWalk w).inf = w.inf := rfl
@[simp] theorem State.withWalk_outf (s : State) (w : WalkEnd) : (s.withWalk w).outf = s.outf := rfl

/-! A symbol emitted (45_unpacker R200). -/

@[simp] theorem State.emit_cfg (s : State) (sym : Byte) : (s.emit sym).cfg = s.cfg := rfl
@[simp] theorem State.emit_agenda (s : State) (sym : Byte) : (s.emit sym).agenda = s.agenda := rfl
@[simp] theorem State.emit_rdata (s : State) (sym : Byte) : (s.emit sym).rdata = s.rdata := rfl
@[simp] theorem State.emit_ctrl (s : State) (sym : Byte) : (s.emit sym).ctrl = s.ctrl := rfl
@[simp] theorem State.emit_irq (s : State) (sym : Byte) : (s.emit sym).irq = s.irq := rfl
@[simp] theorem State.emit_arg (s : State) (sym : Byte) : (s.emit sym).arg = s.arg := rfl
@[simp] theorem State.emit_result (s : State) (sym : Byte) : (s.emit sym).result = s.result := rfl
@[simp] theorem State.emit_err (s : State) (sym : Byte) : (s.emit sym).err = s.err := rfl
@[simp] theorem State.emit_errCmd (s : State) (sym : Byte) : (s.emit sym).errCmd = s.errCmd := rfl
@[simp] theorem State.emit_lenLo (s : State) (sym : Byte) : (s.emit sym).lenLo = s.lenLo := rfl
@[simp] theorem State.emit_lenHi (s : State) (sym : Byte) : (s.emit sym).lenHi = s.lenHi := rfl
@[simp] theorem State.emit_dcnt (s : State) (sym : Byte) : (s.emit sym).dcnt = s.dcnt + 1 := rfl
@[simp] theorem State.emit_otot (s : State) (sym : Byte) : (s.emit sym).otot = s.otot + 1 := rfl
@[simp] theorem State.emit_busy (s : State) (sym : Byte) : (s.emit sym).busy = s.busy := rfl
@[simp] theorem State.emit_pendCmd (s : State) (sym : Byte) : (s.emit sym).pendCmd = s.pendCmd := rfl
@[simp] theorem State.emit_pendArg (s : State) (sym : Byte) : (s.emit sym).pendArg = s.pendArg := rfl
@[simp] theorem State.emit_hist (s : State) (sym : Byte) : (s.emit sym).hist = s.hist := rfl
@[simp] theorem State.emit_node (s : State) (sym : Byte) : (s.emit sym).node = s.node := rfl
@[simp] theorem State.emit_nodeCnt (s : State) (sym : Byte) : (s.emit sym).nodeCnt = s.nodeCnt := rfl
@[simp] theorem State.emit_root (s : State) (sym : Byte) : (s.emit sym).root = s.root := rfl
@[simp] theorem State.emit_rootValid (s : State) (sym : Byte) : (s.emit sym).rootValid = s.rootValid := rfl
@[simp] theorem State.emit_treeValid (s : State) (sym : Byte) : (s.emit sym).treeValid = s.treeValid := rfl
@[simp] theorem State.emit_heap (s : State) (sym : Byte) : (s.emit sym).heap = s.heap := rfl
@[simp] theorem State.emit_heapN (s : State) (sym : Byte) : (s.emit sym).heapN = s.heapN := rfl
@[simp] theorem State.emit_codesValid (s : State) (sym : Byte) : (s.emit sym).codesValid = s.codesValid := rfl
@[simp] theorem State.emit_codeLen (s : State) (sym : Byte) : (s.emit sym).codeLen = s.codeLen := rfl
@[simp] theorem State.emit_codeBits (s : State) (sym : Byte) : (s.emit sym).codeBits = s.codeBits := rfl
@[simp] theorem State.emit_acc (s : State) (sym : Byte) : (s.emit sym).acc = s.acc := rfl
@[simp] theorem State.emit_accN (s : State) (sym : Byte) : (s.emit sym).accN = s.accN := rfl
@[simp] theorem State.emit_ibuf (s : State) (sym : Byte) : (s.emit sym).ibuf = s.ibuf := rfl
@[simp] theorem State.emit_ibits (s : State) (sym : Byte) : (s.emit sym).ibits = s.ibits := rfl
@[simp] theorem State.emit_decNode (s : State) (sym : Byte) : (s.emit sym).decNode = s.root := rfl
@[simp] theorem State.emit_needIn (s : State) (sym : Byte) : (s.emit sym).needIn = s.needIn := rfl
@[simp] theorem State.emit_inf (s : State) (sym : Byte) : (s.emit sym).inf = s.inf := rfl
@[simp] theorem State.emit_outf (s : State) (sym : Byte) : (s.emit sym).outf = s.outf ++ [sym] := rfl

end Sys2Proof.Machine
end

