-- ==== Sys2Proof/Laws/Pack.lean ====
section
/-! SUPPORT. What the packer's AppendBit does to the bit stream (44_packer R180, R183). -/

namespace Sys2Proof.Machine

/-- The unfilled bits of ACC are 0 (10_state R42). -/
def State.AccLow (s : State) : Prop := ∀ i, i < 8 - s.accN.toNat → s.acc.getLsbD i = false

/-- What appending `bits` to the stream leaves (44_packer R183): the bytes pushed followed by the filled bits of ACC
are the filled bits there were followed by `bits`; nothing but ACC, ACC_N, OUTF and OTOT changes. -/
structure Appended (s t : State) (bits : List Bool) (bytes : List Byte) : Prop where
  frame : t = { s with acc := t.acc, accN := t.accN, outf := t.outf, otot := t.otot }
  low : t.AccLow
  outf : t.outf = s.outf ++ bytes
  otot : t.otot = s.otot + BitVec.ofNat 64 bytes.length
  stream : bytes.flatMap byteBits ++ t.accBits = s.accBits ++ bits

theorem accBits_length (s : State) : s.accBits.length = s.accN.toNat := by simp [State.accBits]

theorem flatMap_byteBits_length (bytes : List Byte) : (bytes.flatMap byteBits).length = 8 * bytes.length := by
  induction bytes with
  | nil => rfl
  | cons b bs ih => simp [ih]; omega

/-- The number of bytes and the fill that an append leaves (44_packer R181). -/
theorem Appended.counts {s t : State} {bits : List Bool} {bytes : List Byte} (h : Appended s t bits bytes) :
    bytes.length = (s.accN.toNat + bits.length) / 8 ∧ t.accN.toNat = (s.accN.toNat + bits.length) % 8 := by
  have e := congrArg List.length h.stream
  rw [List.length_append, List.length_append, flatMap_byteBits_length, accBits_length, accBits_length] at e
  have := t.accN.isLt
  omega

/-- AppendBit (44_packer R180). -/
theorem appendBit_spec (s : State) (b : Bool) (h : s.AccLow) : ∃ bytes, Appended s (appendBit s b) [b] bytes := by
  have hlt := s.accN.isLt
  have hbit : ∀ j, (setBitTo s.acc (7 - s.accN.toNat) b).getLsbD j =
      if 7 - s.accN.toNat = j ∧ j < 8 then b else s.acc.getLsbD j := fun j => getLsbD_setBitTo _ _ _ _
  by_cases h8 : s.accN.toNat + 1 = 8
  · have hn : s.accN.toNat = 7 := by omega
    have he : appendBit s b = ({ s with acc := 0, accN := 0 } : State).pushOut (setBitTo s.acc (7 - s.accN.toNat) b) := by
      simp [appendBit, hn]
    refine ⟨[setBitTo s.acc (7 - s.accN.toNat) b], ?_⟩
    rw [he]
    refine ⟨rfl, fun i _ => by simp, rfl, rfl, ?_⟩
    have hz : (({ s with acc := 0, accN := 0 } : State).pushOut (setBitTo s.acc (7 - s.accN.toNat) b)).accBits = [] := by
      simp [State.accBits]
    rw [hz, List.append_nil, List.flatMap_cons, List.flatMap_nil, List.append_nil]
    apply List.ext_getElem
    · simp [accBits_length, hn]
    · intro i h1 h2
      simp only [byteBits_length] at h1
      have hi : (byteBits (setBitTo s.acc (7 - s.accN.toNat) b))[i]'(by simpa using h1) =
          (setBitTo s.acc (7 - s.accN.toNat) b).getLsbD (7 - i) := by simp [byteBits]
      rw [hi, hbit, List.getElem_append]
      by_cases h7 : i < 7
      · have hd : i < s.accBits.length := by rw [accBits_length]; omega
        rw [if_neg (by omega), dif_pos hd]
        simp [State.accBits]
      · have hd : ¬ i < s.accBits.length := by rw [accBits_length]; omega
        rw [if_pos (by omega), dif_neg hd]
        simp
  · have he : appendBit s b =
        { s with acc := setBitTo s.acc (7 - s.accN.toNat) b, accN := s.accN + 1 } := by
      simp [appendBit, h8]
    have hs : (s.accN + 1).toNat = s.accN.toNat + 1 := by
      rw [BitVec.toNat_add]; simp; omega
    refine ⟨[], ?_⟩
    rw [he]
    refine ⟨rfl, ?_, by simp, by simp, ?_⟩
    · intro i hi
      simp only [hs] at hi
      show (setBitTo s.acc (7 - s.accN.toNat) b).getLsbD i = false
      rw [hbit, if_neg (by omega)]
      exact h i (by omega)
    · rw [List.flatMap_nil, List.nil_append]
      apply List.ext_getElem
      · simp only [State.accBits, List.length_append, List.length_map, List.length_range, hs, List.length_singleton]
      · intro i h1 h2
        simp only [State.accBits, List.length_map, List.length_range, hs] at h1
        have hi : (State.accBits { s with acc := setBitTo s.acc (7 - s.accN.toNat) b, accN := s.accN + 1 })[i]'(by
            simpa only [State.accBits, List.length_map, List.length_range, hs] using h1) = (setBitTo s.acc (7 - s.accN.toNat) b).getLsbD (7 - i) := by
          simp [State.accBits]
        rw [hi, hbit, List.getElem_append]
        by_cases hlast : i < s.accN.toNat
        · have hd : i < s.accBits.length := by rw [accBits_length]; omega
          rw [if_neg (by omega), dif_pos hd]
          simp [State.accBits]
        · have hd : ¬ i < s.accBits.length := by rw [accBits_length]; omega
          rw [if_pos (by omega), dif_neg hd]
          simp

/-- Appends compose. -/
theorem Appended.trans {s t u : State} {p q : List Bool} {xs ys : List Byte} (h : Appended s t p xs)
    (g : Appended t u q ys) : Appended s u (p ++ q) (xs ++ ys) where
  frame := by rw [g.frame, h.frame]
  low := g.low
  outf := by rw [g.outf, h.outf, List.append_assoc]
  otot := by
    rw [g.otot, h.otot, List.length_append, BitVec.ofNat_add, BitVec.add_assoc]
  stream := by
    rw [List.flatMap_append, List.append_assoc, g.stream, ← List.append_assoc, h.stream, List.append_assoc]

/-- `for i: AppendBit(c[i])` (44_packer R180, R183). -/
theorem appendBits_spec (bits : List Bool) : ∀ s : State, s.AccLow →
    ∃ bytes, Appended s (appendBits s bits) bits bytes := by
  induction bits with
  | nil => intro s h; exact ⟨[], rfl, h, by simp [appendBits], by simp [appendBits], by simp [appendBits]⟩
  | cons b bits ih =>
    intro s h
    obtain ⟨xs, hx⟩ := appendBit_spec s b h
    obtain ⟨ys, hy⟩ := ih _ hx.low
    exact ⟨xs ++ ys, by simpa [appendBits] using hx.trans hy⟩

/-- What AppendBit leaves alone, whatever ACC holds (44_packer R180): only ACC, ACC_N, OUTF and OTOT change, OUTF grows
at its tail, and OTOT counts the bytes. -/
theorem appendBits_frame (bits : List Bool) : ∀ s : State, ∃ acc accN bytes,
    appendBits s bits =
      { s with acc := acc, accN := accN, outf := s.outf ++ bytes, otot := s.otot + BitVec.ofNat 64 bytes.length } := by
  induction bits with
  | nil => intro s; exact ⟨s.acc, s.accN, [], by simp [appendBits]⟩
  | cons b bs ih =>
    intro s
    have hone : ∃ acc accN bytes, appendBit s b =
        { s with acc := acc, accN := accN, outf := s.outf ++ bytes, otot := s.otot + BitVec.ofNat 64 bytes.length } := by
      unfold appendBit
      dsimp only
      split
      · exact ⟨_, _, [_], rfl⟩
      · exact ⟨setBitTo s.acc (7 - s.accN.toNat) b, s.accN + 1, [], by simp⟩
    obtain ⟨acc, accN, xs, hx⟩ := hone
    obtain ⟨acc', accN', ys, hy⟩ := ih (appendBit s b)
    refine ⟨acc', accN', xs ++ ys, ?_⟩
    have : appendBits s (b :: bs) = appendBits (appendBit s b) bs := rfl
    rw [this, hy, hx, List.length_append, BitVec.ofNat_add]
    simp [BitVec.add_assoc]

end Sys2Proof.Machine
end

