-- ==== Sys2Proof/Laws/Unpack.lean ====
section
/-! SUPPORT. What DEC's loop does to the bit stream (45_unpacker R200 to R202). -/

namespace Sys2Proof.Machine

/-- The low `k` bits of a byte, the highest of them first: the order of consumption (10_state R43). -/
def bufBits (b : Byte) : Nat → List Bool
  | 0 => []
  | k + 1 => b.getLsbD k :: bufBits b k

theorem bufBits_eq (b : Byte) (k : Nat) : bufBits b k = (List.range k).map fun i => b.getLsbD (k - 1 - i) := by
  induction k with
  | zero => rfl
  | succ k ih =>
    rw [bufBits, ih, List.range_succ_eq_map, List.map_cons, List.map_map]
    congr 1
    apply List.map_congr_left
    intro i _
    simp only [Function.comp_apply]
    congr 1
    omega

theorem byteBits_eq (b : Byte) : byteBits b = bufBits b 8 := by
  rw [bufBits_eq]; rfl

/-- The unread bits are those of IBUF, then those of INF. -/
theorem inBits_eq (s : State) : s.inBits = bufBits s.ibuf s.ibits.toNat ++ s.inf.flatMap byteBits := by
  rw [State.inBits, bufBits_eq]

/-- The loop over one byte, from an internal node: it stops at the first leaf, or runs out of bits at an internal node.
-/
theorem walkByte_spec (arena : Vector Node 511) (ibuf : Byte) (ibits : Nat) : ∀ n : NodeIx,
    (nodeAt arena n).leaf = false →
    ∃ p m left, walkByte arena ibuf ibits n =
        (if (nodeAt arena m).leaf then some (nodeAt arena m).sym else none, m, left) ∧
      left ≤ ibits ∧ leads arena n p m ∧ bufBits ibuf ibits = p ++ bufBits ibuf left ∧
      ((nodeAt arena m).leaf = false → left = 0) := by
  induction ibits with
  | zero => intro n hl; exact ⟨[], n, 0, by simp [walkByte, hl], Nat.le_refl 0, rfl, rfl, fun _ => rfl⟩
  | succ k ih =>
    intro n hl
    rw [walkByte]
    simp only [hl, Bool.false_eq_true, if_false]
    by_cases hc : (nodeAt arena (childOf (nodeAt arena n) (ibuf.getLsbD k))).leaf = true
    · refine ⟨[ibuf.getLsbD k], _, k, by simp only [hc, if_true], by omega, ⟨hl, rfl⟩, rfl, ?_⟩
      intro h; rw [hc] at h; exact absurd h (by decide)
    · have hc' : (nodeAt arena (childOf (nodeAt arena n) (ibuf.getLsbD k))).leaf = false := by simpa using hc
      obtain ⟨p, m, left, h1, h2, h3, h4, h5⟩ := ih _ hc'
      refine ⟨ibuf.getLsbD k :: p, m, left, ?_, by omega, ⟨hl, h3⟩, ?_, h5⟩
      · simpa only [hc', Bool.false_eq_true, if_false] using h1
      · rw [bufBits, h4, List.cons_append]

/-- The unread bits that DEC's loop leaves. -/
def WalkEnd.bits (w : WalkEnd) : List Bool := bufBits w.ibuf w.ibits ++ w.inf.flatMap byteBits

/-- DEC's loop from an internal node (45_unpacker R200, R201): it consumes a path `p` of the unread bits. Either `p`
ends in a leaf, whose symbol it reports, or all bits are consumed and it stops at an internal node. -/
theorem walkInput_spec (arena : Vector Node 511) (inf : List Byte) : ∀ (ibuf : Byte) (ibits : Nat) (n : NodeIx),
    (nodeAt arena n).leaf = false →
    ∃ p, leads arena n p (walkInput arena inf ibuf ibits n).node ∧
      bufBits ibuf ibits ++ inf.flatMap byteBits = p ++ (walkInput arena inf ibuf ibits n).bits ∧
      (walkInput arena inf ibuf ibits n).ibits ≤ max ibits 8 ∧
      (walkInput arena inf ibuf ibits n).inf.length ≤ inf.length ∧
      (((walkInput arena inf ibuf ibits n).sym =
          some (nodeAt arena (walkInput arena inf ibuf ibits n).node).sym ∧
        (nodeAt arena (walkInput arena inf ibuf ibits n).node).leaf = true) ∨
       ((walkInput arena inf ibuf ibits n).sym = none ∧
        (nodeAt arena (walkInput arena inf ibuf ibits n).node).leaf = false ∧
        (walkInput arena inf ibuf ibits n).ibits = 0 ∧ (walkInput arena inf ibuf ibits n).inf = [])) := by
  induction inf with
  | nil =>
    intro ibuf ibits n hl
    obtain ⟨p, m, left, h1, h2, h3, h4, h5⟩ := walkByte_spec arena ibuf ibits n hl
    have he : walkInput arena [] ibuf ibits n =
        { sym := if (nodeAt arena m).leaf then some (nodeAt arena m).sym else none, node := m, ibuf := ibuf,
          ibits := left, inf := [] } := by rw [walkInput, h1]
    rw [he]
    refine ⟨p, h3, ?_, by simp only; omega, Nat.le_refl _, ?_⟩
    · simp [WalkEnd.bits, h4]
    · by_cases hm : (nodeAt arena m).leaf = true
      · left; simp [hm]
      · have hm : (nodeAt arena m).leaf = false := by simpa using hm
        right; simp [hm, h5 hm]
  | cons b rest ih =>
    intro ibuf ibits n hl
    obtain ⟨p, m, left, h1, h2, h3, h4, h5⟩ := walkByte_spec arena ibuf ibits n hl
    by_cases hm : (nodeAt arena m).leaf = true
    · have he : walkInput arena (b :: rest) ibuf ibits n =
          { sym := some (nodeAt arena m).sym, node := m, ibuf := ibuf, ibits := left, inf := b :: rest } := by
        simp only [hm, if_true] at h1
        rw [walkInput, h1]
      rw [he]
      refine ⟨p, h3, ?_, by simp only; omega, Nat.le_refl _, Or.inl ⟨rfl, hm⟩⟩
      simp [WalkEnd.bits, h4]
    · have hm : (nodeAt arena m).leaf = false := by simpa using hm
      have he : walkInput arena (b :: rest) ibuf ibits n = walkInput arena rest b 8 m := by
        simp only [hm, Bool.false_eq_true, if_false] at h1
        rw [walkInput, h1]
      obtain ⟨q, g1, g2, g3, g4, g5⟩ := ih b 8 m hm
      rw [he]
      refine ⟨p ++ q, (leads_append _ _ _ _ _).2 ⟨m, h3, g1⟩, ?_, by omega, by simp only [List.length_cons]; omega, g5⟩
      rw [List.append_assoc, ← g2, h4, h5 hm]
      simp [bufBits, byteBits_eq]

/-- DEC's loop from a leaf, which is the root (45_unpacker R202): it consumes one bit, whatever its value, or finds
none. -/
theorem walkInput_leaf (arena : Vector Node 511) (n : NodeIx) (hl : (nodeAt arena n).leaf = true) (inf : List Byte)
    (ibuf : Byte) (ibits : Nat) :
    walkInput arena inf ibuf ibits n =
      match ibits, inf with
      | k + 1, inf => { sym := some (nodeAt arena n).sym, node := n, ibuf := ibuf, ibits := k, inf := inf }
      | 0, [] => { sym := none, node := n, ibuf := ibuf, ibits := 0, inf := [] }
      | 0, b :: rest => { sym := some (nodeAt arena n).sym, node := n, ibuf := b, ibits := 7, inf := rest } := by
  have hb : ∀ (x : Byte) (k : Nat), walkByte arena x (k + 1) n = (some (nodeAt arena n).sym, n, k) := by
    intro x k; rw [walkByte, if_pos hl]
  cases ibits with
  | succ k => cases inf <;> simp only [walkInput, hb]
  | zero =>
    cases inf with
    | nil => rfl
    | cons b rest =>
      have : walkInput arena (b :: rest) ibuf 0 n = walkInput arena rest b 8 n := rfl
      rw [this]
      cases rest <;> simp only [walkInput, hb]

/-- Execute of DEC (45_unpacker R200) with every update written out: an error, DONE, NEED_IN, or one symbol. -/
theorem decOut_eq (s : State) : decOut s =
    if s.treeValid = false then .raise .noTree
    else if s.origLen ≤ s.dcnt then .finish 0x400 { s with needIn := false }
    else if s.rootValid = false then .raise .emptyTree
    else if s.outf.length = s.cfg.outDepth then .raise .outFull
    else
      match (walkInput s.node s.inf s.ibuf s.ibits.toNat s.decNode).sym with
      | none => .finish 0x200 { s.withWalk (walkInput s.node s.inf s.ibuf s.ibits.toNat s.decNode) with needIn := true }
      | some sym =>
        .finish (0x100#32 ||| sym.setWidth 32 ||| (if s.origLen ≤ s.dcnt + 1 then 0x400#32 else 0#32))
          { s.withWalk (walkInput s.node s.inf s.ibuf s.ibits.toNat s.decNode) with
            needIn := false, outf := s.outf ++ [sym], otot := s.otot + 1, dcnt := s.dcnt + 1, decNode := s.root } := by
  have hdone : State.decDone { s with needIn := false } = decide (s.origLen ≤ s.dcnt) := rfl
  unfold decOut
  simp only [hdone, decide_eq_true_eq]
  split <;> [rfl; split <;> [rfl; split <;> [rfl; split <;> [rfl; skip]]]]
  cases (walkInput s.node s.inf s.ibuf s.ibits.toNat s.decNode).sym with
  | none => rfl
  | some sym =>
    simp only [State.decResult]
    congr 2
    have hafter : State.decDone (State.emit sym
        (State.withWalk (walkInput s.node s.inf s.ibuf s.ibits.toNat s.decNode) { s with needIn := false })) =
          decide (s.origLen ≤ s.dcnt + 1) := rfl
    rw [hafter]
    simp only [decide_eq_true_eq]

end Sys2Proof.Machine
end

