-- ==== Sys2Proof/Laws/Exec.lean ====
section
/-! SUPPORT. What a command, a host access and a step can do, said once: every command completes (30_encoding R94), an
access reads or writes a register (20_memory R64, R65), and a step is one of the turns of 00_scope R7. -/

namespace Sys2Proof.Machine

/-- Execute of each command (30_encoding R93): what `exec` completes. -/
def execOut (i : Instr) (s : State) : CmdOut :=
  match i with
  | .nop => .finish 0 s
  | .srst => .finish 0 s.softReset
  | .sclr => .finish 0 s.clearStream
  | .hclr => .finish 0 { s with hist := Vector.replicate 256 0 }.dropValid
  | .hwr sym => .finish 0 (s.setHist sym s.pendArg).dropValid
  | .hrd sym => .finish (s.histAt sym) s
  | .build =>
    .finish (BitVec.ofNat 32 (buildTree s.hist.toList s.builder).k) (s.withTree (buildTree s.hist.toList s.builder))
  | .nrd n sel => .finish (s.nodeRead n sel) s
  | .genc => gencOut s
  | .clen sym => if s.codesValid = false then .raise .noCodes else .finish ((s.lenAt sym).setWidth 32) s
  | .cbits sym wrd =>
    if s.codesValid = false then .raise .noCodes else .finish (codeWord (s.lenAt sym) (s.bitsAt sym) wrd) s
  | .enc sym => encOut sym s
  | .flush => flushOut s
  | .dec => decOut s

/-- Every command completes (30_encoding R93, R94). -/
theorem exec_eq (i : Instr) (s : State) : exec i s = .next (complete s (execOut i s)) := by
  cases i <;> rfl

/-- `exec` answers the completion and nothing else. -/
theorem exec_next_iff {i : Instr} {s t : State} : exec i s = .next t ↔ t = complete s (execOut i s) := by
  rw [exec_eq, Host.Outcome.next.injEq]
  exact eq_comm

@[simp] theorem complete_finish (s s' : State) (r : Word) : complete s (.finish r s') = s'.succeed r := rfl
@[simp] theorem complete_raise (s : State) (e : CmdError) : complete s (.raise e) = s.fail e := rfl

/-- No error has code 0 (60_exceptions R220). -/
theorem CmdError.code_ne_zero (e : CmdError) : e.code ≠ 0 := by cases e <;> decide

/-- A completion is a success with ERR 0, or a failure that changes nothing but what R94 names. -/
theorem complete_cases (s : State) (o : CmdOut) :
    (∃ r s', o = .finish r s' ∧ complete s o = s'.succeed r) ∨ (∃ e, o = .raise e ∧ complete s o = s.fail e) := by
  cases o with
  | finish r s' => exact .inl ⟨r, s', rfl, rfl⟩
  | raise e => exact .inr ⟨e, rfl, rfl⟩

/-- What a command that succeeds leaves alone: no command but SRST changes a register of the host's side. -/
theorem execOut_frame {i : Instr} {s s' : State} {r : Word} (h : execOut i s = .finish r s') (hi : i ≠ .srst) :
    s' = { s with
      hist := s'.hist, node := s'.node, nodeCnt := s'.nodeCnt, root := s'.root, rootValid := s'.rootValid,
      treeValid := s'.treeValid, heap := s'.heap, heapN := s'.heapN, codesValid := s'.codesValid,
      codeLen := s'.codeLen, codeBits := s'.codeBits, acc := s'.acc, accN := s'.accN, ibuf := s'.ibuf,
      ibits := s'.ibits, decNode := s'.decNode, needIn := s'.needIn, inf := s'.inf, outf := s'.outf,
      dcnt := s'.dcnt, otot := s'.otot } := by
  cases i <;> simp only [execOut, gencOut, encOut, flushOut, decOut] at h
  case srst => exact absurd rfl hi
  case enc sym =>
    split at h <;> [cases h; split at h <;> [cases h; split at h <;> cases h]]
    obtain ⟨_, _, _, he⟩ := appendBits_frame (s.codeAt sym) s
    rw [he]
  case flush =>
    split at h
    · cases h; rfl
    · split at h <;> cases h
      rfl
  case dec =>
    split at h <;> [cases h; split at h <;> [(cases h; rfl); split at h <;> [cases h; split at h <;> [cases h; skip]]]]
    split at h <;> cases h <;> rfl
  all_goals (try (split at h <;> try cases h))
  all_goals (try cases h)
  all_goals rfl

/-- Every command but BUILD and SRST leaves the tree alone; HCLR and HWR write HIST and drop both valid bits, GENC writes
the code table, and no other command changes HIST, a valid bit or a table (10_state R34, R38, R39). -/
theorem execOut_tables {i : Instr} {s s' : State} {r : Word} (h : execOut i s = .finish r s') (hi : i ≠ .srst)
    (hb : i ≠ .build) :
    (s'.node = s.node ∧ s'.nodeCnt = s.nodeCnt ∧ s'.root = s.root ∧ s'.rootValid = s.rootValid ∧
      s'.heapN = s.heapN) ∧
    (i ≠ .hclr → (∀ x, i ≠ .hwr x) → s'.hist = s.hist ∧ s'.treeValid = s.treeValid ∧
      (i ≠ .genc → s'.codesValid = s.codesValid ∧ s'.codeLen = s.codeLen ∧ s'.codeBits = s.codeBits)) := by
  cases i <;> simp only [execOut, gencOut, encOut, flushOut, decOut] at h
  case srst => exact absurd rfl hi
  case build => exact absurd rfl hb
  case hclr => cases h; exact ⟨⟨rfl, rfl, rfl, rfl, rfl⟩, fun h => absurd rfl h⟩
  case hwr x => cases h; exact ⟨⟨rfl, rfl, rfl, rfl, rfl⟩, fun _ h => absurd rfl (h x)⟩
  case genc =>
    split at h <;> cases h
    exact ⟨⟨rfl, rfl, rfl, rfl, rfl⟩, fun _ _ => ⟨rfl, rfl, fun h => absurd rfl h⟩⟩
  case enc sym =>
    split at h <;> [cases h; split at h <;> [cases h; split at h <;> cases h]]
    obtain ⟨_, _, _, he⟩ := appendBits_frame (s.codeAt sym) s
    rw [he]
    exact ⟨⟨rfl, rfl, rfl, rfl, rfl⟩, fun _ _ => ⟨rfl, rfl, fun _ => ⟨rfl, rfl, rfl⟩⟩⟩
  case flush =>
    split at h
    · cases h; exact ⟨⟨rfl, rfl, rfl, rfl, rfl⟩, fun _ _ => ⟨rfl, rfl, fun _ => ⟨rfl, rfl, rfl⟩⟩⟩
    · split at h <;> cases h
      exact ⟨⟨rfl, rfl, rfl, rfl, rfl⟩, fun _ _ => ⟨rfl, rfl, fun _ => ⟨rfl, rfl, rfl⟩⟩⟩
  case dec =>
    split at h <;> [cases h; split at h <;> [skip; split at h <;> [cases h; split at h <;> [cases h; split at h]]]]
    all_goals
      cases h
      exact ⟨⟨rfl, rfl, rfl, rfl, rfl⟩, fun _ _ => ⟨rfl, rfl, fun _ => ⟨rfl, rfl, rfl⟩⟩⟩
  all_goals (try (split at h <;> try cases h))
  all_goals (try cases h)
  all_goals exact ⟨⟨rfl, rfl, rfl, rfl, rfl⟩, fun _ _ => ⟨rfl, rfl, fun _ => ⟨rfl, rfl, rfl⟩⟩⟩

/-! ## Host accesses -/

/-- A register read changes nothing, or pops OUTF (20_memory R64, R70). -/
theorem readOff_state (off : Nat) (s : State) :
    (readOff off s).2 = s ∨ ∃ b rest, s.outf = b :: rest ∧ (readOff off s).2 = { s with outf := rest } := by
  have hp : s.popOut.2 = s ∨ ∃ b rest, s.outf = b :: rest ∧ s.popOut.2 = { s with outf := rest } := by
    unfold State.popOut
    split
    · exact .inl rfl
    · rename_i b rest h
      exact .inr ⟨b, rest, h, rfl⟩
  unfold readOff
  split
  · exact .inl rfl
  · exact hp
  · exact .inl rfl

/-- What a register write can do (20_memory R65 to R68). -/
theorem writeOff_cases (off : Nat) (v : Word) (s : State) :
    writeOff off v s = s ∨
    writeOff off v s = { s with ctrl := v.extractLsb' 0 3 } ∨
    writeOff off v s = { s with irq := s.irq &&& ~~~(v.extractLsb' 0 3) } ∨
    writeOff off v s = { s with arg := v } ∨
    (writeOff off v s = { s with pendCmd := v, pendArg := s.arg, busy := true } ∧ s.busy = false) ∨
    (writeOff off v s = s.setIrq irqOverrun ∧ s.busy = true) ∨
    writeOff off v s = { s with lenLo := v } ∨
    writeOff off v s = { s with lenHi := v } ∨
    (writeOff off v s = { s with inf := s.inf ++ [v.extractLsb' 0 8] } ∧ s.inf.length < s.cfg.inDepth) ∨
    (writeOff off v s = s.setIrq irqInOvf ∧ ¬ s.inf.length < s.cfg.inDepth) := by
  unfold writeOff
  split
  · simp
  · simp
  · simp
  · unfold State.issue
    by_cases hb : s.busy = true
    · simp [hb]
    · simp [hb]
  · simp
  · simp
  · unfold State.pushIn
    by_cases hf : s.inf.length < s.cfg.inDepth
    · simp [hf]
    · simp [hf]
  · simp

theorem status_busy (s : State) : s.status.getLsbD 0 = s.busy := by
  simp only [State.status, BitVec.getLsbD_or, getLsbD_flag, BitVec.getLsbD_shiftLeft]
  simp

/-- A round of WAITIDLE reads STATUS, and the loop goes on exactly while BUSY = 1 (30_encoding R99). -/
theorem waitIdleRound_eq (polls : Nat) (s : State) : waitIdleRound polls s =
    .next { s with
      rdata := some s.status, agenda := if s.busy = true then waitTurns polls ++ s.agenda else s.agenda } := by
  have ha : accessOffset s.cfg .w32 (s.cfg.base + 0x0C) = .ok 0x0C := by
    simp [accessOffset]
  have hr : hostAccess (.read .w32 (s.cfg.base + Reg.STATUS.off)) s = .next { s with rdata := some s.status } := by
    simp only [hostAccess, Reg.off, ha]
    rfl
  simp only [waitIdleRound, hr, Option.getD_some, status_busy]
  split <;> rfl

/-! ## Steps -/

/-- The state in which the turn is taken: its agenda is what is left. -/
def State.rest (s : State) : State := { s with agenda := s.agenda.tail }

/-- Everything a step that answers a next state can be. -/
theorem step_cases {s s' : State} (h : step s = .next s') :
    (∃ i rest, s.busy = true ∧ decode s.pendCmd = .ok i ∧ engineNext s rest ∧ exec i s.rest = .next s') ∨
    (∃ r rest, s.busy = true ∧ decode s.pendCmd = .error r ∧ engineNext s rest ∧ s' = s.rest.fail .illegalCmd) ∨
    (∃ rest, s.busy = false ∧ engineNext s rest ∧ s' = s.rest) ∨
    (∃ width addr rest off, s.agenda = .host (.read width addr) :: rest ∧ accessOffset s.cfg width addr = .ok off ∧
      s' = { (readOff off s.rest).2 with rdata := some (readOff off s.rest).1 }) ∨
    (∃ width addr v rest off, s.agenda = .host (.write width addr v) :: rest ∧ accessOffset s.cfg width addr = .ok off ∧
      s' = writeOff off v s.rest) ∨
    (∃ polls rest, s.agenda = .waitIdle polls :: rest ∧
      s' = { s with rdata := some s.status, agenda := if s.busy = true then waitTurns polls ++ rest else rest }) ∨
    (resetNext s ∧ s' = s.rest.hwReset) := by
  have hengine : ∀ rest, engineNext s rest → engineTurn s.rest = .next s' →
      (∃ i rest, s.busy = true ∧ decode s.pendCmd = .ok i ∧ engineNext s rest ∧ exec i s.rest = .next s') ∨
      (∃ r rest, s.busy = true ∧ decode s.pendCmd = .error r ∧ engineNext s rest ∧ s' = s.rest.fail .illegalCmd) ∨
      (∃ rest, s.busy = false ∧ engineNext s rest ∧ s' = s.rest) := by
    intro rest hn he
    unfold engineTurn at he
    by_cases hb : s.busy = true
    · rw [if_pos (show s.rest.busy = true from hb), engineStep] at he
      have hp : s.rest.pendCmd = s.pendCmd := rfl
      rw [hp] at he
      cases hd : decode s.pendCmd with
      | ok i => rw [hd] at he; exact .inl ⟨i, rest, hb, rfl, hn, he⟩
      | error r =>
        rw [hd] at he
        exact .inr (.inl ⟨r, rest, hb, rfl, hn, (Host.Outcome.next.inj he).symm⟩)
    · rw [if_neg (show ¬ s.rest.busy = true from hb)] at he
      exact .inr (.inr ⟨rest, by simpa using hb, hn, (Host.Outcome.next.inj he).symm⟩)
  unfold step at h
  split at h
  · rename_i hag
    have hrest : s.rest = s := by unfold State.rest; rw [hag]; cases s; simp_all
    rw [← hrest] at h
    rcases hengine [] (.inl ⟨hag, rfl⟩) h with g | g | g
    · exact .inl g
    · exact .inr (.inl g)
    · exact .inr (.inr (.inl g))
  · rename_i t rest hag
    have hrest : ({ s with agenda := rest } : State) = s.rest := by unfold State.rest; rw [hag]; rfl
    rw [hrest] at h
    cases t with
    | engine =>
      rcases hengine rest (.inr hag) h with g | g | g
      · exact .inl g
      · exact .inr (.inl g)
      · exact .inr (.inr (.inl g))
    | hwReset =>
      exact .inr (.inr (.inr (.inr (.inr (.inr ⟨⟨rest, hag⟩, (Host.Outcome.next.inj h).symm⟩)))))
    | waitIdle polls =>
      rw [takeTurn, waitIdleRound_eq] at h
      refine .inr (.inr (.inr (.inr (.inr (.inl ⟨polls, rest, hag, ?_⟩)))))
      have hst : s.rest.status = s.status := rfl
      have hal : s.rest.agenda = rest := by simp [State.rest, hag]
      rw [← Host.Outcome.next.inj h, hst, hal]
      rfl
    | host a =>
      cases a with
      | read width addr =>
        simp only [takeTurn, hostAccess] at h
        have hc : s.rest.cfg = s.cfg := rfl
        rw [hc] at h
        cases ha : accessOffset s.cfg width addr with
        | error r => rw [ha] at h; cases h
        | ok off =>
          rw [ha] at h
          exact .inr (.inr (.inr (.inl ⟨width, addr, rest, off, hag, ha, (Host.Outcome.next.inj h).symm⟩)))
      | write width addr v =>
        simp only [takeTurn, hostAccess] at h
        have hc : s.rest.cfg = s.cfg := rfl
        rw [hc] at h
        cases ha : accessOffset s.cfg width addr with
        | error r => rw [ha] at h; cases h
        | ok off =>
          rw [ha] at h
          exact .inr (.inr (.inr (.inr (.inl ⟨width, addr, v, rest, off, hag, ha, (Host.Outcome.next.inj h).symm⟩))))

/-- One step of a run. -/
theorem run_succ (M : Host.Core) (k : Nat) {s t : M.State} (h : M.step s = .next t) : M.run (k + 1) s = M.run k t := by
  simp only [Host.Core.run, h]

/-! ## Tables -/

/-- Reading a counter after writing one (41_histogram R121, R122). -/
theorem histAt_setHist (s : State) (sym x : Byte) (c : Word) :
    (s.setHist sym c).histAt x = if sym = x then c else s.histAt x := by
  simp only [State.histAt, State.setHist, Vector.getElem_set, BitVec.toNat_inj]

end Sys2Proof.Machine
end

