-- ==== Sys2Proof/Laws/PerInstr.lean ====
section
/-! SUPPORT. Statements made per instruction. -/

namespace Sys2Proof.Laws.Opcode

/-- The family: what `word[31:24]` of an encoded command is (30_encoding R90, R95). -/
def Statement (i : Instr) : Prop := (encode i).extractLsb' 24 8 = i.opcode

theorem nop : Statement .nop := opField_encode _
theorem srst : Statement .srst := opField_encode _
theorem sclr : Statement .sclr := opField_encode _
theorem hclr : Statement .hclr := opField_encode _
theorem hwr (sym : Byte) : Statement (.hwr sym) := opField_encode _
theorem hrd (sym : Byte) : Statement (.hrd sym) := opField_encode _
theorem build : Statement .build := opField_encode _
theorem nrd (node : NodeIx) (sel : BitVec 2) : Statement (.nrd node sel) := opField_encode _
theorem genc : Statement .genc := opField_encode _
theorem clen (sym : Byte) : Statement (.clen sym) := opField_encode _
theorem cbits (sym : Byte) (wrd : BitVec 5) : Statement (.cbits sym wrd) := opField_encode _
theorem enc (sym : Byte) : Statement (.enc sym) := opField_encode _
theorem flush : Statement .flush := opField_encode _
theorem dec : Statement .dec := opField_encode _

end Sys2Proof.Laws.Opcode
end

