-- ==== Sys2Proof/Tests/Slice0.lean ====
section
/-! SUPPORT. Tests. Expected values come from spec/: the encodings of 30_encoding R91, R95 and R99, the ranges of
00_scope R6 and 30_encoding R92, and the vectors V-… of 95_test_vectors. -/

namespace Sys2Proof.Tests

set_option Elab.async false

open Sys2Proof Sys2Proof.Machine

/-! ## WellFormed: each check refuses an ill-formed term -/

theorem test_wf_default : Config.default.wf = true := by decide
theorem test_wf_inDepth_low : { Config.default with inDepth := 0 }.wf = false := by decide
theorem test_wf_inDepth_high : { Config.default with inDepth := 65536 }.wf = false := by decide
theorem test_wf_outDepth_low : { Config.default with outDepth := 31 }.wf = false := by decide
theorem test_wf_outDepth_high : { Config.default with outDepth := 65536 }.wf = false := by decide
theorem test_wf_base : { Config.default with base := 0x80 }.wf = false := by decide
theorem test_wf_bounds : Config.wf { inDepth := 1, outDepth := 32, base := 256, intOrder := .BE } = true ∧
    Config.wf { inDepth := 65535, outDepth := 65535, base := 0, intOrder := .LE } = true := by decide
theorem test_wf_hwr_sym : (AsmCmd.hwr 256 0).wf = false ∧ (AsmCmd.hwr 255 0).wf = true := by decide
theorem test_wf_hwr_count : (AsmCmd.hwr 0 (2 ^ 32)).wf = false ∧ (AsmCmd.hwr 0 (2 ^ 32 - 1)).wf = true := by decide
theorem test_wf_hrd : (AsmCmd.hrd 256).wf = false := by decide
theorem test_wf_clen : (AsmCmd.clen 256).wf = false := by decide
theorem test_wf_enc : (AsmCmd.enc 256).wf = false := by decide
theorem test_wf_cbits : (AsmCmd.cbits 256 0).wf = false ∧ (AsmCmd.cbits 0 32).wf = false := by decide
theorem test_wf_nrd : (AsmCmd.nrd 512 0).wf = false ∧ (AsmCmd.nrd 0 4).wf = false := by decide
theorem test_assemble_refuses : assemble (.enc 256) = none ∧ assemble (.nrd 6 2) = some (.nrd 6 2) := by decide

/-! ## Decoding: words written out bit by bit, operand bits and ignored bits both ways -/

/-- OP 0x00, format N, every other bit ignored. -/
theorem test_decode_nop : decode 0b00000000111111111111111111111111#32 = .ok .nop := by decide
/-- OP 0x01, format N. -/
theorem test_decode_srst : decode 0b00000001000000000000000000000000#32 = .ok .srst := by decide
/-- OP 0x02, format N. -/
theorem test_decode_sclr : decode 0b00000010000000000000000000000000#32 = .ok .sclr := by decide
/-- OP 0x08, format N. -/
theorem test_decode_hclr : decode 0b00001000000000000000000000000000#32 = .ok .hclr := by decide
/-- OP 0x09, format S: SYM in bits 7..0, bits 23..8 ignored. -/
theorem test_decode_hwr : decode 0b00001001111111111111111101000001#32 = .ok (.hwr 0x41) := by decide
/-- OP 0x0A, format S. -/
theorem test_decode_hrd : decode 0b00001010000000000000000010000001#32 = .ok (.hrd 0x81) := by decide
/-- OP 0x10, format N. -/
theorem test_decode_build : decode 0b00010000000000000000000000000000#32 = .ok .build := by decide
/-- OP 0x11, format NS: SEL in bits 13..12, NODE in bits 8..0, bits 23..14 and 11..9 ignored. -/
theorem test_decode_nrd : decode 0b00010001111111111110111100000110#32 = .ok (.nrd 0x106 2) := by decide
/-- OP 0x18, format N. -/
theorem test_decode_genc : decode 0b00011000000000000000000000000000#32 = .ok .genc := by decide
/-- OP 0x19, format S. -/
theorem test_decode_clen : decode 0b00011001000000000000000001000011#32 = .ok (.clen 0x43) := by decide
/-- OP 0x1A, format SW: WRD in bits 12..8, SYM in bits 7..0, bits 23..13 ignored. -/
theorem test_decode_cbits : decode 0b00011010111111111111000100000111#32 = .ok (.cbits 7 0b10001) := by decide
/-- OP 0x20, format S. -/
theorem test_decode_enc : decode 0b00100000000000000000000001000001#32 = .ok (.enc 0x41) := by decide
/-- OP 0x21, format N. -/
theorem test_decode_flush : decode 0b00100001000000000000000000000000#32 = .ok .flush := by decide
/-- OP 0x28, format N. -/
theorem test_decode_dec : decode 0b00101000000000000000000000000000#32 = .ok .dec := by decide
/-- The bounds of the illegal ranges of R96. -/
theorem test_decode_illegal : ∀ op ∈ [0x03#8, 0x07#8, 0x0B#8, 0x0F#8, 0x12#8, 0x17#8, 0x1B#8, 0x1F#8, 0x22#8, 0x27#8,
    0x29#8, 0xFF#8], decode (op ++ 0#24) = .error (.illegalCmd op) := by decide
/-- The words of R99, encoded. -/
theorem test_encode : encode (.enc 0x41) = 0x20000041#32 ∧ encode (.cbits 7 1) = 0x1A000107#32 ∧
    encode (.nrd 6 2) = 0x11002006#32 ∧ encode (.hwr 0x41) = 0x09000041#32 := by decide
theorem test_decodeTableWord : decodeTableWord 32 0x20000041 = some (.enc 0x41) ∧
    decodeTableWord 32 0x03000000 = none ∧ decodeTableWord 8 0x41 = some .nop := by decide

/-! ## States -/

/-- The state after a command that completes. -/
def after (i : Instr) (s : State) : State :=
  match exec i s with
  | .next t => t
  | _ => s

/-- Scenario 1: A x 8, B x 3, C x 2, D x 1. -/
def hist4 : State :=
  ((((State.reset.setHist 0x41 8).setHist 0x42 3).setHist 0x43 2).setHist 0x44 1)

/-- Scenario 3: Z x 5. -/
def histZ : State := State.reset.setHist 0x5A 5

def tree4 : State := after .build hist4
def treeZ : State := after .build histZ
def codes4 : State := after .genc tree4

/-- The tree of scenario 1 with `ORIG_LEN = 14` and payload bytes pushed. -/
def dec4 (inf : List Byte) : State := { tree4 with lenLo := 14, inf := inf }

/-! ## One step -/

/-- V-CT-1: ERR becomes 0, ERR_CMD stays. -/
theorem test_nop : (after .nop { State.reset with err := 1, errCmd := 0xFF123456 }).err = 0 ∧
    (after .nop { State.reset with err := 1, errCmd := 0xFF123456 }).errCmd = 0xFF123456 := by decide +kernel
/-- V-CT-2: CTRL and IRQ survive, CMD_DONE is set. -/
theorem test_srst : (after .srst { State.reset with ctrl := 5, irq := 4, inf := List.replicate 16 1 }).irq = 5 ∧
    (after .srst { State.reset with ctrl := 5, irq := 4, inf := List.replicate 16 1 }).ctrl = 5 ∧
    (after .srst { State.reset with ctrl := 5, irq := 4, inf := List.replicate 16 1 }).fifoLvl = 0 := by decide +kernel
/-- V-CT-4: DEC_STATE is ROOT. -/
theorem test_sclr_tree : (after .sclr { tree4 with decNode := 5, acc := 0x80, accN := 1 }).decState = 6 ∧
    (after .sclr { tree4 with decNode := 5, acc := 0x80, accN := 1 }).packState = 0 := by decide +kernel
/-- V-CT-5. -/
theorem test_sclr_reset : (after .sclr State.reset).status = 0x148 := by decide +kernel
/-- V-HI-4. -/
theorem test_hclr : (after .hclr tree4).histAt 0x41 = 0 ∧ (after .hclr tree4).treeValid = false ∧
    (after .hclr tree4).treeInfo = 0x80060007 := by decide +kernel
/-- V-HI-1: the argument is the latched one. -/
theorem test_hwr : (after (.hwr 0x41) { State.reset with pendArg := 8, arg := 99 }).histAt 0x41 = 8 ∧
    (after (.hwr 0x41) { State.reset with pendArg := 8, arg := 99 }).histAt 0x42 = 0 := by decide +kernel
/-- V-HI-3: writing the value held drops TREE_VALID; the old tree is still read. -/
theorem test_hwr_same : (after (.hwr 0x41) { tree4 with pendArg := 8 }).treeValid = false ∧
    (after (.hwr 0x41) { tree4 with pendArg := 8 }).nodeRead 0 0 = 0xC0000041 := by decide +kernel
/-- V-HI-1. -/
theorem test_hrd : (after (.hrd 0x41) hist4).result = 8 ∧ (after (.hrd 0x45) hist4).result = 0 := by decide +kernel
/-- V-TB-1. -/
theorem test_build : tree4.result = 4 ∧ tree4.treeInfo = 0x80060007 ∧ tree4.status = 0x14A ∧ tree4.decState = 6 := by
  decide +kernel
/-- V-TB-4: no symbol. -/
theorem test_build_empty : (after .build State.reset).treeInfo = 0 ∧ (after .build State.reset).treeValid = true := by
  decide +kernel
/-- V-TB-1. -/
theorem test_nrd : (after (.nrd 6 1) tree4).result = 0x00000005 ∧ (after (.nrd 4 1) tree4).result = 0x00020003 ∧
    (after (.nrd 6 2) tree4).result = 14 := by decide +kernel
/-- V-TB-1: a leaf, an internal node, an index not allocated. -/
theorem test_nrd_kind : (after (.nrd 0 0) tree4).result = 0xC0000041 ∧ (after (.nrd 4 0) tree4).result = 0x80000000 ∧
    (after (.nrd 7 0) tree4).result = 0 := by decide +kernel
/-- V-CD-1. -/
theorem test_genc : codes4.result = 3 ∧ codes4.status = 0x14E ∧ codes4.codeAt 0x41 = [true] ∧
    codes4.codeAt 0x42 = [false, false] ∧ codes4.codeAt 0x43 = [false, true, true] ∧
    codes4.codeAt 0x44 = [false, true, false] := by decide +kernel
/-- V-CD-7. -/
theorem test_genc_no_tree : (after .genc State.reset).err = 2 := by decide +kernel
/-- V-CD-1. -/
theorem test_clen : (after (.clen 0x43) codes4).result = 3 ∧ (after (.clen 0x45) codes4).result = 0 := by decide +kernel
/-- V-CD-7. -/
theorem test_clen_no_codes : (after (.clen 0x41) State.reset).err = 3 := by decide +kernel
/-- V-CD-1. -/
theorem test_cbits : (after (.cbits 0x43 0) codes4).result = 0x60000000 ∧
    (after (.cbits 0x43 1) codes4).result = 0 := by decide +kernel
/-- V-PK-1, step 12: six bits held, C's three bits complete one byte. -/
theorem test_enc : (after (.enc 0x43) { codes4 with accN := 6 }).outf = [0x01] ∧
    (after (.enc 0x43) { codes4 with accN := 6 }).packState = 0x00000180 ∧
    (after (.enc 0x43) { codes4 with accN := 6 }).result = 1 := by decide +kernel
/-- An absent symbol. -/
theorem test_enc_absent : (after (.enc 0x45) codes4).err = 4 := by decide +kernel
/-- V-PK-1, step 15. -/
theorem test_flush : (after .flush { State.reset with acc := 0xB4, accN := 7 }).outf = [0xB4] ∧
    (after .flush { State.reset with acc := 0xB4, accN := 7 }).result = 1 := by decide +kernel
/-- Nothing to flush. -/
theorem test_flush_empty : (after .flush State.reset).outf = [] ∧ (after .flush State.reset).err = 0 := by decide +kernel
/-- 45_unpacker R200's example: the first DEC. -/
theorem test_dec : (after .dec (dec4 [0xFF, 0x01, 0xB4])).result = 0x141 ∧
    (after .dec (dec4 [0xFF, 0x01, 0xB4])).outf = [0x41] ∧
    (after .dec (dec4 [0xFF, 0x01, 0xB4])).packState = 0x07FF0000 := by decide +kernel
/-- V-UP-4: a 1 bit is accepted by the single-symbol tree. -/
theorem test_dec_single : (after .dec { treeZ with lenLo := 5, inf := [0x80] }).result = 0x15A := by decide +kernel

/-- The first step after `withFetchWord` runs the word. -/
theorem step_fetch (s : State) (w : Nat) (i : Instr) (h : decode (tableWord 32 w) = .ok i) :
    step (s.withFetchWord 32 w) =
      .next (after i { s.withFetchWord 32 w with agenda := s.agenda }) := by
  have : step (s.withFetchWord 32 w) = engineStep { s.withFetchWord 32 w with agenda := s.agenda } := rfl
  rw [this]
  simp only [engineStep, State.withFetchWord, h, after, exec_eq]

theorem test_fetch : ∃ t, step (hist4.withFetchWord 32 0x0A000041) = .next t ∧ t.result = 8 :=
  ⟨_, step_fetch _ _ _ rfl, by decide +kernel⟩

/-- 30_encoding R99: with BUSY = 0 WAITIDLE is one STATUS read, and with a NOP pending the third read ends it. -/
theorem test_waitIdle : (∃ t, step { State.reset with agenda := [.waitIdle 3] } = .next t ∧ t.agenda = [] ∧
      t.rdata = some 0x148) ∧
    (∃ t, Host.Core.run core 4 { State.reset with busy := true, agenda := waitTurns 2 } = .next t ∧ t.agenda = [] ∧
      t.rdata = some 0x148) ∧
    (∃ t, Host.Core.run core 2 { State.reset with busy := true, agenda := waitTurns 2 } = .next t ∧
      t.busy = true ∧ t.rdata = some 0x149) :=
  ⟨⟨_, rfl, by decide +kernel⟩, ⟨_, rfl, by decide +kernel⟩, ⟨_, rfl, by decide +kernel⟩⟩

/-! ## The hypotheses of the statements can be met -/

theorem after_eq (i : Instr) (s : State) : after i s = complete s (execOut i s) := by
  simp [after, exec_eq]

/-- `TreeInv` speaks of these fields only. -/
theorem treeInv_congr {s t : State} (h : TreeInv s) (hn : t.heapN = s.heapN) (h1 : t.node = s.node)
    (h2 : t.nodeCnt = s.nodeCnt) (h3 : t.rootValid = s.rootValid) (h4 : t.root = s.root)
    (h5 : t.treeValid = s.treeValid) (h6 : t.hist = s.hist) (h7 : t.decNode = s.decNode) : TreeInv t := by
  refine ⟨by rw [hn]; exact h.heapEmpty, ?_, ?_⟩
  · rw [h1, h2, h3, h4, h5, h6]; exact h.tree
  · have := h.decNode
    simp only [State.nodeOf] at *
    rw [h1, h2, h4, h7]; exact this

theorem treeInv_build (s : State) : TreeInv (after .build s) := by
  rw [after_eq]
  exact treeInv_congr (treeInv_withTree s) rfl rfl rfl rfl rfl rfl rfl rfl

theorem tree4_inv : TreeInv tree4 := treeInv_build hist4
theorem treeZ_inv : TreeInv treeZ := treeInv_build histZ
theorem treeInv_input {s : State} (h : TreeInv s) (lo : Word) (inf : List Byte) (n : BitVec 4) :
    TreeInv { s with lenLo := lo, inf := inf, ibits := n } :=
  treeInv_congr h rfl rfl rfl rfl rfl rfl rfl rfl
theorem treeInv_unseen {s : State} (h : TreeInv s) (hp : Vector NodeIx 256) (w : Word) :
    TreeInv { s with heap := hp, pendCmd := w } :=
  treeInv_congr h rfl rfl rfl rfl rfl rfl rfl rfl

theorem wit_OpcodeAloneSelectsTheRow : decode 0x20000041#32 = .ok (.enc 0x41) ∧
    opField 0x20000041#32 ∈ listedOpcodes ∧ (Instr.enc 1).opcode = (Instr.enc 2).opcode := by decide

/-- A pending command that decodes, one that does not, and none. -/
theorem wit_StepRunsPendingCommand :
    (engineNext (State.reset.withFetchWord 32 0) [] ∧ (State.reset.withFetchWord 32 0).busy = true ∧
      decode (State.reset.withFetchWord 32 0).pendCmd = .ok .nop) ∧
    (engineNext (State.reset.withFetchWord 32 0x03000000) [] ∧
      (State.reset.withFetchWord 32 0x03000000).busy = true ∧
      opField (State.reset.withFetchWord 32 0x03000000).pendCmd ∉ listedOpcodes) ∧
    (engineNext State.reset [] ∧ State.reset.busy = false) :=
  ⟨⟨.inr rfl, rfl, rfl⟩, ⟨.inr rfl, rfl, by decide⟩, ⟨.inl ⟨rfl, rfl⟩, rfl⟩⟩

theorem wit_FailureIsPrecise :
    engineNext (State.reset.withFetchWord 32 0x18000000) [] ∧
    (State.reset.withFetchWord 32 0x18000000).busy = true := ⟨.inr rfl, rfl⟩

/-- A command that fails and one that succeeds. -/
theorem wit_FailureIsPrecise_both : (after .genc State.reset).err ≠ 0 ∧ (after .nop State.reset).err = 0 ∧
    Instr.nop ≠ .srst := by decide +kernel

/-- Every command answers a next state, so `exec i s = .next t` can be met. -/
theorem wit_HostRegistersKeptByCommands : (∃ t, exec .nop State.reset = .next t) ∧ Instr.nop ≠ .srst :=
  ⟨⟨_, rfl⟩, by decide⟩

theorem runs_fetch (s : State) (w : Nat) (i : Instr) (h : decode (tableWord 32 w) = .ok i) :
    runs (s.withFetchWord 32 w) i := ⟨rfl, h, _, .inr rfl⟩

theorem reset_idle (i : Instr) : ¬ runs State.reset i := fun h => absurd h.1 (by decide)
theorem reset_no_reset : ¬ resetNext State.reset := fun ⟨_, h⟩ => absurd h (by simp [State.reset, State.resetWith])

theorem wit_TreeRegistersChangeOnlyInBuildAndReset :
    (step State.reset = .next State.reset ∧ ¬ runs State.reset .build ∧ ¬ runs State.reset .srst ∧
      ¬ resetNext State.reset) ∧
    runs (tree4.withFetchWord 32 0x08000000) .hclr ∧ runs (tree4.withFetchWord 32 0x09000041) (.hwr 0x41) :=
  ⟨⟨rfl, reset_idle _, reset_idle _, reset_no_reset⟩, runs_fetch _ _ _ rfl, runs_fetch _ _ _ rfl⟩

theorem wit_ValidBitsChangeOnlyAsStated :
    runs (hist4.withFetchWord 32 0x10000000) .build ∧
    (runs (tree4.withFetchWord 32 0x18000000) .genc ∧ (tree4.withFetchWord 32 0x18000000).treeValid = true) ∧
    (runs (codes4.withFetchWord 32 0x08000000) .hclr ∧ runs (codes4.withFetchWord 32 0x01000000) .srst ∧
      resetNext { codes4 with agenda := [.hwReset] } ∧ runs (codes4.withFetchWord 32 0x09000041) (.hwr 0x41)) ∧
    (¬ runs State.reset .hclr ∧ ¬ runs State.reset .srst ∧ ¬ resetNext State.reset ∧
      (∀ sym, ¬ runs State.reset (.hwr sym)) ∧ ¬ runs State.reset .build ∧ ¬ runs State.reset .genc) :=
  ⟨runs_fetch _ _ _ rfl, ⟨runs_fetch _ _ _ rfl, rfl⟩,
    ⟨runs_fetch _ _ _ rfl, runs_fetch _ _ _ rfl, ⟨[], rfl⟩, runs_fetch _ _ _ rfl⟩,
    ⟨reset_idle _, reset_idle _, reset_no_reset, fun _ => reset_idle _, reset_idle _, reset_idle _⟩⟩

theorem wit_OutputBytesAreCounted : ∃ t, exec .flush { State.reset with acc := 0x80, accN := 1 } = .next t ∧
    t.outf = [0x80] := ⟨_, rfl, by decide +kernel⟩

/-- For the statements that name an encoding. -/
theorem wit_Encodings : opField 0x00ABCDEF#32 = 0x00#8 ∧ opField 0x01000000#32 = 0x01#8 ∧
    opField 0x02000000#32 = 0x02#8 ∧ opField 0x08000000#32 = 0x08#8 ∧ opField 0x09000041#32 = 0x09#8 ∧
    opField 0x0A000041#32 = 0x0A#8 ∧ opField 0x11002006#32 = 0x11#8 ∧ opField 0x19000041#32 = 0x19#8 ∧
    opField 0x1A000107#32 = 0x1A#8 ∧ opField 0x21FFFFFF#32 = 0x21#8 := by decide
theorem wit_SrstResetsAllButCtrlAndIrq : State.reset.cfg.wf = true := by decide
theorem wit_SclrClearsStreamOnly : tree4.rootValid = true ∧ State.reset.rootValid = false := by decide +kernel
theorem wit_HwrWritesOneCounter : (0x41 : Byte) = 0x41 ∧ (0x42 : Byte) ≠ 0x41 := by decide

theorem wit_BuildCollectsLeavesInOrder : (∃ t, exec .build hist4 = .next t) ∧
    (presentLeaves hist4.hist).length = 4 ∧ (0x41, 8) ∈ presentLeaves hist4.hist :=
  ⟨⟨_, rfl⟩, by decide +kernel, by decide +kernel⟩

theorem wit_BuildMakesOneTree : ∃ t, exec .build hist4 = .next t := ⟨_, rfl⟩

theorem wit_BuildFrequenciesAreSums : exec .build hist4 = .next tree4 ∧ (6 : NodeIx).toNat < tree4.nodeCnt.toNat ∧
    tree4.rootValid = true ∧ (tree4.nodeOf 6).leaf = false :=
  ⟨rfl, by decide +kernel, by decide +kernel, by decide +kernel⟩

/-- Two leaves in order, C (2) above B (3). -/
def heap2 : Builder :=
  { node := tree4.node, nodeCnt := 7, heap := (Vector.replicate 256 0).set 0 2 |>.set 1 1, heapN := 2 }

theorem wit_HeapPrimitivesKeepOrderAndTies : HeapOrdered heap2 ∧ heap2.heapN < 256 ∧ 1 ≤ heap2.heapN := by
  refine ⟨fun i h1 h2 => ?_, by decide, by decide⟩
  have hi : i = 1 := by
    have : heap2.heapN = 2 := rfl
    omega
  subst hi
  decide +kernel

theorem wit_BuildDependsOnHistogramOnly : hist4.hist = tree4.hist ∧ (∃ t, exec .build hist4 = .next t) ∧
    (∃ t, exec .build tree4 = .next t) := ⟨rfl, ⟨_, rfl⟩, ⟨_, rfl⟩⟩

theorem wit_NrdReadsNodeField : tree4.nodeCnt.toNat ≤ (7 : NodeIx).toNat ∧
    (6 : NodeIx).toNat < tree4.nodeCnt.toNat := by decide +kernel

theorem wit_GencCompletes : State.reset.treeValid = false ∧ tree4.treeValid = true := by decide +kernel

/-- For GencRecordsTreePaths, GencLengthsAreBounded and GencCodesArePrefixFreeAndComplete: with several symbols. -/
theorem wit_GencOnTree : TreeInv tree4 ∧ tree4.treeValid = true ∧ (∃ t, exec .genc tree4 = .next t) ∧
    tree4.histAt 0x41 ≠ 0 ∧ tree4.histAt 0x42 ≠ 0 ∧ tree4.histAt 0x45 = 0 ∧
    2 ≤ (presentLeaves tree4.hist).length :=
  ⟨tree4_inv, by decide +kernel, ⟨_, rfl⟩, by decide +kernel, by decide +kernel, by decide +kernel, by decide +kernel⟩

/-- The same with one symbol. -/
theorem wit_GencOnSingleSymbol : TreeInv treeZ ∧ treeZ.treeValid = true ∧ (∃ t, exec .genc treeZ = .next t) ∧
    treeZ.histAt 0x5A ≠ 0 ∧ (presentLeaves treeZ.hist).length = 1 :=
  ⟨treeZ_inv, by decide +kernel, ⟨_, rfl⟩, by decide +kernel, by decide +kernel⟩

/-- For ClenReadsLength and CbitsReadsCodeWord. -/
theorem wit_CodesValid : codes4.codesValid = true ∧ State.reset.codesValid = false ∧
    (0 : Nat) < 32 ∧ (31 : Nat) < 32 := by decide +kernel

theorem wit_EncAppendsCode : (∀ i, i < 8 - codes4.accN.toNat → codes4.acc.getLsbD i = false) ∧
    codes4.codesValid = true ∧ codes4.lenAt 0x41 ≠ 0 ∧
    codes4.outf.length + (codes4.accN.toNat + (codes4.lenAt 0x41).toNat) / 8 ≤ codes4.cfg.outDepth := by
  refine ⟨fun i _ => ?_, by decide +kernel, by decide +kernel, by decide +kernel⟩
  have : codes4.acc = 0#8 := rfl
  rw [this, BitVec.getLsbD_zero]

theorem wit_FlushPadsPartialByte : State.reset.accN = 0 ∧
    ({ State.reset with accN := 1 }.accN ≠ 0 ∧
      { State.reset with accN := 1 }.outf.length ≠ { State.reset with accN := 1 }.cfg.outDepth) ∧
    ({ State.reset with accN := 1, outf := List.replicate 64 0 }.accN ≠ 0 ∧
      { State.reset with accN := 1, outf := List.replicate 64 0 }.outf.length =
        { State.reset with accN := 1, outf := List.replicate 64 0 }.cfg.outDepth) := by decide +kernel

theorem codes4_stream : StreamInv codes4 :=
  ⟨by decide +kernel, by decide +kernel, by decide +kernel, by decide +kernel, fun i h => wit_EncAppendsCode.1 i h⟩

/-- For the next theorem. -/
theorem wit_Stream : (∀ x ∈ [(0x41 : Byte), 0x44], codes4.lenAt x ≠ 0) ∧ codes4.accN = 0 ∧ codes4.outf = [] ∧
    (([(0x41 : Byte), 0x44].flatMap codes4.codeAt).length + 7) / 8 ≤ codes4.cfg.outDepth ∧
    [(0x41 : Byte), 0x44].length ≤ codes4.cfg.outDepth ∧ codes4.codesValid = true := by decide +kernel

theorem builtFrom_build (s : State) : (after .build s).builtFrom s.hist.toList := by
  rw [after_eq]
  exact ⟨s.builder, rfl, rfl, rfl, rfl⟩

/-- GENC keeps the tree and records its codes. -/
theorem after_genc {s : State} (h : s.treeValid = true) : (after .genc s).treeValid = true ∧
    (after .genc s).hist = s.hist ∧ (TreeInv s → TreeInv (after .genc s)) ∧
    (∀ hist, s.builtFrom hist → (after .genc s).builtFrom hist) ∧
    { after .genc s with codeBits := s.codeBits }.genCodes =
      { len := (after .genc s).codeLen, bits := (after .genc s).codeBits } := by
  have he : gencOut s = .finish (BitVec.ofNat 32 (maxLen s.genCodes.len))
      { s with codeLen := s.genCodes.len, codeBits := s.genCodes.bits, codesValid := true } := by simp [gencOut, h]
  simp only [after_eq, execOut, he]
  exact ⟨h, rfl, fun hi => treeInv_congr hi rfl rfl rfl rfl rfl rfl rfl rfl, fun _ hb => hb, rfl⟩

theorem tree4_valid : tree4.treeValid = true := by decide +kernel
theorem hist_build (s : State) : (after .build s).hist = s.hist := by
  rw [after_eq]
  rfl

theorem codes4_inv : Inv codes4 where
  stream := codes4_stream
  status := ⟨by decide +kernel, by decide +kernel, by decide +kernel, by decide +kernel⟩
  tree := (after_genc tree4_valid).2.2.1 tree4_inv
  fresh := by
    obtain ⟨h1, h2, -, h4, h5⟩ := after_genc tree4_valid
    have hh : codes4.hist = hist4.hist := h2.trans (hist_build hist4)
    refine ⟨fun _ => ?_, fun _ => ⟨h1, _, h5⟩⟩
    rw [hh]
    exact h4 _ (builtFrom_build hist4)

/-- All premises of StreamIsConcatenatedCodes and of DecodeOfEncodedStream, for the input A D. -/
theorem wit_DecodeOfEncodedStream : Inv codes4 ∧ StreamInv codes4 ∧
    (∀ x ∈ [(0x41 : Byte), 0x44], codes4.lenAt x ≠ 0) ∧ codes4.accN = 0 ∧ codes4.outf = [] ∧
    (([(0x41 : Byte), 0x44].flatMap codes4.codeAt).length + 7) / 8 ≤ codes4.cfg.outDepth ∧
    [(0x41 : Byte), 0x44].length ≤ codes4.cfg.outDepth ∧ codes4.codesValid = true :=
  ⟨codes4_inv, codes4_stream, wit_Stream⟩

theorem dec4_inv (inf : List Byte) : TreeInv (dec4 inf) := treeInv_input tree4_inv _ _ _

theorem wit_DecFollowsBitsToLeaf : TreeInv (dec4 [0xFF]) ∧ (dec4 [0xFF]).treeValid = true ∧
    (dec4 [0xFF]).rootValid = true ∧ ((dec4 [0xFF]).nodeOf (dec4 [0xFF]).root).leaf = false ∧
    (dec4 [0xFF]).dcnt.toNat < (dec4 [0xFF]).origLen.toNat ∧
    (dec4 [0xFF]).outf.length ≠ (dec4 [0xFF]).cfg.outDepth ∧
    (dec4 [0xFF]).inBits = [true] ++ List.replicate 7 true ∧
    reaches (dec4 [0xFF]).node (dec4 [0xFF]).decNode [true] 0x41 :=
  ⟨dec4_inv _, by decide +kernel, by decide +kernel, by decide +kernel, by decide +kernel, by decide +kernel,
    by decide +kernel, 0, ⟨by decide +kernel, by show childOf _ true = 0; decide +kernel⟩, by decide +kernel,
    by decide +kernel⟩

/-- One unread bit, a 0, leads from ROOT to the internal node 5. -/
theorem wit_DecStopsForInput :
    TreeInv { dec4 [] with ibits := 1 } ∧ { dec4 [] with ibits := 1 }.treeValid = true ∧
    { dec4 [] with ibits := 1 }.rootValid = true ∧
    (State.nodeOf { dec4 [] with ibits := 1 } { dec4 [] with ibits := 1 }.root).leaf = false ∧
    { dec4 [] with ibits := 1 }.dcnt.toNat < (State.origLen { dec4 [] with ibits := 1 }).toNat ∧
    { dec4 [] with ibits := 1 }.outf.length ≠ { dec4 [] with ibits := 1 }.cfg.outDepth ∧
    leads { dec4 [] with ibits := 1 }.node { dec4 [] with ibits := 1 }.decNode
      (State.inBits { dec4 [] with ibits := 1 }) 5 ∧
    (State.nodeOf { dec4 [] with ibits := 1 } 5).leaf = false :=
  ⟨treeInv_input (dec4_inv []) _ _ 1, by decide +kernel, by decide +kernel, by decide +kernel,
    by decide +kernel, by decide +kernel,
    by
      have : State.inBits { dec4 [] with ibits := 1 } = [false] := by decide +kernel
      rw [this]
      exact ⟨by decide +kernel, by show childOf _ false = 5; decide +kernel⟩,
    by decide +kernel⟩

theorem wit_DecSingleSymbolTree : TreeInv { treeZ with lenLo := 5, inf := [0x80] } ∧ treeZ.treeValid = true ∧
    treeZ.rootValid = true ∧ (treeZ.nodeOf treeZ.root).leaf = true ∧
    treeZ.dcnt.toNat < (State.origLen { treeZ with lenLo := 5 }).toNat ∧ treeZ.outf.length ≠ treeZ.cfg.outDepth ∧
    State.inBits { treeZ with lenLo := 5, inf := [0x80] } = true :: List.replicate 7 false ∧
    State.inBits { treeZ with lenLo := 5 } = [] :=
  ⟨treeInv_input treeZ_inv _ _ _, by decide +kernel, by decide +kernel, by decide +kernel,
    by decide +kernel, by decide +kernel, by decide +kernel, by decide +kernel⟩

theorem wit_DecStopsAtOriginalLength : tree4.treeValid = true ∧ tree4.origLen.toNat ≤ tree4.dcnt.toNat := by
  decide +kernel

theorem wit_DecAcceptsAnyBits : TreeInv (dec4 (List.replicate 32 0)) ∧ tree4.treeValid = true ∧
    tree4.rootValid = true ∧ tree4.dcnt.toNat < (dec4 []).origLen.toNat ∧ tree4.outf.length ≠ tree4.cfg.outDepth ∧
    255 ≤ (dec4 (List.replicate 32 0)).inBits.length :=
  ⟨dec4_inv _, by decide +kernel, by decide +kernel, by decide +kernel, by decide +kernel, by decide +kernel⟩

theorem wit_DecIsResumable : ∃ t, exec .dec (dec4 []) = .next t ∧ t.result = 0x200#32 := ⟨_, rfl, by decide +kernel⟩

/-! Host accesses, each clause at a boundary of its range. -/

/-- The reset state with one access to come. -/
def accessing (a : Access) : State := { State.reset with agenda := [.host a] }

theorem wit_ReadsHaveNoSideEffect : ∀ off ∈ [0x00, 0x18, 0x38, 0x40, 0x50, 0x54, 0xFC],
    (accessing (.read .w32 (State.reset.cfg.base + off))).agenda =
      .host (.read .w32 ((accessing (.read .w32 (State.reset.cfg.base + off))).cfg.base + off)) :: [] ∧
    off % 4 = 0 ∧ off ≤ 0xFC ∧ off ≠ 0x3C := by decide

theorem wit_OutDataReadPops :
    (accessing (.read .w32 0x3C)).agenda = .host (.read .w32 ((accessing (.read .w32 0x3C)).cfg.base + 0x3C)) :: [] ∧
    (accessing (.write .w32 0x3C 1)).agenda =
      .host (.write .w32 ((accessing (.write .w32 0x3C 1)).cfg.base + 0x3C) 1) :: [] ∧
    State.reset.outf = [] ∧ { accessing (.read .w32 0x3C) with outf := [0xFF] }.outf = 0xFF :: [] := by decide

theorem wit_WritesActByOffset : ∀ off ∈ [0x00, 0x08, 0x10, 0x14, 0x20, 0x24, 0x3C, 0x50, 0x54, 0xFC],
    (accessing (.write .w32 off 5)).agenda =
      .host (.write .w32 ((accessing (.write .w32 off 5)).cfg.base + off) 5) :: [] ∧ off % 4 = 0 ∧ off ≤ 0xFC := by
  decide

theorem wit_CmdWriteIssuesOrOverruns :
    (accessing (.write .w32 0x18 1)).agenda =
      .host (.write .w32 ((accessing (.write .w32 0x18 1)).cfg.base + 0x18) 1) :: [] ∧
    (accessing (.write .w32 0x18 1)).busy = false ∧
    { accessing (.write .w32 0x18 1) with busy := true }.busy = true := by decide

theorem wit_InDataWritePushesOrOverflows :
    (accessing (.write .w32 0x38 1)).agenda =
      .host (.write .w32 ((accessing (.write .w32 0x38 1)).cfg.base + 0x38) 1) :: [] ∧
    (accessing (.write .w32 0x38 1)).inf.length < (accessing (.write .w32 0x38 1)).cfg.inDepth ∧
    { accessing (.write .w32 0x38 1) with inf := List.replicate 15 0 }.inf.length <
      { accessing (.write .w32 0x38 1) with inf := List.replicate 15 0 }.cfg.inDepth ∧
    { accessing (.write .w32 0x38 1) with inf := List.replicate 16 0 }.cfg.inDepth ≤
      { accessing (.write .w32 0x38 1) with inf := List.replicate 16 0 }.inf.length := by decide +kernel

/-- Both sides of the equivalence occur: the last admitted offset, and an access of each refused kind. -/
theorem wit_OnlyInadmissibleAccessesAreRefused : Admitted Config.default (.read .w32 0xFC) ∧
    step (accessing (.read .w32 0xFD)) = .refused (.misaligned 0xFD) ∧
    step (accessing (.read .w8 0x0C)) = .refused (.accessWidth .w8) ∧
    step (accessing (.write .w32 0x100 0)) = .refused (.outsideWindow 0x100) :=
  ⟨by simp [Admitted, Config.default], rfl, rfl, rfl⟩

/-- Each pending bit is set by a step of its source, and `irq_out` follows. -/
theorem wit_InterruptBitsAreSetByTheirSources :
    (∃ t, step (State.reset.withFetchWord 32 0) = .next t ∧ t.irq = 0b001) ∧
    (∃ t, step { accessing (.write .w32 0x18 1) with busy := true } = .next t ∧ t.irq = 0b010) ∧
    (∃ t, step { accessing (.write .w32 0x38 1) with inf := List.replicate 16 0 } = .next t ∧ t.irq = 0b100) ∧
    State.irqOut { State.reset with irq := 1, ctrl := 1 } = true :=
  ⟨⟨_, rfl, by decide +kernel⟩, ⟨_, rfl, by decide +kernel⟩, ⟨_, rfl, by decide +kernel⟩, by decide +kernel⟩

theorem wit_PendingCommandEventuallyCompletes :
    { accessing (.read .w32 0x0C) with busy := true }.busy = true ∧
    ∀ t ∈ { accessing (.read .w32 0x0C) with busy := true }.agenda,
      ∃ a, t = .host a ∧ Admitted { accessing (.read .w32 0x0C) with busy := true }.cfg a := by
  refine ⟨rfl, fun t ht => ⟨.read .w32 0x0C, ?_, ?_⟩⟩
  · simpa [accessing] using ht
  · simp [Admitted, accessing, State.reset, State.resetWith, Config.default]

theorem wit_AssemblerAcceptsExactlyTheCommands : (AsmCmd.hrd 256).wf = false ∧ (AsmCmd.hrd 255).wf = true := by decide
theorem wit_MnemonicLineRunsCommand : (State.reset.busy = false ∧ State.reset.agenda = []) ∧
    { State.reset with agenda := [.waitIdle 3] }.agenda = .waitIdle 3 :: [] ∧
    { State.reset with busy := true, agenda := [.waitIdle 3] }.busy = true ∧
    { State.reset with busy := true, agenda := [.waitIdle 0] }.agenda = .waitIdle 0 :: [] := by decide

/-! Reset and the invariants. -/

/-- For ResetRegisterValues and ResetMeetsInvariant. -/
theorem wit_Reset : Config.default.wf = true ∧
    Config.wf { inDepth := 65535, outDepth := 32, base := 0xFFFF00, intOrder := .BE } = true := by decide

theorem wit_HardwareResetRestoresState : { codes4 with busy := true, agenda := [.hwReset] }.agenda = .hwReset :: [] :=
  rfl

/-- `withFetchWord` sets BUSY, PEND_CMD, PEND_ARG and the turn: no invariant but `needInDry` speaks of them. -/
theorem stream_fetch {s : State} (h : StreamInv s) (w : Nat) : StreamInv (s.withFetchWord 32 w) :=
  ⟨h.cfgLegal, h.inFits, h.outFits, h.ibitsLe, h.accLow⟩
theorem status_fetch {s : State} (h : StatusInv s) (w : Nat) : StatusInv (s.withFetchWord 32 w) :=
  ⟨h.codesNeedTree, h.errLegal, h.errResult, h.needInDry⟩
theorem tree_fetch {s : State} (h : TreeInv s) (w : Nat) : TreeInv (s.withFetchWord 32 w) :=
  treeInv_congr h rfl rfl rfl rfl rfl rfl rfl rfl
theorem fresh_fetch {s : State} (h : FreshInv s) (w : Nat) : FreshInv (s.withFetchWord 32 w) :=
  ⟨h.tree, h.codes⟩

/-- For the four StepKeeps… statements: the state of `codes4` with a DEC pending meets all of them and steps. -/
theorem wit_StepKeepsInv : StreamInv (codes4.withFetchWord 32 0x28000000) ∧
    StatusInv (codes4.withFetchWord 32 0x28000000) ∧ TreeInv (codes4.withFetchWord 32 0x28000000) ∧
    FreshInv (codes4.withFetchWord 32 0x28000000) ∧ ∃ t, step (codes4.withFetchWord 32 0x28000000) = .next t :=
  ⟨stream_fetch codes4_inv.stream _, status_fetch codes4_inv.status _, tree_fetch codes4_inv.tree _,
    fresh_fetch codes4_inv.fresh _, _, step_fetch codes4 0x28000000 .dec rfl⟩

theorem sameVisible_unseen {s : State} (hp : Vector NodeIx 256) (w : Word) (h : s.busy = false) :
    SameVisible s { s with heap := hp, pendCmd := w } :=
  ⟨rfl, fun _ _ => rfl, fun _ => rfl, fun hb => by simp [h] at hb⟩

/-- Two states that differ in HEAP and in PEND_CMD. -/
theorem wit_UnspecifiedStateIsUnobservable :
    TreeInv tree4 ∧ TreeInv { tree4 with heap := Vector.replicate 256 7, pendCmd := 1 } ∧
    SameVisible tree4 { tree4 with heap := Vector.replicate 256 7, pendCmd := 1 } ∧
    tree4 ≠ { tree4 with heap := Vector.replicate 256 7, pendCmd := 1 } :=
  ⟨tree4_inv, treeInv_unseen tree4_inv _ _,
    sameVisible_unseen _ _ (by decide +kernel),
    fun h => absurd (congrArg State.pendCmd h) (by decide +kernel)⟩

end Sys2Proof.Tests
end

/-! ## What one step needs to keep a property -/

namespace Sys2Proof.Machine

section

/-- The commands and accesses keep `P`: what has to be shown once for `P` to be kept by every step (00_scope R7;
`StepClosed.step`). Fields the host alone writes, and those of the environment, may take any value. -/
structure StepClosed (P : State → Prop) : Prop where
  host : ∀ (s : State) agenda rdata ctrl irq arg lenLo lenHi pendCmd pendArg busy, P s →
    P { s with
      agenda := agenda, rdata := rdata, ctrl := ctrl, irq := irq, arg := arg, lenLo := lenLo, lenHi := lenHi,
      pendCmd := pendCmd, pendArg := pendArg, busy := busy }
  popOut : ∀ (s : State) b rest, s.outf = b :: rest → P s → P { s with outf := rest }
  pushIn : ∀ (s : State) b, s.inf.length < s.cfg.inDepth → P s → P { s with inf := s.inf ++ [b] }
  fail : ∀ (s : State) e, P s → P (s.fail e)
  succeed : ∀ (i : Instr) (s s' : State) r, P s → execOut i s = .finish r s' → P (s'.succeed r)
  reset : ∀ s : State, P s → P s.hwReset

variable {P : State → Prop} {s s' : State}

/-- Taking a turn off the agenda keeps the property. -/
theorem StepClosed.rest (c : StepClosed P) (h : P s) : P s.rest :=
  c.host s s.agenda.tail s.rdata s.ctrl s.irq s.arg s.lenLo s.lenHi s.pendCmd s.pendArg s.busy h

/-- Recording what the host read keeps the property. -/
theorem StepClosed.record (c : StepClosed P) (h : P s) (agenda : List Turn) (v : Option Word) :
    P { s with agenda := agenda, rdata := v } :=
  c.host s agenda v s.ctrl s.irq s.arg s.lenLo s.lenHi s.pendCmd s.pendArg s.busy h

/-- A completion keeps the property. -/
theorem StepClosed.complete (c : StepClosed P) (h : P s) (i : Instr) : P (complete s (execOut i s)) := by
  obtain ⟨r, s', ho, hc⟩ | ⟨e, -, hc⟩ := complete_cases s (execOut i s)
  · rw [hc]; exact c.succeed i s s' r h ho
  · rw [hc]; exact c.fail s e h

/-- A register read keeps the property. -/
theorem StepClosed.readOff (c : StepClosed P) (h : P s) (off : Nat) : P (readOff off s).2 := by
  obtain he | ⟨b, rest, ho, he⟩ := readOff_state off s
  · rw [he]; exact h
  · rw [he]; exact c.popOut s b rest ho h

/-- A register write keeps the property. -/
theorem StepClosed.writeOff (c : StepClosed P) (h : P s) (off : Nat) (v : Word) : P (writeOff off v s) := by
  have host := fun ctrl irq arg lenLo lenHi pendCmd pendArg busy =>
    c.host s s.agenda s.rdata ctrl irq arg lenLo lenHi pendCmd pendArg busy h
  obtain he | he | he | he | ⟨he, -⟩ | ⟨he, -⟩ | he | he | ⟨he, hl⟩ | ⟨he, -⟩ := writeOff_cases off v s <;> rw [he]
  · exact h
  · exact host _ _ _ _ _ _ _ _
  · exact host _ _ _ _ _ _ _ _
  · exact host _ _ _ _ _ _ _ _
  · exact host _ _ _ _ _ _ _ _
  · exact host _ _ _ _ _ _ _ _
  · exact host _ _ _ _ _ _ _ _
  · exact host _ _ _ _ _ _ _ _
  · exact c.pushIn s _ hl h
  · exact host _ _ _ _ _ _ _ _

/-- What commands and accesses keep, every step keeps. -/
theorem StepClosed.step (c : StepClosed P) (h : P s) (hs : step s = .next s') : P s' := by
  obtain ⟨i, -, -, -, -, he⟩ | ⟨-, -, -, -, -, rfl⟩ | ⟨-, -, -, rfl⟩ | ⟨-, -, -, off, -, -, rfl⟩ |
    ⟨-, -, v, -, off, -, -, rfl⟩ | ⟨-, -, -, rfl⟩ | ⟨-, rfl⟩ := step_cases hs
  · rw [exec_next_iff.1 he]; exact c.complete (c.rest h) i
  · exact c.fail _ _ (c.rest h)
  · exact c.rest h
  · exact c.record (c.readOff (c.rest h) off) _ _
  · exact c.writeOff (c.rest h) off v
  · exact c.record h _ _
  · exact c.reset _ (c.rest h)

/-! ## What a command that succeeds does to the streams -/

/-- `t` has the stream state of `s`: FIFOs, packer, unpacker and byte counters. -/
structure SameStream (s t : State) : Prop where
  cfg : t.cfg = s.cfg
  acc : t.acc = s.acc
  accN : t.accN = s.accN
  ibits : t.ibits = s.ibits
  needIn : t.needIn = s.needIn
  inf : t.inf = s.inf
  outf : t.outf = s.outf
  dcnt : t.dcnt = s.dcnt
  otot : t.otot = s.otot

theorem SameStream.refl (s : State) : SameStream s s := ⟨rfl, rfl, rfl, rfl, rfl, rfl, rfl, rfl, rfl⟩

/-- ENC that succeeds appends the code, whose bytes fit OUTF (44_packer R180). -/
theorem encOut_finish {sym : Byte} {r : Word} (h : encOut sym s = .finish r s') :
    s.outf.length + s.encBytes sym ≤ s.cfg.outDepth ∧ s' = appendBits s (s.codeAt sym) := by
  unfold encOut at h
  split at h <;> [cases h; skip]
  split at h <;> [cases h; skip]
  split at h <;> [cases h; skip]
  rename_i hfit
  cases h
  exact ⟨Nat.le_of_not_lt hfit, rfl⟩

/-- FLUSH that succeeds finds nothing in ACC, or pushes it into a FIFO that is not full (44_packer R182). -/
theorem flushOut_finish {r : Word} (h : flushOut s = .finish r s') :
    s' = s ∨ (s.outf.length ≠ s.cfg.outDepth ∧ s' = { s.pushOut s.acc with acc := 0, accN := 0 }) := by
  unfold flushOut at h
  split at h
  · cases h; exact .inl rfl
  · split at h <;> cases h
    rename_i hfull
    exact .inr ⟨hfull, rfl⟩

/-- The walk of a DEC in state `s` (45_unpacker R200). -/
def State.walk (s : State) : WalkEnd := walkInput s.node s.inf s.ibuf s.ibits.toNat s.decNode

/-- DEC that succeeds is done already, runs out of input, or emits one symbol into a FIFO that is not full
(45_unpacker R200). -/
theorem decOut_finish {r : Word} (h : decOut s = .finish r s') :
    s' = { s with needIn := false } ∨
    (s.rootValid = true ∧ s.walk.sym = none ∧ s' = { s.withWalk s.walk with needIn := true }) ∨
    (s.rootValid = true ∧ s.outf.length ≠ s.cfg.outDepth ∧ ∃ sym, s.walk.sym = some sym ∧
      s' = { s.withWalk s.walk with
        needIn := false, outf := s.outf ++ [sym], otot := s.otot + 1, dcnt := s.dcnt + 1, decNode := s.root }) := by
  rw [decOut_eq] at h
  split at h <;> [cases h; skip]
  split at h <;> [(cases h; exact .inl rfl); skip]
  split at h <;> [cases h; skip]
  split at h <;> [cases h; skip]
  rename_i hroot hfull
  have hroot : s.rootValid = true := by simpa using hroot
  split at h
  · rename_i hsym
    cases h
    exact .inr (.inl ⟨hroot, hsym, rfl⟩)
  · rename_i sym hsym
    cases h
    exact .inr (.inr ⟨hroot, hfull, sym, hsym, rfl⟩)

/-- A command that succeeds leaves the streams alone, or is one of the five that do not. -/
theorem execOut_stream {i : Instr} {r : Word} (h : execOut i s = .finish r s') :
    SameStream s s' ∨ (i = .srst ∧ s' = s.softReset) ∨ (i = .sclr ∧ s' = s.clearStream) ∨
    (∃ sym, i = .enc sym ∧ encOut sym s = .finish r s') ∨ (i = .flush ∧ flushOut s = .finish r s') ∨
    (i = .dec ∧ decOut s = .finish r s') := by
  cases i with
  | srst => cases h; exact .inr (.inl ⟨rfl, rfl⟩)
  | sclr => cases h; exact .inr (.inr (.inl ⟨rfl, rfl⟩))
  | enc sym => exact .inr (.inr (.inr (.inl ⟨sym, rfl, h⟩)))
  | flush => exact .inr (.inr (.inr (.inr (.inl ⟨rfl, h⟩))))
  | dec => exact .inr (.inr (.inr (.inr (.inr ⟨rfl, h⟩))))
  | nop | hrd _ | nrd _ _ => cases h; exact .inl (.refl _)
  | hclr | hwr _ | build => cases h; exact .inl ⟨rfl, rfl, rfl, rfl, rfl, rfl, rfl, rfl, rfl⟩
  | clen _ | cbits _ _ =>
    simp only [execOut] at h
    split at h <;> cases h
    exact .inl (.refl _)
  | genc =>
    simp only [execOut, gencOut] at h
    split at h <;> cases h
    exact .inl ⟨rfl, rfl, rfl, rfl, rfl, rfl, rfl, rfl, rfl⟩

/-! ## The ends of DEC's walk -/

/-- DEC's walk leaves at most 8 bits in IBUF if it found no more, and no more input bytes than it found; if it stops for
lack of input no bit is left (45_unpacker R201, R202). -/
theorem walkInput_bounds (arena : Vector Node 511) (inf : List Byte) (ibuf : Byte) (ibits : Nat) (n : NodeIx) :
    (walkInput arena inf ibuf ibits n).ibits ≤ max ibits 8 ∧
    (walkInput arena inf ibuf ibits n).inf.length ≤ inf.length ∧
    ((walkInput arena inf ibuf ibits n).sym = none → (walkInput arena inf ibuf ibits n).ibits = 0) := by
  cases hl : (nodeAt arena n).leaf with
  | false =>
    obtain ⟨-, -, -, hbits, hinf, ⟨hsym, -⟩ | ⟨-, -, hdry, -⟩⟩ := walkInput_spec arena inf ibuf ibits n hl
    · exact ⟨hbits, hinf, fun hn => by rw [hsym] at hn; cases hn⟩
    · exact ⟨hbits, hinf, fun _ => hdry⟩
  | true =>
    rw [walkInput_leaf arena n hl]
    cases ibits with
    | succ k => exact ⟨by simp only; omega, Nat.le_refl _, nofun⟩
    | zero =>
      cases inf with
      | nil => exact ⟨Nat.zero_le _, Nat.le_refl _, fun _ => rfl⟩
      | cons b rest => exact ⟨by simp only; omega, Nat.le_succ _, nofun⟩

/-! ## FIFOs, IBITS and ACC (10_state R42, R43, R45) -/

/-- `StreamInv` speaks of these fields only. -/
theorem StreamInv.congr {t : State} (h : StreamInv s) (g : SameStream s t) : StreamInv t := by
  obtain ⟨h1, h2, h3, h4, h5⟩ := h
  obtain ⟨g1, g2, g3, g4, -, g6, g7, -, -⟩ := g
  rw [← g1] at h1
  rw [← g6, ← g1] at h2
  rw [← g7, ← g1] at h3
  rw [← g4] at h4
  rw [← g2, ← g3] at h5
  exact ⟨h1, h2, h3, h4, h5⟩

/-- ENC keeps OUTF within its capacity and the unfilled bits of ACC 0 (44_packer R180). -/
theorem StreamInv.enc {sym : Byte} {r : Word} (h : StreamInv s) (ho : encOut sym s = .finish r s') : StreamInv s' := by
  obtain ⟨hfit, rfl⟩ := encOut_finish ho
  obtain ⟨bytes, ha⟩ := appendBits_spec (s.codeAt sym) s h.accLow
  have hlen : bytes.length = s.encBytes sym := by
    rw [ha.counts.1, State.encBytes, State.codeAt, List.length_map, List.length_range]
  have hout : (appendBits s (s.codeAt sym)).outf.length ≤ s.cfg.outDepth := by
    rw [ha.outf, List.length_append, hlen]; exact hfit
  have hlow := ha.low
  rw [ha.frame] at hout hlow ⊢
  exact ⟨h.cfgLegal, h.inFits, hout, h.ibitsLe, hlow⟩

/-- FLUSH empties ACC into a FIFO that is not full (44_packer R182). -/
theorem StreamInv.flush {r : Word} (h : StreamInv s) (ho : flushOut s = .finish r s') : StreamInv s' := by
  obtain rfl | ⟨hfull, rfl⟩ := flushOut_finish ho
  · exact h
  · have hout : (s.outf ++ [s.acc]).length ≤ s.cfg.outDepth := by
      have := h.outFits
      rw [List.length_append, List.length_singleton]; omega
    exact ⟨h.cfgLegal, h.inFits, hout, h.ibitsLe, fun i _ => by simp⟩

/-- What the walk leaves of the input meets the bounds (45_unpacker R200, R201). -/
theorem StreamInv.withWalk (h : StreamInv s) : StreamInv (s.withWalk s.walk) := by
  obtain ⟨hbits, hinf, -⟩ := walkInput_bounds s.node s.inf s.ibuf s.ibits.toNat s.decNode
  have hle := h.ibitsLe
  have hb : (BitVec.ofNat 4 s.walk.ibits).toNat ≤ 8 := by
    rw [BitVec.toNat_ofNat]; exact (Nat.mod_le _ _).trans (by unfold State.walk; omega)
  exact ⟨h.cfgLegal, hinf.trans h.inFits, h.outFits, hb, h.accLow⟩

/-- DEC pushes one byte at most, into a FIFO that is not full (45_unpacker R200). -/
theorem StreamInv.dec {r : Word} (h : StreamInv s) (ho : decOut s = .finish r s') : StreamInv s' := by
  have hw := h.withWalk
  obtain rfl | ⟨-, -, rfl⟩ | ⟨-, hfull, sym, -, rfl⟩ := decOut_finish ho
  · exact ⟨h.cfgLegal, h.inFits, h.outFits, h.ibitsLe, h.accLow⟩
  · exact ⟨hw.cfgLegal, hw.inFits, hw.outFits, hw.ibitsLe, hw.accLow⟩
  · have hout : (s.outf ++ [sym]).length ≤ s.cfg.outDepth := by
      have := h.outFits
      rw [List.length_append, List.length_singleton]; omega
    exact ⟨hw.cfgLegal, hw.inFits, hout, hw.ibitsLe, hw.accLow⟩

/-- Empty streams meet the bounds. -/
theorem StreamInv.of_empty (hcfg : s.cfg.wf = true) (hinf : s.inf = []) (houtf : s.outf = []) (hbits : s.ibits = 0)
    (hacc : s.acc = 0) : StreamInv s :=
  ⟨hcfg, by simp [hinf], by simp [houtf], by simp [hbits], fun i _ => by simp [hacc]⟩

/-- Commands, accesses and resets keep the stream invariant. -/
theorem streamInv_closed : StepClosed StreamInv where
  host s _ _ _ _ _ _ _ _ _ _ h := ⟨h.cfgLegal, h.inFits, h.outFits, h.ibitsLe, h.accLow⟩
  popOut s b rest ho h := by
    have hout := h.outFits
    rw [ho] at hout
    exact ⟨h.cfgLegal, h.inFits, Nat.le_of_succ_le hout, h.ibitsLe, h.accLow⟩
  pushIn s b hl h := ⟨h.cfgLegal, by simpa using hl, h.outFits, h.ibitsLe, h.accLow⟩
  fail s e h := h.congr ⟨rfl, rfl, rfl, rfl, rfl, rfl, rfl, rfl, rfl⟩
  reset s h := .of_empty h.cfgLegal rfl rfl rfl rfl
  succeed i s s' r h ho := by
    suffices hs : StreamInv s' from hs.congr ⟨rfl, rfl, rfl, rfl, rfl, rfl, rfl, rfl, rfl⟩
    obtain hsame | ⟨-, rfl⟩ | ⟨-, rfl⟩ | ⟨sym, -, henc⟩ | ⟨-, hflush⟩ | ⟨-, hdec⟩ := execOut_stream ho
    · exact h.congr hsame
    · exact .of_empty h.cfgLegal rfl rfl rfl rfl
    · exact .of_empty h.cfgLegal rfl rfl rfl rfl
    · exact h.enc henc
    · exact h.flush hflush
    · exact h.dec hdec

end

/-- Settles O56: commands, accesses and resets each keep the invariant, so every step does. -/
theorem stepKeepsStreamInv : Obligations.StepKeepsStreamInv := by
  unfold Obligations.StepKeepsStreamInv
  exact fun _ _ h hs => streamInv_closed.step h hs

end Sys2Proof.Machine

/-! ## Status (10_state R27, R39; 45_unpacker R201) -/

namespace Sys2Proof.Machine

section
variable {s s' : State}

/-- After a command that succeeds, CODES_VALID needs TREE_VALID if it did before (10_state R39). -/
theorem execOut_codesNeedTree {i : Instr} {r : Word} (h : s.codesValid = true → s.treeValid = true)
    (ho : execOut i s = .finish r s') : s'.codesValid = true → s'.treeValid = true := by
  cases i with
  | srst | hclr | hwr _ => cases ho; exact nofun
  | build => cases ho; exact nofun
  | genc =>
    simp only [execOut, gencOut] at ho
    split at ho <;> cases ho
    rename_i hv
    exact fun _ => by simpa using hv
  | _ =>
    obtain ⟨-, ht⟩ := execOut_tables ho nofun nofun
    obtain ⟨-, hv, hc⟩ := ht nofun nofun
    rw [hv, (hc nofun).1]; exact h

/-- After a command that succeeds, NEED_IN is set only with IBUF used up (45_unpacker R201). -/
theorem execOut_needInDry {i : Instr} {r : Word} (h : s.needIn = true → s.ibits = 0)
    (ho : execOut i s = .finish r s') : s'.needIn = true → s'.ibits = 0 := by
  obtain hsame | ⟨-, rfl⟩ | ⟨-, rfl⟩ | ⟨sym, -, henc⟩ | ⟨-, hflush⟩ | ⟨-, hdec⟩ := execOut_stream ho
  · rw [hsame.needIn, hsame.ibits]; exact h
  · exact nofun
  · exact nofun
  · obtain ⟨-, rfl⟩ := encOut_finish henc
    obtain ⟨_, _, _, he⟩ := appendBits_frame (s.codeAt sym) s
    rw [he]; exact h
  · obtain rfl | ⟨-, rfl⟩ := flushOut_finish hflush <;> exact h
  · obtain rfl | ⟨-, hnone, rfl⟩ | ⟨-, -, sym, -, rfl⟩ := decOut_finish hdec
    · exact nofun
    · have hdry : s.walk.ibits = 0 := (walkInput_bounds _ _ _ _ _).2.2 hnone
      intro _
      exact congrArg (BitVec.ofNat 4) hdry
    · exact nofun

/-- The error codes are those of 60_exceptions R220. -/
theorem CmdError.code_le (e : CmdError) : e.code.toNat ≤ 6 := by cases e <;> decide

/-- Commands, accesses and resets keep the status invariant. -/
theorem statusInv_closed : StepClosed StatusInv where
  host _ _ _ _ _ _ _ _ _ _ _ h := ⟨h.codesNeedTree, h.errLegal, h.errResult, h.needInDry⟩
  popOut _ _ _ _ h := ⟨h.codesNeedTree, h.errLegal, h.errResult, h.needInDry⟩
  pushIn _ _ _ h := ⟨h.codesNeedTree, h.errLegal, h.errResult, h.needInDry⟩
  fail _ e h := ⟨h.codesNeedTree, e.code_le, fun _ => rfl, h.needInDry⟩
  reset _ _ := ⟨nofun, Nat.zero_le _, fun _ => rfl, nofun⟩
  succeed _ _ s' _ h ho :=
    { codesNeedTree := execOut_codesNeedTree (s' := s') h.codesNeedTree ho
      errLegal := Nat.zero_le _
      errResult := fun he => absurd rfl he
      needInDry := execOut_needInDry (s' := s') h.needInDry ho }

end

/-- Settles O57: commands, accesses and resets each keep the invariant, so every step does. -/
theorem stepKeepsStatusInv : Obligations.StepKeepsStatusInv := by
  unfold Obligations.StepKeepsStatusInv
  exact fun _ _ h hs => statusInv_closed.step h hs

/-! ## The tree in the arena (10_state R33, R36, R38, R44) -/

section
variable {s s' : State}

/-- `t` has the tree of `s`: arena and tree registers, HEAP_N. -/
structure SameTree (s t : State) : Prop where
  node : t.node = s.node
  nodeCnt : t.nodeCnt = s.nodeCnt
  root : t.root = s.root
  rootValid : t.rootValid = s.rootValid
  heapN : t.heapN = s.heapN

/-- Every command but BUILD and SRST that succeeds leaves the tree alone (10_state R34). -/
theorem execOut_sameTree {i : Instr} {r : Word} (ho : execOut i s = .finish r s') (hi : i ≠ .srst) (hb : i ≠ .build) :
    SameTree s s' := by
  obtain ⟨⟨h1, h2, h3, h4, h5⟩, -⟩ := execOut_tables ho hi hb
  exact ⟨h1, h2, h3, h4, h5⟩

/-- DEC_NODE is ROOT or an internal node of the tree (10_state R44). -/
def State.DecNodeOk (s : State) (n : NodeIx) : Prop :=
  n = s.root ∨ (n.toNat < s.nodeCnt.toNat ∧ (s.nodeOf n).leaf = false)

/-- A state with the same tree and counters meets the tree invariant too, if TREE_VALID is not newly set and DEC_NODE is
where it may be. -/
theorem TreeInv.congr {t : State} (h : TreeInv s) (g : SameTree s t)
    (hv : t.treeValid = true → s.treeValid = true ∧ t.hist = s.hist) (hd : s.DecNodeOk t.decNode) : TreeInv t := by
  obtain ⟨k, hshape, hvalid, hroot, hleaves⟩ := h.tree
  obtain ⟨g1, g2, g3, g4, g5⟩ := g
  refine ⟨g5.trans h.heapEmpty, ⟨k, by rw [g1, g2]; exact hshape, g4.trans hvalid, by rw [g3, g2]; exact hroot, ?_⟩, ?_⟩
  · intro hval
    obtain ⟨hs, hh⟩ := hv hval
    rw [g1, hh]; exact hleaves hs
  · rw [State.nodeOf, g1, g2, g3]; exact hd

/-- A state whose tree registers, counters and valid bit are all those of `s`. -/
theorem TreeInv.same {t : State} (h : TreeInv s) (g : SameTree s t) (hv : t.treeValid = s.treeValid)
    (hh : t.hist = s.hist) (hd : t.decNode = s.decNode) : TreeInv t :=
  h.congr g (fun ht => ⟨hv ▸ ht, hh⟩) (hd ▸ h.decNode)

/-- With no tree ROOT is 0, so it is what SCLR puts in DEC_NODE (40_control R112). -/
theorem TreeInv.root_eq (h : TreeInv s) : (if s.rootValid then s.root else 0) = s.root := by
  obtain ⟨k, hshape, hvalid, hroot, -⟩ := h.tree
  split
  · rfl
  · rename_i hr
    have hk : k = 0 := by simpa [hvalid] using hr
    have hc := hshape.count
    exact BitVec.eq_of_toNat_eq (by rw [hroot, hc, hk]; rfl)

/-- With a root, DEC_NODE is an allocated node. -/
theorem TreeInv.decNode_lt (h : TreeInv s) (hr : s.rootValid = true) : s.decNode.toNat < s.nodeCnt.toNat := by
  obtain ⟨k, hshape, hvalid, hroot, -⟩ := h.tree
  have hk : 0 < k := by simpa [hvalid] using hr
  have hc := hshape.count
  obtain he | ⟨hlt, -⟩ := h.decNode
  · rw [he]; omega
  · exact hlt

/-- A walk that runs out of input stops at the root or at an internal node (45_unpacker R201, R202). -/
theorem TreeInv.walk_node (h : TreeInv s) (hr : s.rootValid = true) (hn : s.walk.sym = none) :
    s.DecNodeOk s.walk.node := by
  have hlt := h.decNode_lt hr
  obtain ⟨k, hshape, -, -, -⟩ := h.tree
  cases hl : (s.nodeOf s.decNode).leaf with
  | false =>
    obtain ⟨p, hlead, -, -, -, ⟨hsym, -⟩ | ⟨-, hleaf, -, -⟩⟩ :=
      walkInput_spec s.node s.inf s.ibuf s.ibits.toNat s.decNode hl
    · rw [State.walk, hsym] at hn; cases hn
    · exact .inr ⟨Nat.lt_of_le_of_lt (hshape.leads_bound hlt hlead).1 hlt, hleaf⟩
  | true =>
    have hroot : s.decNode = s.root := h.decNode.resolve_right fun hd => by rw [hl] at hd; cases hd.2
    have hnode : s.walk.node = s.decNode := by
      rw [State.walk, walkInput_leaf _ _ hl]
      split <;> rfl
    exact .inl (hnode.trans hroot)

/-- A DEC that succeeds leaves DEC_NODE at ROOT or at an internal node (10_state R44). -/
theorem TreeInv.dec_decNode (h : TreeInv s) {r : Word} (ho : decOut s = .finish r s') : s.DecNodeOk s'.decNode := by
  obtain rfl | ⟨hr, hn, rfl⟩ | ⟨-, -, sym, -, rfl⟩ := decOut_finish ho
  · exact h.decNode
  · exact h.walk_node hr hn
  · exact .inl rfl

/-- A command other than BUILD, SRST, SCLR and DEC that succeeds leaves DEC_NODE alone. -/
theorem execOut_decNode {i : Instr} {r : Word} (ho : execOut i s = .finish r s') (hsrst : i ≠ .srst) (hb : i ≠ .build)
    (hsclr : i ≠ .sclr) (hdec : i ≠ .dec) : s'.decNode = s.decNode := by
  cases i with
  | srst | build | sclr | dec => contradiction
  | nop | hrd _ | nrd _ _ | hclr | hwr _ => cases ho; rfl
  | clen _ | cbits _ _ =>
    simp only [execOut] at ho
    split at ho <;> cases ho
    rfl
  | genc =>
    simp only [execOut, gencOut] at ho
    split at ho <;> cases ho
    rfl
  | enc sym =>
    obtain ⟨-, rfl⟩ := encOut_finish ho
    obtain ⟨_, _, _, he⟩ := appendBits_frame (s.codeAt sym) s
    rw [he]
  | flush => obtain rfl | ⟨-, rfl⟩ := flushOut_finish ho <;> rfl

/-- Where a command other than BUILD and SRST leaves DEC_NODE (10_state R44). -/
theorem TreeInv.exec_decNode (h : TreeInv s) {i : Instr} {r : Word} (ho : execOut i s = .finish r s')
    (hsrst : i ≠ .srst) (hb : i ≠ .build) : s.DecNodeOk s'.decNode := by
  by_cases hdec : i = .dec
  · subst hdec; exact h.dec_decNode ho
  · by_cases hsclr : i = .sclr
    · subst hsclr; cases ho; exact .inl h.root_eq
    · rw [execOut_decNode ho hsrst hb hsclr hdec]; exact h.decNode

/-- After a command other than BUILD and SRST that succeeds, TREE_VALID is set only if it was, and HIST has not changed
then (10_state R38). -/
theorem execOut_treeValid {i : Instr} {r : Word} (ho : execOut i s = .finish r s') (hsrst : i ≠ .srst)
    (hb : i ≠ .build) : s'.treeValid = true → s.treeValid = true ∧ s'.hist = s.hist := by
  cases i with
  | hclr | hwr _ => cases ho; exact nofun
  | _ =>
    obtain ⟨hh, hv, -⟩ := (execOut_tables ho hsrst hb).2 nofun nofun
    rw [hv]; exact fun ht => ⟨ht, hh⟩

/-- No nodes are a tree of no leaves (10_state R33). -/
theorem treeShape_empty (arena : Vector Node 511) : TreeShape arena 0 0 where
  count := rfl
  small := Nat.zero_le _
  leaves := nofun
  internals := nofun
  freqs := nofun
  parents := by simp [childList]
  order := nofun

/-- The empty tree meets the tree invariant. -/
theorem TreeInv.of_empty (hheap : s.heapN = 0) (hcnt : s.nodeCnt = 0) (hroot : s.root = 0) (hv : s.rootValid = false)
    (ht : s.treeValid = false) (hd : s.decNode = 0) : TreeInv s := by
  refine ⟨hheap, ⟨0, ?_, by simpa using hv, by rw [hroot, hcnt]; rfl, fun h => ?_⟩, .inl (hd.trans hroot.symm)⟩
  · rw [hcnt]; exact treeShape_empty _
  · rw [ht] at h; cases h

/-- Commands, accesses and resets keep the tree invariant. -/
theorem treeInv_closed : StepClosed TreeInv where
  host s _ _ _ _ _ _ _ _ _ _ h := h.same ⟨rfl, rfl, rfl, rfl, rfl⟩ rfl rfl rfl
  popOut s _ _ _ h := h.same ⟨rfl, rfl, rfl, rfl, rfl⟩ rfl rfl rfl
  pushIn s _ _ h := h.same ⟨rfl, rfl, rfl, rfl, rfl⟩ rfl rfl rfl
  fail s e h := h.same ⟨rfl, rfl, rfl, rfl, rfl⟩ rfl rfl rfl
  reset s _ := .of_empty rfl rfl rfl rfl rfl rfl
  succeed i s s' r h ho := by
    suffices hs : TreeInv s' from hs.same ⟨rfl, rfl, rfl, rfl, rfl⟩ rfl rfl rfl
    by_cases hsrst : i = .srst
    · subst hsrst; cases ho; exact .of_empty rfl rfl rfl rfl rfl rfl
    · by_cases hb : i = .build
      · subst hb; cases ho; exact treeInv_withTree s
      · exact h.congr (execOut_sameTree ho hsrst hb) (execOut_treeValid ho hsrst hb) (h.exec_decNode ho hsrst hb)

end

/-- Settles O58: commands, accesses and resets each keep the invariant, so every step does. -/
theorem stepKeepsTreeInv : Obligations.StepKeepsTreeInv := by
  unfold Obligations.StepKeepsTreeInv
  exact fun _ _ h hs => treeInv_closed.step h hs

/-! ## No stale table is valid (10_state R38, R39; 70_reset R261) -/

section
variable {s s' : State}

/-- The table GENC derives depends on the tree and on CODE_BITS only (43_code_table R160, R161). -/
theorem genCodes_congr {t : State} (hnode : t.node = s.node) (hroot : t.root = s.root)
    (hv : t.rootValid = s.rootValid) (hbits : t.codeBits = s.codeBits) : t.genCodes = s.genCodes := by
  unfold State.genCodes State.nodeOf
  rw [hnode, hroot, hv, hbits]

/-- A state with the same tree, whose valid bits are not newly set and whose counters and code table are the same while
they are set, has no stale table either. -/
theorem FreshInv.congr {t : State} (h : FreshInv s) (g : SameTree s t)
    (hv : t.treeValid = true → s.treeValid = true ∧ t.hist = s.hist)
    (hc : t.codesValid = true →
      s.codesValid = true ∧ t.treeValid = s.treeValid ∧ t.codeLen = s.codeLen ∧ t.codeBits = s.codeBits) :
    FreshInv t := by
  obtain ⟨g1, g2, g3, g4, -⟩ := g
  constructor
  · intro ht
    obtain ⟨hs, hh⟩ := hv ht
    obtain ⟨b0, e1, e2, e3, e4⟩ := h.tree hs
    rw [hh]
    exact ⟨b0, g1.trans e1, g2.trans e2, g3.trans e3, g4.trans e4⟩
  · intro ht
    obtain ⟨hs, hval, hlen, hbits⟩ := hc ht
    obtain ⟨htree, bits0, he⟩ := h.codes hs
    refine ⟨hval.trans htree, bits0, ?_⟩
    rw [hlen, hbits, ← he]
    exact genCodes_congr g1 g3 g4 rfl

/-- GENC leaves the table it derives from the tree (43_code_table R160). -/
theorem FreshInv.genc (h : FreshInv s) {r : Word} (ho : gencOut s = .finish r s') : FreshInv s' := by
  unfold gencOut at ho
  split at ho <;> cases ho
  rename_i hv
  have hv : s.treeValid = true := by simpa using hv
  exact ⟨h.tree, fun _ => ⟨hv, s.codeBits, rfl⟩⟩

/-- No table is stale when none is valid. -/
theorem FreshInv.of_invalid (ht : s.treeValid = false) (hc : s.codesValid = false) : FreshInv s :=
  ⟨fun h => absurd h (by simp [ht]), fun h => absurd h (by simp [hc])⟩

/-- Commands, accesses and resets keep the tables fresh. -/
theorem freshInv_closed : StepClosed FreshInv where
  host s _ _ _ _ _ _ _ _ _ _ h := ⟨h.tree, h.codes⟩
  popOut s _ _ _ h := ⟨h.tree, h.codes⟩
  pushIn s _ _ h := ⟨h.tree, h.codes⟩
  fail s e h := ⟨h.tree, h.codes⟩
  reset s _ := .of_invalid rfl rfl
  succeed i s s' r h ho := by
    suffices hs : FreshInv s' from ⟨hs.tree, hs.codes⟩
    cases i with
    | srst | hclr | hwr _ => cases ho; exact .of_invalid rfl rfl
    | build => cases ho; exact ⟨fun _ => ⟨s.builder, rfl, rfl, rfl, rfl⟩, nofun⟩
    | genc => exact h.genc ho
    | _ =>
      obtain ⟨hh, hv, ht⟩ := (execOut_tables ho nofun nofun).2 nofun nofun
      obtain ⟨hc, hlen, hbits⟩ := ht nofun
      exact h.congr (execOut_sameTree ho nofun nofun) (fun hs => ⟨hv ▸ hs, hh⟩)
        fun hs => ⟨hc ▸ hs, hv, hlen, hbits⟩

end

/-- Settles O59: commands, accesses and resets each keep the invariant, so every step does. -/
theorem stepKeepsFreshInv : Obligations.StepKeepsFreshInv := by
  unfold Obligations.StepKeepsFreshInv
  exact fun _ _ h hs => freshInv_closed.step h hs

end Sys2Proof.Machine

/-! ## Registers, field by field (10_state R22 to R30) -/

namespace Sys2Proof.Machine

/-- The flags of STATUS, bit 0 first (10_state R25). -/
def State.statusFlags (s : State) : List Bool :=
  [s.busy, s.treeValid, s.codesValid, s.decDone, s.needIn, s.inFull, s.inEmpty, s.outFull, s.outEmpty]

/-- STATUS bit by bit: the flags, then ERR from bit 16 (10_state R25). -/
theorem getLsbD_status (s : State) (i : Nat) :
    s.status.getLsbD i = (s.statusFlags.getD i false || !decide (i < 16) && s.err.getLsbD (i - 16)) := by
  simp only [State.status, BitVec.getLsbD_or, getLsbD_flag, BitVec.getLsbD_shiftLeft, BitVec.getLsbD_setWidth]
  by_cases h9 : i < 9
  · interval_cases i <;> simp [State.statusFlags]
  · have hflags : s.statusFlags.getD i false = false := List.getD_eq_default _ _ (Nat.le_of_not_lt h9)
    have hne : ∀ j, j ≤ 8 → j ≠ i := fun j hj => by omega
    have herr : 32 ≤ i → s.err.getLsbD (i - 16) = false := fun h => BitVec.getLsbD_of_ge _ _ (by omega)
    rw [hflags]
    by_cases h32 : i < 32
    · simp [hne, h32, show i - 16 < 32 by omega]
    · simp [hne, herr (by omega)]

/-- STATUS has no flag from bit 9 on. -/
theorem statusFlags_getD_of_ge (s : State) {i : Nat} (h : 9 ≤ i) : s.statusFlags.getD i false = false :=
  List.getD_eq_default _ _ h

/-- STATUS.DEC_DONE compares naturals (10_state R25). -/
theorem decDone_eq (s : State) : s.decDone = decide (s.origLen.toNat ≤ s.dcnt.toNat) := rfl

/-- STATUS.IN_EMPTY (10_state R25). -/
theorem inEmpty_eq (s : State) : s.inEmpty = s.inf.isEmpty := by
  cases h : s.inf <;> simp [State.inEmpty, h]

/-- STATUS.OUT_EMPTY (10_state R25). -/
theorem outEmpty_eq (s : State) : s.outEmpty = s.outf.isEmpty := by
  cases h : s.outf <;> simp [State.outEmpty, h]

/-- The fields of STATUS above the flags (10_state R25). -/
theorem extract_status (s : State) :
    s.status.extractLsb' 9 7 = 0 ∧ s.status.extractLsb' 16 8 = s.err ∧ s.status.extractLsb' 24 8 = 0 := by
  have hfield : ∀ {lo i : Nat}, 9 ≤ lo → (s.status.getLsbD (lo + i)) =
      (!decide (lo + i < 16) && s.err.getLsbD (lo + i - 16)) := fun hlo => by
    rw [getLsbD_status, statusFlags_getD_of_ge s (by omega), Bool.false_or]
  refine ⟨BitVec.eq_of_getLsbD_eq fun i hi => ?_, BitVec.eq_of_getLsbD_eq fun i hi => ?_,
    BitVec.eq_of_getLsbD_eq fun i hi => ?_⟩ <;>
    rw [BitVec.getLsbD_extractLsb', hfield (by omega)]
  · simp; omega
  · simp [hi]
  · simp [BitVec.getLsbD_of_ge s.err (24 + i - 16) (by omega)]

/-- Settles O43, bit by bit with `getLsbD_status`. -/
theorem statusReadsItsFields : Obligations.StatusReadsItsFields := by
  unfold Obligations.StatusReadsItsFields
  intro s
  obtain ⟨hlow, herr, hhigh⟩ := extract_status s
  refine ⟨rfl, ?_, ?_, ?_, ?_, ?_, ?_, ?_, ?_, ?_, hlow, herr, hhigh⟩ <;>
    rw [getLsbD_status] <;>
    simp [State.statusFlags, decDone_eq, State.inFull, inEmpty_eq, State.outFull, outEmpty_eq]

/-- A register put together from its low and its high word reads the 64-bit counter (10_state R27). -/
theorem high_append_low (v : BitVec 64) : v.extractLsb' 32 32 ++ v.extractLsb' 0 32 = v := by
  apply BitVec.eq_of_getLsbD_eq
  intro i hi
  rw [BitVec.getLsbD_append, BitVec.getLsbD_extractLsb', BitVec.getLsbD_extractLsb']
  by_cases h : i < 32
  · simp [h]
  · simp [h, show i - 32 < 32 by omega, show 32 + (i - 32) = i by omega]

/-- TREE_INFO is the fields of 10_state R28 side by side. -/
theorem treeInfo_eq (s : State) :
    s.treeInfo = BitVec.ofBool s.rootValid ++ 0#6 ++ s.root ++ 0#6 ++ s.nodeCnt := by
  apply BitVec.eq_of_getLsbD_eq
  intro i hi
  simp only [State.treeInfo, BitVec.getLsbD_or, BitVec.getLsbD_shiftLeft, BitVec.getLsbD_setWidth, getLsbD_flag,
    BitVec.getLsbD_append, BitVec.getLsbD_ofBool, BitVec.getLsbD_zero]
  interval_cases i <;> simp

/-- PACK_STATE is the fields of 10_state R29 side by side. -/
theorem packState_eq (s : State) :
    s.packState = 0#4 ++ s.ibits ++ s.ibuf ++ 0#5 ++ s.accN ++ s.acc := by
  apply BitVec.eq_of_getLsbD_eq
  intro i hi
  simp only [State.packState, BitVec.getLsbD_or, BitVec.getLsbD_shiftLeft, BitVec.getLsbD_setWidth,
    BitVec.getLsbD_append, BitVec.getLsbD_zero]
  interval_cases i <;> simp

/-- Settles O44: each register is its fields side by side. -/
theorem registersReadTheirFields : Obligations.RegistersReadTheirFields := by
  unfold Obligations.RegistersReadTheirFields
  intro s
  exact ⟨rfl, rfl, BitVec.setWidth_eq_append (v := 3) (w := 32) (by decide),
    BitVec.setWidth_eq_append (v := 3) (w := 32) (by decide), rfl, rfl, rfl, rfl,
    high_append_low s.dcnt, high_append_low s.otot, rfl, treeInfo_eq s, packState_eq s,
    BitVec.setWidth_eq_append (v := 9) (w := 32) (by decide)⟩

/-! ## Host accesses to OUT_DATA (10_state R30) -/

section
variable {s : State}

/-- The offset of an aligned 32-bit access in the window (20_memory R63). -/
theorem accessOffset_window (c : Config) {off : Nat} (hoff : off ≤ 0xFC) (h4 : off % 4 = 0) :
    accessOffset c .w32 (c.base + off) = .ok off := by
  unfold accessOffset
  rw [if_neg (by omega), if_neg (by simp), Nat.add_sub_cancel_left, if_neg (by omega)]

/-- A step whose turn is a host access. -/
theorem step_host {a : Access} {rest : List Turn} (h : s.agenda = .host a :: rest) :
    step s = hostAccess a { s with agenda := rest } := by
  simp only [step, h, takeTurn]

/-- An admitted 32-bit read (20_memory R64). -/
theorem step_read {off : Nat} {rest : List Turn} (h : s.agenda = .host (.read .w32 (s.cfg.base + off)) :: rest)
    (hoff : off ≤ 0xFC) (h4 : off % 4 = 0) :
    step s = .next { (readOff off { s with agenda := rest }).2 with
      rdata := some (readOff off { s with agenda := rest }).1 } := by
  rw [step_host h]
  simp only [hostAccess, accessOffset_window s.cfg hoff h4]

/-- An admitted 32-bit write (20_memory R65). -/
theorem step_write {off : Nat} {v : Word} {rest : List Turn}
    (h : s.agenda = .host (.write .w32 (s.cfg.base + off) v) :: rest) (hoff : off ≤ 0xFC) (h4 : off % 4 = 0) :
    step s = .next (writeOff off v { s with agenda := rest }) := by
  rw [step_host h]
  simp only [hostAccess, accessOffset_window s.cfg hoff h4]

/-- A pop of an empty OUTF (10_state R30). -/
theorem popOut_nil (h : s.outf = []) : s.popOut = (0, s) := by
  unfold State.popOut
  rw [h]

/-- A pop of an OUTF that holds a byte (10_state R30). -/
theorem popOut_cons {b : Byte} {rest : List Byte} (h : s.outf = b :: rest) :
    s.popOut = (0x100#32 ||| b.setWidth 32, { s with outf := rest }) := by
  unfold State.popOut
  rw [h]

end

/-- Settles O42: the read at 0x3C is `State.popOut`, the write is ignored. -/
theorem outDataReadPops : Obligations.OutDataReadPops := by
  unfold Obligations.OutDataReadPops
  refine ⟨fun s rest h => ?_, fun s rest v h => step_write h (by decide) (by decide)⟩
  have hread : readOff 0x3C { s with agenda := rest } = State.popOut { s with agenda := rest } := rfl
  have hstep := step_read h (by decide) (by decide)
  rw [hread] at hstep
  constructor
  · intro ho
    rw [hstep, popOut_nil (s := { s with agenda := rest }) ho]
  · intro b out ho
    rw [hstep, popOut_cons (s := { s with agenda := rest }) ho]

/-! ## Frames over steps and commands (10_state R27, R34, R45) -/

section
variable {s s' : State}

/-- What NRD reads depends on the arena and NODE_CNT only. -/
theorem nodeRead_congr (hnode : s'.node = s.node) (hcnt : s'.nodeCnt = s.nodeCnt) (n : NodeIx) (sel : BitVec 2) :
    s'.nodeRead n sel = s.nodeRead n sel := by
  simp only [State.nodeRead, State.nodeOf, hnode, hcnt]

/-- A read leaves the tree alone. -/
theorem readOff_sameTree (off : Nat) (s : State) : SameTree s (readOff off s).2 := by
  obtain he | ⟨b, rest, -, he⟩ := readOff_state off s <;> rw [he] <;> exact ⟨rfl, rfl, rfl, rfl, rfl⟩

/-- A write leaves the tree alone. -/
theorem writeOff_sameTree (off : Nat) (v : Word) (s : State) : SameTree s (writeOff off v s) := by
  obtain he | he | he | he | ⟨he, -⟩ | ⟨he, -⟩ | he | he | ⟨he, -⟩ | ⟨he, -⟩ := writeOff_cases off v s <;>
    rw [he] <;> exact ⟨rfl, rfl, rfl, rfl, rfl⟩

/-- A command other than BUILD and SRST leaves the tree alone, whether it succeeds or fails. -/
theorem complete_sameTree {i : Instr} (hi : i ≠ .srst) (hb : i ≠ .build) : SameTree s (complete s (execOut i s)) := by
  obtain ⟨r, s', ho, hc⟩ | ⟨e, -, hc⟩ := complete_cases s (execOut i s) <;> rw [hc]
  · obtain ⟨h1, h2, h3, h4, h5⟩ := execOut_sameTree ho hi hb
    exact ⟨h1, h2, h3, h4, h5⟩
  · exact ⟨rfl, rfl, rfl, rfl, rfl⟩

/-- Taking a turn off the agenda leaves the tree alone. -/
theorem SameTree.of_rest (h : SameTree s.rest s') : SameTree s s' := ⟨h.node, h.nodeCnt, h.root, h.rootValid, h.heapN⟩

/-- Every step but BUILD, SRST and a hardware reset leaves the tree alone (10_state R34). -/
theorem step_sameTree (h : step s = .next s') (hb : ¬ runs s .build) (hsrst : ¬ runs s .srst) (hr : ¬ resetNext s) :
    SameTree s s' := by
  obtain ⟨i, rest, hbusy, hd, hn, he⟩ | ⟨-, -, -, -, -, rfl⟩ | ⟨-, -, -, rfl⟩ | ⟨-, -, -, off, -, -, rfl⟩ |
    ⟨-, -, v, -, off, -, -, rfl⟩ | ⟨-, -, -, rfl⟩ | ⟨hreset, -⟩ := step_cases h
  · have hrun : runs s i := ⟨hbusy, hd, rest, hn⟩
    rw [exec_next_iff.1 he]
    exact .of_rest (complete_sameTree (fun e => hsrst (e ▸ hrun)) (fun e => hb (e ▸ hrun)))
  · exact ⟨rfl, rfl, rfl, rfl, rfl⟩
  · exact ⟨rfl, rfl, rfl, rfl, rfl⟩
  · obtain ⟨h1, h2, h3, h4, h5⟩ := readOff_sameTree off s.rest
    exact ⟨h1, h2, h3, h4, h5⟩
  · exact .of_rest (writeOff_sameTree off v s.rest)
  · exact ⟨rfl, rfl, rfl, rfl, rfl⟩
  · exact absurd hreset hr

/-- A step with a pending command that decodes and the engine's turn next is that command (30_encoding R93). -/
theorem step_of_runs {i : Instr} (h : runs s i) : step s = .next (complete s.rest (execOut i s.rest)) := by
  obtain ⟨hbusy, hd, rest, ⟨hag, -⟩ | hag⟩ := h
  · have hrest : s.rest = s := by unfold State.rest; rw [hag]; cases s; simp_all
    rw [← exec_eq, hrest]
    simp only [step, hag, engineTurn, hbusy, if_true, engineStep, hd]
  · have hrest : ({ s with agenda := rest } : State) = s.rest := by unfold State.rest; rw [hag]; rfl
    rw [← exec_eq]
    simp only [step, hag, hrest, takeTurn, engineTurn]
    simp only [State.rest, hbusy, if_true, engineStep, hd]

end

/-- Settles O9: the tree registers by the frame over steps; HCLR and HWR drop both valid bits. -/
theorem treeRegistersChangeOnlyInBuildAndReset : Obligations.TreeRegistersChangeOnlyInBuildAndReset := by
  unfold Obligations.TreeRegistersChangeOnlyInBuildAndReset
  intro s s' h
  refine ⟨fun hb hsrst hr => ?_, ?_⟩
  · obtain ⟨hnode, hcnt, hroot, hv, -⟩ := step_sameTree h hb hsrst hr
    exact ⟨hcnt, hroot, hv, nodeRead_congr hnode hcnt⟩
  · rintro (hrun | ⟨sym, hrun⟩) <;>
    · rw [step_of_runs hrun] at h
      cases h
      rfl

/-- Settles O11: ENC, FLUSH and DEC append, the other commands leave the streams alone. -/
theorem outputBytesAreCounted : Obligations.OutputBytesAreCounted := by
  unfold Obligations.OutputBytesAreCounted
  intro i s t h hsrst hsclr
  rw [exec_next_iff.1 h]
  obtain ⟨r, s', ho, hc⟩ | ⟨e, -, hc⟩ := complete_cases s (execOut i s) <;> rw [hc]
  · obtain hsame | ⟨rfl, -⟩ | ⟨rfl, -⟩ | ⟨sym, rfl, henc⟩ | ⟨rfl, hflush⟩ | ⟨rfl, hdec⟩ := execOut_stream ho
    · exact ⟨[], by simp [hsame.outf], by simp [hsame.otot], nofun, fun _ => hsame.dcnt⟩
    · contradiction
    · contradiction
    · obtain ⟨-, rfl⟩ := encOut_finish henc
      obtain ⟨acc, accN, bytes, he⟩ := appendBits_frame (s.codeAt sym) s
      rw [he]
      exact ⟨bytes, rfl, rfl, fun _ => .inr (.inr ⟨sym, rfl⟩), fun _ => rfl⟩
    · obtain rfl | ⟨-, rfl⟩ := flushOut_finish hflush
      · exact ⟨[], by simp, by simp, nofun, fun _ => rfl⟩
      · exact ⟨[s.acc], rfl, rfl, fun _ => .inl rfl, fun _ => rfl⟩
    · obtain rfl | ⟨-, -, rfl⟩ | ⟨-, -, sym, -, rfl⟩ := decOut_finish hdec
      · exact ⟨[], by simp, by simp, nofun, nofun⟩
      · exact ⟨[], by simp [State.withWalk], by simp [State.withWalk], nofun, nofun⟩
      · exact ⟨[sym], rfl, rfl, fun _ => .inr (.inl rfl), nofun⟩
  · exact ⟨[], by simp, by simp, nofun, fun _ => rfl⟩

/-- Settles O20, by what the reduction gives for 256 counters (`buildTree_spec`). -/
theorem buildMakesOneTree : Obligations.BuildMakesOneTree := by
  unfold Obligations.BuildMakesOneTree
  intro s t h
  obtain ⟨hk, hshape, -, hv, hroot, -⟩ := buildTree_spec s.hist.toList s.builder (by simp)
  rw [← presentLeaves_eq] at hk
  rw [hk] at hshape hv
  have hc := hshape.count
  have hsm := hshape.small
  rw [exec_next_iff.1 h]
  have hcnt : (BitVec.ofNat 10 (buildTree s.hist.toList s.builder).b.nodeCnt).toNat =
      (buildTree s.hist.toList s.builder).b.nodeCnt := by rw [BitVec.toNat_ofNat]; omega
  simp only [execOut, complete_finish, State.succeed_node, State.succeed_nodeCnt, State.succeed_root,
    State.succeed_rootValid, State.withTree_node, State.withTree_nodeCnt, State.withTree_root, State.withTree_rootValid,
    hcnt]
  exact ⟨hshape, hc, hroot, hv⟩

end Sys2Proof.Machine

/-! ## The heap order and the ties (10_state R37; 42_tree_builder R130 to R132, R135) -/

namespace Sys2Proof.Machine

section
variable {b c : Builder} {i j k m n : Nat} {x : NodeIx}

/-! ### Frequencies of slots -/

/-- The frequency of a slot after writing one. -/
theorem Builder.freqAt_setSlot (b : Builder) (hi : i < 256) (x : NodeIx) (n : Nat) :
    (b.setSlot i x).freqAt n = if i = n then b.freq x else b.freqAt n := by
  simp only [Builder.freqAt, Builder.freq_setSlot, b.slot_setSlot i n x hi, apply_ite b.freq]

/-- After a swap each of the two slots holds what the other held. -/
theorem Builder.slot_swap_eq (b : Builder) (hi : i < 256) (hj : j < 256) (n : Nat) :
    (b.swap i j).slot n = if n = i then b.slot j else if n = j then b.slot i else b.slot n := by
  rw [b.slot_swap i j n hi hj, Equiv.swap_apply_def, apply_ite b.slot, apply_ite b.slot]

/-- The frequency of a slot after a swap. -/
theorem Builder.freqAt_swap (b : Builder) (hi : i < 256) (hj : j < 256) (n : Nat) :
    (b.swap i j).freqAt n = if n = i then b.freqAt j else if n = j then b.freqAt i else b.freqAt n := by
  have hfreq : ∀ y, (b.swap i j).freq y = b.freq y := b.freq_congr (b.swap_node i j)
  simp only [Builder.freqAt, hfreq, b.slot_swap_eq hi hj, apply_ite b.freq]

/-! ### The child SiftDown moves to (R130) -/

/-- A move goes to a child in use that is strictly lighter. -/
theorem Builder.lesserChild_move (b : Builder) (i : Nat) : b.lesserChild i = i ∨
    ((b.lesserChild i = 2 * i + 1 ∨ b.lesserChild i = 2 * i + 2) ∧ b.lesserChild i < b.heapN ∧
      b.freqAt (b.lesserChild i) < b.freqAt i) := by
  unfold Builder.lesserChild
  by_cases hl : 2 * i + 1 < b.heapN ∧ b.freqAt (2 * i + 1) < b.freqAt i
  · simp only [if_pos hl]
    split
    · rename_i hr
      exact .inr ⟨.inr rfl, hr.1, BitVec.lt_trans hr.2 hl.2⟩
    · exact .inr ⟨.inl rfl, hl⟩
  · simp only [if_neg hl]
    split
    · rename_i hr
      exact .inr ⟨.inr rfl, hr⟩
    · exact .inl rfl

/-- The slot SiftDown moves to is no heavier than any child in use. -/
theorem Builder.lesserChild_le (b : Builder) (i : Nat) (hc : n = 2 * i + 1 ∨ n = 2 * i + 2) (hn : n < b.heapN) :
    b.freqAt (b.lesserChild i) ≤ b.freqAt n := by
  unfold Builder.lesserChild
  simp only [BitVec.lt_def, BitVec.le_def]
  rcases hc with rfl | rfl <;> split_ifs <;> omega

/-- Of two children that tie SiftDown does not move to the right one. -/
theorem Builder.lesserChild_tie (b : Builder) (i : Nat) (ht : b.freqAt (2 * i + 1) = b.freqAt (2 * i + 2)) :
    b.lesserChild i ≠ 2 * i + 2 := by
  have hnat := congrArg BitVec.toNat ht
  unfold Builder.lesserChild
  simp only [BitVec.lt_def]
  split_ifs <;> omega

/-! ### SiftDown (R130) -/

/-- Rounds beyond those the slots below `i` allow change nothing (log 12). -/
theorem siftDownLoop_fuel (f g : Nat) : ∀ (i : Nat) (b : Builder), b.heapN ≤ i + f → b.heapN ≤ i + g →
    siftDownLoop f i b = siftDownLoop g i b := by
  have hstop : ∀ (i : Nat) (b : Builder), b.heapN ≤ i → b.lesserChild i = i := fun i b h =>
    (b.lesserChild_cases i).resolve_right fun hc => by omega
  induction f generalizing g with
  | zero =>
    intro i b hf _
    cases g with
    | zero => rfl
    | succ g => rw [siftDownLoop, siftDownLoop, if_pos (hstop i b (by omega))]
  | succ f ih =>
    intro i b hf hg
    obtain hm | ⟨hlt, hn⟩ := b.lesserChild_cases i
    · cases g with
      | zero => rw [siftDownLoop, siftDownLoop, if_pos hm]
      | succ g => rw [siftDownLoop, siftDownLoop, if_pos hm, if_pos hm]
    · cases g with
      | zero => omega
      | succ g =>
        rw [siftDownLoop, siftDownLoop]
        simp only [Nat.ne_of_gt hlt, if_false]
        exact ih g _ _ (by rw [Builder.swap_heapN]; omega) (by rw [Builder.swap_heapN]; omega)

/-- SiftDown stays at slot `i`, or swaps it with the lighter child and goes on from there. -/
theorem siftDown_eq (b : Builder) (i : Nat) : siftDown i b =
    if b.lesserChild i = i then b else siftDown (b.lesserChild i) (b.swap i (b.lesserChild i)) := by
  obtain hm | ⟨hlt, hn⟩ := b.lesserChild_cases i
  · rw [if_pos hm, siftDown]
    cases b.heapN with
    | zero => rfl
    | succ f => rw [siftDownLoop]; simp only [hm, if_true]
  · obtain ⟨f, hf⟩ : ∃ f, b.heapN = f + 1 := ⟨b.heapN - 1, by omega⟩
    rw [if_neg (Nat.ne_of_gt hlt), siftDown, siftDown, Builder.swap_heapN, hf, siftDownLoop]
    simp only [Nat.ne_of_gt hlt, if_false]
    exact siftDownLoop_fuel _ _ _ _ (by rw [Builder.swap_heapN]; omega) (by rw [Builder.swap_heapN]; omega)

/-- The heap invariant below the slots from `j` on: each of their children in use is no lighter. -/
def OrderedFrom (j : Nat) (b : Builder) : Prop :=
  ∀ c, 1 ≤ c → c < b.heapN → j ≤ (c - 1) / 2 → b.freqAt ((c - 1) / 2) ≤ b.freqAt c

theorem orderedFrom_zero : OrderedFrom 0 b ↔ HeapOrdered b :=
  ⟨fun h c h1 hc => h c h1 hc (Nat.zero_le _), fun h c h1 hc _ => h c h1 hc⟩

/-- What SiftDown at slot `i` finds: the heap invariant below the slots from `j` on but at slot `i`, whose children are
no lighter than its parent. -/
structure OrderedBut (j i : Nat) (b : Builder) : Prop where
  others : ∀ c, 1 ≤ c → c < b.heapN → j ≤ (c - 1) / 2 → (c - 1) / 2 ≠ i → b.freqAt ((c - 1) / 2) ≤ b.freqAt c
  across : ∀ c, 1 ≤ c → c < b.heapN → (c - 1) / 2 = i → 1 ≤ i → j ≤ (i - 1) / 2 →
    b.freqAt ((i - 1) / 2) ≤ b.freqAt c

/-- If slot `i` is no heavier than its children the heap invariant holds there too. -/
theorem OrderedBut.of_stay (h : OrderedBut j i b) (hm : b.lesserChild i = i) : OrderedFrom j b := by
  intro c h1 hc hj
  by_cases hp : (c - 1) / 2 = i
  · have hle := b.lesserChild_le i (n := c) (by omega) hc
    rw [hm] at hle
    rw [hp]; exact hle
  · exact h.others c h1 hc hj hp

/-- After the swap with the lighter child the invariant can fail at that child only. -/
theorem OrderedBut.swap (h : OrderedBut j i b) (hn : b.heapN ≤ 256) (hj : j ≤ i) (hm : b.lesserChild i ≠ i) :
    OrderedBut j (b.lesserChild i) (b.swap i (b.lesserChild i)) := by
  obtain ⟨hchild, hlt, hlight⟩ := (b.lesserChild_move i).resolve_left hm
  have hleast := fun c hc => b.lesserChild_le i (n := c) hc
  obtain ⟨m, hmdef⟩ : ∃ m, b.lesserChild i = m := ⟨_, rfl⟩
  rw [hmdef] at hchild hlt hlight hleast ⊢
  have hat := b.freqAt_swap (i := i) (j := m) (by omega) (by omega)
  constructor
  · intro c h1 hc hjc hne
    rw [Builder.swap_heapN] at hc
    rw [hat, hat]
    by_cases hpi : (c - 1) / 2 = i
    · -- a child of slot `i`, which now holds the least of the three
      rw [if_pos hpi, if_neg (by omega)]
      split
      · exact BitVec.le_of_lt hlight
      · exact hleast c (by omega) hc
    · rw [if_neg hpi, if_neg hne]
      by_cases hci : c = i
      · -- slot `i` below its parent
        rw [if_pos hci]
        subst hci
        exact h.across m (by omega) hlt (by omega) h1 hjc
      · rw [if_neg hci, if_neg (by omega)]
        exact h.others c h1 hc hjc hpi
  · intro c h1 hc hp _ _
    rw [Builder.swap_heapN] at hc
    have hpar : (m - 1) / 2 = i := by omega
    rw [hpar, hat, hat, if_pos rfl, if_neg (by omega), if_neg (by omega), ← hp]
    exact h.others c h1 hc (by omega) (by omega)

/-- SiftDown mends the one slot where the heap invariant fails. -/
theorem siftDown_ordered (hn : b.heapN ≤ 256) (hj : j ≤ i) (h : OrderedBut j i b) : OrderedFrom j (siftDown i b) := by
  induction hd : b.heapN - i using Nat.strong_induction_on generalizing i b with
  | _ d ih =>
    rw [siftDown_eq]
    split
    · rename_i hm
      exact h.of_stay hm
    · rename_i hm
      obtain ⟨hlt, hc⟩ := (b.lesserChild_cases i).resolve_left hm
      exact ih (b.heapN - b.lesserChild i) (by omega) (b := b.swap i (b.lesserChild i)) hn (by omega)
        (h.swap hn hj hm) rfl

/-! ### ExtractMin (R132) -/

/-- Slot 0 of an ordered heap is a least entry. -/
theorem HeapOrdered.min (h : HeapOrdered b) (hi : i < b.heapN) : b.freqAt 0 ≤ b.freqAt i := by
  induction i using Nat.strong_induction_on with
  | _ i ih =>
    rcases Nat.eq_zero_or_pos i with rfl | hpos
    · exact BitVec.le_refl _
    · exact BitVec.le_trans (ih ((i - 1) / 2) (by omega) (by omega)) (h i hpos hi)

/-- ExtractMin keeps the heap invariant: it can fail at slot 0 only, where the last entry is put. -/
theorem extractMin_ordered (h1 : 1 ≤ b.heapN) (hn : b.heapN ≤ 256) (h : HeapOrdered b) :
    HeapOrdered (extractMin b).2 := by
  refine orderedFrom_zero.1 (siftDown_ordered (by simp only; omega) (Nat.le_refl 0) ⟨?_, fun c _ _ _ h0 => by omega⟩)
  intro c hc hlt _ hp
  have hat := b.freqAt_setSlot (i := 0) (by decide) (b.slot (b.heapN - 1))
  show (b.setSlot 0 _).freqAt _ ≤ (b.setSlot 0 _).freqAt _
  simp only at hlt
  rw [hat, hat, if_neg (Ne.symm hp), if_neg (by omega)]
  exact h c hc (by omega)

/-! ### Heapify (R135) -/

/-- Sifting the slots below `j` down extends the order to all of the heap. -/
theorem siftAll_ordered (hn : b.heapN ≤ 256) (h : OrderedFrom j b) : HeapOrdered (siftAll j b) := by
  induction j generalizing b with
  | zero => exact orderedFrom_zero.1 h
  | succ j ih =>
    have hbut : OrderedBut j j b := ⟨fun c h1 hc hj hne => h c h1 hc (by omega), fun c _ _ _ h0 hle => by omega⟩
    exact ih (by rw [siftDown_heapN]; exact hn) (siftDown_ordered hn (Nat.le_refl j) hbut)

/-- Heapify gives an ordered heap: no slot from `k / 2` on has a child in use. -/
theorem heapify_ordered (hk : k ≤ 256) : HeapOrdered (heapify k b) :=
  siftAll_ordered hk fun c h1 hc hj => by simp only at hc; omega

/-- Sifting the slots below `j` down, the last of them first, as a fold. -/
theorem siftAll_eq_foldl (j : Nat) (b : Builder) :
    siftAll j b = (List.range j).reverse.foldl (fun c i => siftDown i c) b := by
  induction j generalizing b with
  | zero => rfl
  | succ j ih => rw [siftAll, ih, List.range_succ, List.reverse_append, List.reverse_singleton, List.singleton_append,
      List.foldl_cons]

/-! ### HeapInsert (R131) -/

/-- What HeapInsert finds with its argument put at slot `i`: the heap invariant but below that slot's parent, and the
children of slot `i` no lighter than its parent. -/
structure OrderedAbove (i : Nat) (b : Builder) : Prop where
  others : ∀ c, 1 ≤ c → c < b.heapN → c ≠ i → b.freqAt ((c - 1) / 2) ≤ b.freqAt c
  across : ∀ c, 1 ≤ c → c < b.heapN → (c - 1) / 2 = i → 1 ≤ i → b.freqAt ((i - 1) / 2) ≤ b.freqAt c

/-- If the parent is no heavier than slot `i`, or there is none, the heap invariant holds. -/
theorem OrderedAbove.of_stay (h : OrderedAbove i b) (hs : ¬ (0 < i ∧ b.freqAt i < b.freqAt ((i - 1) / 2))) :
    HeapOrdered b := by
  intro c h1 hc
  by_cases hci : c = i
  · subst hci
    exact BitVec.not_lt.1 fun hlt => hs ⟨h1, hlt⟩
  · exact h.others c h1 hc hci

/-- After the swap with a heavier parent the invariant can fail above that parent only. -/
theorem OrderedAbove.swap (h : OrderedAbove i b) (hi : i < b.heapN) (hn : b.heapN ≤ 256) (hpos : 0 < i)
    (hlt : b.freqAt i < b.freqAt ((i - 1) / 2)) : OrderedAbove ((i - 1) / 2) (b.swap i ((i - 1) / 2)) := by
  have hat := b.freqAt_swap (i := i) (j := (i - 1) / 2) (by omega) (by omega)
  constructor
  · intro c h1 hc hne
    rw [Builder.swap_heapN] at hc
    rw [hat, hat]
    by_cases hci : c = i
    · -- slot `i` now holds what its parent held
      subst hci
      rw [if_neg (by omega), if_pos rfl, if_pos rfl]
      exact BitVec.le_of_lt hlt
    · rw [if_neg hci, if_neg hne]
      by_cases hpi : (c - 1) / 2 = i
      · rw [if_pos hpi]
        exact h.across c h1 hc hpi hpos
      · rw [if_neg hpi]
        have hle := h.others c h1 hc hci
        split
        · rename_i hpp
          rw [hpp] at hle
          exact BitVec.le_trans (BitVec.le_of_lt hlt) hle
        · exact hle
  · intro c h1 hc hp hpos'
    rw [Builder.swap_heapN] at hc
    have hup := h.others ((i - 1) / 2) hpos' (by omega) (by omega)
    rw [hat, hat, if_neg (by omega), if_neg (by omega)]
    by_cases hci : c = i
    · rw [if_pos hci]; exact hup
    · rw [if_neg hci, if_neg (by omega)]
      have hle := h.others c h1 hc hci
      rw [hp] at hle
      exact BitVec.le_trans hup hle

/-- Heaps with the same arena, size and slots are in order together. -/
theorem OrderedAbove.congr (h : OrderedAbove i b) (hc : c.heapN = b.heapN) (hf : ∀ n, c.freqAt n = b.freqAt n) :
    OrderedAbove i c := by
  obtain ⟨h1, h2⟩ := h
  constructor <;> simp only [hc, hf]
  exacts [h1, h2]

/-- Moving the hole up and filling it mends the heap invariant. -/
theorem siftUpLoop_ordered (x : NodeIx) (fuel : Nat) : ∀ (i : Nat) (b : Builder), i ≤ fuel → i < b.heapN →
    b.heapN ≤ 256 → OrderedAbove i (b.setSlot i x) → HeapOrdered (siftUpLoop x fuel i b) := by
  induction fuel with
  | zero =>
    intro i b hf _ _ h
    exact h.of_stay fun hs => by omega
  | succ fuel ih =>
    intro i b hf hi hn h
    have hat := b.freqAt_setSlot (i := i) (by omega) x
    rw [siftUpLoop]
    split
    · rename_i hs
      have hlt : (b.setSlot i x).freqAt i < (b.setSlot i x).freqAt ((i - 1) / 2) := by
        rw [hat, hat, if_pos rfl, if_neg (by omega)]; exact hs.2
      refine ih _ _ (by omega) (by rw [Builder.setSlot_heapN]; omega) hn
        ((h.swap hi hn hs.1 hlt).congr rfl fun n => ?_)
      exact congrArg b.freq (b.move_hole i _ x (by omega) (by omega) (by omega) n)
    · rename_i hs
      refine h.of_stay fun hs' => hs ⟨hs'.1, ?_⟩
      have hlt := hs'.2
      rwa [hat, hat, if_pos rfl, if_neg (by omega)] at hlt

/-- HeapInsert keeps the heap invariant: it can fail above the new last slot only. -/
theorem heapInsert_ordered (x : NodeIx) (hn : b.heapN < 256) (h : HeapOrdered b) : HeapOrdered (heapInsert x b) := by
  refine siftUpLoop_ordered x b.heapN b.heapN _ (Nat.le_refl _) (Nat.lt_succ_self _) hn ⟨?_, ?_⟩
  · intro c h1 hc hne
    have hat := b.freqAt_setSlot hn x
    show (b.setSlot b.heapN x).freqAt _ ≤ (b.setSlot b.heapN x).freqAt _
    simp only [Builder.setSlot_heapN] at hc
    rw [hat, hat, if_neg (by omega), if_neg (by omega)]
    exact h c h1 (by omega)
  · intro c h1 hc hp
    simp only [Builder.setSlot_heapN] at hc
    omega

/-! ### The slots HeapInsert passes (R131) -/

/-- Going up from a slot is going up from its parent once less. -/
theorem heapAncestor_succ (n d : Nat) : heapAncestor n (d + 1) = heapAncestor ((n - 1) / 2) d := by
  induction d with
  | zero => rfl
  | succ d ih => rw [heapAncestor, ih]; rfl

/-- An ancestor is no higher slot. -/
theorem heapAncestor_le (n d : Nat) : heapAncestor n d ≤ n := by
  induction d with
  | zero => exact Nat.le_refl n
  | succ d ih => rw [heapAncestor]; omega

/-- `c` is `b` with `x` inserted from slot `i` up, `d` parents passed: each passed parent is strictly heavier than `x`
and has moved down a step, the next one is not, `x` stands where the passing stopped, and no other slot has changed. -/
structure SiftedUp (x : NodeIx) (i d : Nat) (b c : Builder) : Prop where
  passed : ∀ e, e < d → 0 < heapAncestor i e ∧ b.freq x < b.freqAt (heapAncestor i (e + 1)) ∧
    c.slot (heapAncestor i e) = b.slot (heapAncestor i (e + 1))
  stopped : heapAncestor i d = 0 ∨ ¬ b.freq x < b.freqAt (heapAncestor i (d + 1))
  placed : c.slot (heapAncestor i d) = x
  others : ∀ n, (∀ e, e ≤ d → n ≠ heapAncestor i e) → c.slot n = b.slot n

/-- Writing `x` at slot `i` passes no parent. -/
theorem SiftedUp.of_stop (hi : i < 256) (hs : ¬ (0 < i ∧ b.freq x < b.freqAt ((i - 1) / 2))) :
    SiftedUp x i 0 b (b.setSlot i x) where
  passed := nofun
  stopped := by
    rcases Nat.eq_zero_or_pos i with h0 | hpos
    · exact .inl h0
    · exact .inr fun hlt => hs ⟨hpos, hlt⟩
  placed := by rw [b.slot_setSlot _ _ _ hi]; exact if_pos rfl
  others n hne := by
    have hni : n ≠ i := hne 0 (Nat.le_refl 0)
    rw [b.slot_setSlot _ _ _ hi, if_neg hni.symm]

/-- Passing one more parent: the heap in which it has moved down to slot `i` is sifted up from its slot. -/
theorem SiftedUp.pass {d : Nat} (hi : i < 256) (hpos : 0 < i) (hlt : b.freq x < b.freqAt ((i - 1) / 2))
    (h : SiftedUp x ((i - 1) / 2) d (b.setSlot i (b.slot ((i - 1) / 2))) c) : SiftedUp x i (d + 1) b c := by
  have hslot := fun n => b.slot_setSlot i n (b.slot ((i - 1) / 2)) hi
  have hbelow : ∀ e, heapAncestor ((i - 1) / 2) e < i := fun e => by
    have := heapAncestor_le ((i - 1) / 2) e; omega
  have hold : ∀ e, (b.setSlot i (b.slot ((i - 1) / 2))).slot (heapAncestor ((i - 1) / 2) e) =
      b.slot (heapAncestor ((i - 1) / 2) e) := fun e => by
    rw [hslot, if_neg (Nat.ne_of_gt (hbelow e))]
  have hfreq : ∀ e, (b.setSlot i (b.slot ((i - 1) / 2))).freqAt (heapAncestor ((i - 1) / 2) e) =
      b.freqAt (heapAncestor ((i - 1) / 2) e) := fun e => congrArg b.freq (hold e)
  obtain ⟨hpass, hstop, hplace, hothers⟩ := h
  simp only [hfreq, hold, Builder.freq_setSlot] at hpass hstop
  refine ⟨?_, ?_, ?_, ?_⟩
  · intro e he
    cases e with
    | zero =>
      refine ⟨hpos, hlt, ?_⟩
      have hi' := hothers i fun e _ => Nat.ne_of_gt (hbelow e)
      rwa [hslot, if_pos rfl] at hi'
    | succ e =>
      rw [heapAncestor_succ i e, heapAncestor_succ i (e + 1)]
      exact hpass e (by omega)
  · rw [heapAncestor_succ i d, heapAncestor_succ i (d + 1)]; exact hstop
  · rw [heapAncestor_succ]; exact hplace
  · intro n hne
    have hni : n ≠ i := hne 0 (Nat.zero_le _)
    rw [hothers n fun e he => by rw [← heapAncestor_succ]; exact hne (e + 1) (by omega), hslot, if_neg hni.symm]

/-- The loop of R131 passes parents and then writes its argument. -/
theorem siftUpLoop_siftedUp (x : NodeIx) (fuel : Nat) : ∀ (i : Nat) (b : Builder), i ≤ fuel → i < 256 →
    ∃ d, SiftedUp x i d b (siftUpLoop x fuel i b) := by
  induction fuel with
  | zero => intro i b hf hi; exact ⟨0, .of_stop hi fun hs => by omega⟩
  | succ fuel ih =>
    intro i b hf hi
    rw [siftUpLoop]
    split
    · rename_i hs
      obtain ⟨d, hd⟩ := ih ((i - 1) / 2) (b.setSlot i (b.slot ((i - 1) / 2))) (by omega) (by omega)
      exact ⟨d + 1, .pass hi hs.1 hs.2 hd⟩
    · rename_i hs
      exact ⟨0, .of_stop hi hs⟩

end

/-- Settles O22: order by `OrderedBut` and `OrderedAbove`, ties by `lesserChild`, what HeapInsert passes by
`SiftedUp`. -/
theorem heapPrimitivesKeepOrderAndTies : Obligations.HeapPrimitivesKeepOrderAndTies := by
  unfold Obligations.HeapPrimitivesKeepOrderAndTies
  refine ⟨fun x b hn h => heapInsert_ordered x hn h,
    fun b h1 hn h => ⟨extractMin_ordered h1 hn h, fun i hi => h.min hi⟩,
    fun k b hk => heapify_ordered hk,
    fun b i => ⟨b.lesserChild_move i, fun c hc hn => b.lesserChild_le i hc hn, b.lesserChild_tie i⟩,
    fun b i j n hi hj => b.slot_swap_eq hi hj n, siftDown_eq, fun x b hn => ?_, fun b => rfl, fun k b hk => ?_⟩
  · obtain ⟨d, hpass, hstop, hplace, hothers⟩ :=
      siftUpLoop_siftedUp x b.heapN b.heapN { b with heapN := b.heapN + 1 } (Nat.le_refl _) hn
    exact ⟨d, hpass, hstop, hplace, hothers⟩
  · obtain ⟨hnode, hcnt, hslots⟩ := fillHeap_spec b k hk
    exact ⟨{ fillHeap k b with heapN := k }, hnode, hcnt, rfl, hslots, siftAll_eq_foldl _ _⟩

end Sys2Proof.Machine

/-! ## BUILD does not read what the spec leaves unspecified (10_state R35, R36; 42_tree_builder R138) -/

namespace Sys2Proof.Machine

section
variable {b c : Builder} {i j k m n cnt : Nat} {x : NodeIx}

/-- Two arenas hold the same records in the slots below `cnt`. -/
def SameBelow (cnt : Nat) (arena arena' : Vector Node 511) : Prop :=
  ∀ n, n < cnt → arenaAt arena' n = arenaAt arena n

theorem SameBelow.nodeAt {arena arena' : Vector Node 511} (h : SameBelow cnt arena arena') (hx : x.toNat < cnt) :
    nodeAt arena' x = nodeAt arena x := h _ hx

/-- Writing one record into two arenas makes them the same one slot further, if it is the next slot. -/
theorem SameBelow.set {arena arena' : Vector Node 511} (h : SameBelow cnt arena arena') (nd : Node) :
    SameBelow (cnt + 1) (arena.setIfInBounds cnt nd) (arena'.setIfInBounds cnt nd) := by
  intro n hn
  simp only [arenaAt, Vector.getElem?_setIfInBounds]
  split
  · rfl
  · exact h n (by omega)

/-- Two builders have the same allocated nodes. -/
structure SameNodes (b c : Builder) : Prop where
  nodeCnt : c.nodeCnt = b.nodeCnt
  nodes : SameBelow b.nodeCnt b.node c.node

/-- Two builders have the same allocated nodes and the same heap entries, which are allocated nodes. -/
structure SameEntries (b c : Builder) : Prop extends SameNodes b c where
  heapN : c.heapN = b.heapN
  small : b.heapN ≤ 256
  slots : ∀ i, i < b.heapN → c.slot i = b.slot i
  allocated : ∀ i, i < b.heapN → (b.slot i).toNat < b.nodeCnt

theorem SameNodes.freq (h : SameNodes b c) (hx : x.toNat < b.nodeCnt) : c.freq x = b.freq x := by
  simp only [Builder.freq, h.nodes.nodeAt hx]

theorem SameEntries.freqAt (h : SameEntries b c) (hi : i < b.heapN) : c.freqAt i = b.freqAt i := by
  rw [Builder.freqAt, h.slots i hi, h.freq (h.allocated i hi), Builder.freqAt]

/-- SiftDown moves to the same slot: only entries in use are compared. -/
theorem SameEntries.lesserChild (h : SameEntries b c) (hi : i < b.heapN) : c.lesserChild i = b.lesserChild i := by
  have hcond : ∀ {p q : Nat}, q < b.heapN → ((p < c.heapN ∧ c.freqAt p < c.freqAt q) ↔
      (p < b.heapN ∧ b.freqAt p < b.freqAt q)) := fun {p q} hq => by
    rw [h.heapN]
    exact and_congr_right fun hp => by rw [h.freqAt hp, h.freqAt hq]
  have hm : (if 2 * i + 1 < b.heapN ∧ b.freqAt (2 * i + 1) < b.freqAt i then 2 * i + 1 else i) < b.heapN := by
    split
    · rename_i hl; exact hl.1
    · exact hi
  unfold Builder.lesserChild
  simp only [hcond hi, hcond hm]

/-- Writing one allocated node into a slot in use. -/
theorem SameEntries.setSlot (h : SameEntries b c) (hi : i < b.heapN) (hx : x.toNat < b.nodeCnt) :
    SameEntries (b.setSlot i x) (c.setSlot i x) := by
  have hsmall := h.small
  refine ⟨⟨h.nodeCnt, h.nodes⟩, h.heapN, h.small, fun n hn => ?_, fun n hn => ?_⟩
  · rw [b.slot_setSlot _ _ _ (by omega), c.slot_setSlot _ _ _ (by omega), h.slots n hn]
  · rw [b.slot_setSlot _ _ _ (by omega), Builder.setSlot_nodeCnt]
    split
    · exact hx
    · exact h.allocated n hn

theorem SameEntries.swap (h : SameEntries b c) (hi : i < b.heapN) (hj : j < b.heapN) :
    SameEntries (b.swap i j) (c.swap i j) := by
  unfold Builder.swap
  rw [h.slots i hi, h.slots j hj]
  exact (h.setSlot hi (h.allocated j hj)).setSlot hj (h.allocated i hi)

theorem siftDownLoop_sameEntries (fuel : Nat) : ∀ {i : Nat} {b c : Builder}, SameEntries b c → i < b.heapN →
    SameEntries (siftDownLoop fuel i b) (siftDownLoop fuel i c) := by
  induction fuel with
  | zero => intro i b c h _; exact h
  | succ fuel ih =>
    intro i b c h hi
    rw [siftDownLoop, siftDownLoop]
    simp only [h.lesserChild hi]
    split
    · exact h
    · rename_i hm
      have hlt := ((b.lesserChild_cases i).resolve_left hm).2
      exact ih (h.swap hi hlt) hlt

theorem SameEntries.siftDown (h : SameEntries b c) (hi : i < b.heapN) : SameEntries (siftDown i b) (siftDown i c) := by
  unfold Machine.siftDown
  rw [h.heapN]
  exact siftDownLoop_sameEntries _ h hi

/-- A heap cut to fewer entries. -/
theorem SameEntries.shrink (h : SameEntries b c) (hk : k ≤ b.heapN) :
    SameEntries { b with heapN := k } { c with heapN := k } :=
  ⟨⟨h.nodeCnt, h.nodes⟩, rfl, hk.trans h.small, fun i hi => h.slots i (Nat.lt_of_lt_of_le hi hk),
    fun i hi => h.allocated i (Nat.lt_of_lt_of_le hi hk)⟩

/-- ExtractMin returns the same entry and leaves the same heap. -/
theorem SameEntries.extractMin (h : SameEntries b c) (h1 : 1 ≤ b.heapN) :
    (extractMin c).1 = (extractMin b).1 ∧ (extractMin b).1.toNat < b.nodeCnt ∧
      SameEntries (extractMin b).2 (extractMin c).2 := by
  refine ⟨h.slots 0 h1, h.allocated 0 h1, ?_⟩
  have hcut := ((h.setSlot h1 (h.allocated (b.heapN - 1) (by omega)))).shrink (k := b.heapN - 1) (Nat.sub_le _ _)
  unfold Machine.extractMin
  rw [h.heapN, h.slots (b.heapN - 1) (by omega)]
  rcases Nat.eq_zero_or_pos (b.heapN - 1) with h0 | hpos
  · simp only [Machine.siftDown, h0, siftDownLoop]
    rw [h0] at hcut; exact hcut
  · exact hcut.siftDown hpos

/-- Allocating one record. -/
theorem SameEntries.alloc (h : SameEntries b c) (nd : Node) : SameEntries (b.alloc nd).2 (c.alloc nd).2 := by
  refine ⟨⟨?_, ?_⟩, h.heapN, h.small, h.slots, fun i hi => Nat.lt_succ_of_lt (h.allocated i hi)⟩
  · rw [Builder.alloc_nodeCnt, Builder.alloc_nodeCnt, h.nodeCnt]
  · simp only [Builder.alloc, h.nodeCnt]
    exact h.nodes.set nd

theorem siftUpLoop_sameEntries (fuel : Nat) : ∀ {i : Nat} {b c : Builder}, SameEntries (b.setSlot i x) (c.setSlot i x) →
    i < b.heapN → x.toNat < b.nodeCnt → SameEntries (siftUpLoop x fuel i b) (siftUpLoop x fuel i c) := by
  induction fuel with
  | zero => intro i b c h _ _; exact h
  | succ fuel ih =>
    intro i b c h hi hx
    have hsmall : b.heapN ≤ 256 := h.small
    rw [siftUpLoop, siftUpLoop]
    have hfreq : c.freq x = b.freq x := h.freq hx
    rcases Nat.eq_zero_or_pos i with h0 | hpos
    · simp only [h0, Nat.lt_irrefl, false_and, if_false]
      rw [h0] at h; exact h
    · -- the parent's slot holds the same node in both
      have hne : i ≠ (i - 1) / 2 := by omega
      have hparent : c.slot ((i - 1) / 2) = b.slot ((i - 1) / 2) := by
        have := h.slots ((i - 1) / 2) (show _ < b.heapN by omega)
        rwa [b.slot_setSlot _ _ _ (by omega), c.slot_setSlot _ _ _ (by omega), if_neg hne, if_neg hne] at this
      have halloc : (b.slot ((i - 1) / 2)).toNat < b.nodeCnt := by
        have := h.allocated ((i - 1) / 2) (show _ < b.heapN by omega)
        rwa [b.slot_setSlot _ _ _ (by omega), if_neg hne] at this
      have hpfreq : c.freqAt ((i - 1) / 2) = b.freqAt ((i - 1) / 2) := by
        rw [Builder.freqAt, hparent, Builder.freqAt]; exact h.freq halloc
      rw [hfreq, hpfreq, hparent]
      split
      · refine ih ?_ (show _ < b.heapN by omega) hx
        have hsw := (h.setSlot (i := i) hi halloc).setSlot (i := (i - 1) / 2) (show _ < b.heapN by omega) hx
        have htwice : ∀ (d : Builder) (y : NodeIx), (d.setSlot i x).setSlot i y = d.setSlot i y := fun d y => by
          simp only [Builder.setSlot, Vector.setIfInBounds_setIfInBounds]
        rwa [htwice, htwice] at hsw
      · exact h

/-- HeapInsert of an allocated node. -/
theorem SameEntries.heapInsert (h : SameEntries b c) (hn : b.heapN < 256) (hx : x.toNat < b.nodeCnt) :
    SameEntries (heapInsert x b) (heapInsert x c) := by
  have hput : SameEntries (({ b with heapN := b.heapN + 1 } : Builder).setSlot b.heapN x)
      (({ c with heapN := b.heapN + 1 } : Builder).setSlot b.heapN x) := by
    refine ⟨⟨h.nodeCnt, h.nodes⟩, rfl, hn, fun n hlt => ?_, fun n hlt => ?_⟩ <;>
      replace hlt : n < b.heapN + 1 := hlt
    · refine (c.slot_setSlot _ n x hn).trans (Eq.trans ?_ (b.slot_setSlot _ n x hn).symm)
      split
      · rfl
      · exact h.slots n (by omega)
    · refine lt_of_eq_of_lt (congrArg BitVec.toNat (b.slot_setSlot _ n x hn)) ?_
      split
      · exact hx
      · exact h.allocated n (by omega)
  unfold Machine.heapInsert
  rw [h.heapN]
  exact siftUpLoop_sameEntries _ hput (Nat.lt_succ_self _) hx

theorem SameEntries.mergeTwo (h : SameEntries b c) (h2 : 1 < b.heapN) : SameEntries (mergeTwo b) (mergeTwo c) := by
  have hsmall := h.small
  obtain ⟨e1, l1, g1⟩ := h.extractMin (by omega)
  obtain ⟨e2, l2, g2⟩ := g1.extractMin (by rw [extractMin_heapN]; omega)
  simp only [extractMin_nodeCnt] at l2
  have hcnt := g2.nodeCnt
  simp only [extractMin_nodeCnt] at hcnt
  have hl := g2.freq (by simpa only [extractMin_nodeCnt] using l1)
  have hr := g2.freq (by simpa only [extractMin_nodeCnt] using l2)
  unfold Machine.mergeTwo allocInternal
  simp only [e1, e2, hl, hr, Builder.alloc_fst, extractMin_nodeCnt, hcnt]
  refine (g2.alloc _).heapInsert ?_ ?_
  · simp only [Builder.alloc_heapN, extractMin_heapN]; omega
  · simp only [Builder.alloc_nodeCnt, extractMin_nodeCnt, BitVec.toNat_ofNat]
    exact Nat.lt_succ_of_le (Nat.mod_le _ _)

theorem mergeTwo_heapN (h2 : 1 < b.heapN) : (mergeTwo b).heapN + 1 = b.heapN := by
  simp only [mergeTwo, allocInternal, heapInsert_heapN, Builder.alloc_heapN, extractMin_heapN]
  omega

/-- The reduction keeps two builders the same, with an entry left. -/
theorem reduceLoop_sameEntries (fuel : Nat) : ∀ {b c : Builder}, SameEntries b c → 1 ≤ b.heapN →
    SameEntries (reduceLoop fuel b) (reduceLoop fuel c) ∧ 1 ≤ (reduceLoop fuel b).heapN := by
  induction fuel with
  | zero => intro b c h h1; exact ⟨h, h1⟩
  | succ fuel ih =>
    intro b c h h1
    rw [reduceLoop, reduceLoop, h.heapN]
    split
    · rename_i h2
      have hn := mergeTwo_heapN h2
      exact ih (h.mergeTwo h2) (by omega)
    · exact ⟨h, h1⟩

/-- Leaf collection from two builders with the same nodes (R134). -/
theorem collectLeaves_sameNodes (cs : List Word) : ∀ (sym : Nat) {b c : Builder}, SameNodes b c →
    SameNodes (collectLeaves cs sym b) (collectLeaves cs sym c) := by
  induction cs with
  | nil => intro sym b c h; exact h
  | cons w cs ih =>
    intro sym b c h
    rw [collectLeaves, collectLeaves]
    refine ih _ ?_
    split
    · exact h
    · refine ⟨congrArg (· + 1) h.nodeCnt, ?_⟩
      simp only [allocLeaf, Builder.alloc, h.nodeCnt]
      exact h.nodes.set _

theorem siftAll_sameEntries (j : Nat) : ∀ {b c : Builder}, SameEntries b c → j ≤ b.heapN →
    SameEntries (siftAll j b) (siftAll j c) := by
  induction j with
  | zero => intro b c h _; exact h
  | succ j ih => intro b c h hj; exact ih (h.siftDown hj) (by rw [siftDown_heapN]; omega)

/-- Heapify makes heaps with the same entries of the same leaves, whatever HEAP held (R135). -/
theorem heapify_sameEntries (h : SameNodes b c) (hk : b.nodeCnt ≤ 256) :
    SameEntries (heapify b.nodeCnt b) (heapify b.nodeCnt c) := by
  obtain ⟨nb, cb, sb⟩ := fillHeap_spec b b.nodeCnt hk
  obtain ⟨nc, cc, sc⟩ := fillHeap_spec c b.nodeCnt hk
  refine siftAll_sameEntries _ ⟨⟨?_, ?_⟩, rfl, hk, fun i hi => ?_, fun i hi => ?_⟩ (Nat.div_le_self _ _)
  · exact cc.trans (h.nodeCnt.trans cb.symm)
  · simp only [nb, nc, cb]; exact h.nodes
  · exact (sc i hi).trans (sb i hi).symm
  · refine lt_of_eq_of_lt (congrArg BitVec.toNat (sb i hi)) ?_
    simp only [BitVec.toNat_ofNat, cb]
    exact Nat.lt_of_le_of_lt (Nat.mod_le _ _) hi

/-- What two reductions leave alike: all but unallocated slots and the contents of HEAP. -/
structure SameBuilt (t u : BuiltTree) : Prop extends SameNodes t.b u.b where
  k : u.k = t.k
  root : u.root = t.root
  rootValid : u.rootValid = t.rootValid
  heapN : u.b.heapN = t.b.heapN

/-- The tree BUILD makes is a function of the counters (42_tree_builder R138). -/
theorem buildTree_sameBuilt (hist : List Word) (hlen : hist.length = 256) (b c : Builder) :
    SameBuilt (buildTree hist b) (buildTree hist c) := by
  have hle := presentFrom_length_le hist 0
  have hcnt := (collectLeaves_spec hist 0 { b with nodeCnt := 0 } (by simp only; omega)).1
  have hleaves := collectLeaves_sameNodes hist 0 (b := { b with nodeCnt := 0 }) (c := { c with nodeCnt := 0 })
    ⟨rfl, nofun⟩
  unfold buildTree
  obtain ⟨bl, hbl⟩ : ∃ bl, collectLeaves hist 0 { b with nodeCnt := 0 } = bl := ⟨_, rfl⟩
  obtain ⟨cl, hcl⟩ : ∃ cl, collectLeaves hist 0 { c with nodeCnt := 0 } = cl := ⟨_, rfl⟩
  rw [hbl, hcl] at hleaves
  rw [hbl] at hcnt
  have h256 : bl.nodeCnt ≤ 256 := by rw [hcnt]; simp only; omega
  have hheap := heapify_sameEntries hleaves h256
  simp only [hbl, hcl, hleaves.nodeCnt]
  split
  · exact ⟨hheap.toSameNodes, rfl, rfl, rfl, hheap.heapN⟩
  · rename_i hk
    have h1 : 1 ≤ (heapify bl.nodeCnt bl).heapN := by rw [(heapify_spec bl _ h256).2.2.1]; omega
    obtain ⟨hred, hone⟩ := reduceLoop_sameEntries (heapify bl.nodeCnt bl).heapN hheap h1
    obtain ⟨he, -, hmin⟩ := hred.extractMin hone
    rw [hheap.heapN]
    exact ⟨hmin.toSameNodes, rfl, he, rfl, hmin.heapN⟩

end

end Sys2Proof.Machine

/-! ## What the spec leaves unspecified cannot be observed (10_state R35, R36, R41, R46) -/

namespace Sys2Proof.Machine

section

/-! ### Code tables (R41) -/

/-- Two code tables with the same lengths and the same bits below them. -/
structure SameCodes (t u : CodeTable) : Prop where
  len : u.len = t.len
  bits : ∀ sym j, j < (t.lenOf sym).toNat → (u.bitsOf sym).getLsbD j = (t.bitsOf sym).getLsbD j

/-- Recording one path in both tables: its bits hide what was there. -/
theorem SameCodes.record {t u : CodeTable} (h : SameCodes t u) (sym : Byte) (p : List Bool) :
    SameCodes (t.record sym p) (u.record sym p) := by
  constructor
  · simp only [CodeTable.record, h.len]
  · intro x j hj
    rw [CodeTable.lenOf_record] at hj
    rw [CodeTable.bitsOf_record, CodeTable.bitsOf_record]
    split
    · rename_i hx
      rw [if_pos hx, BitVec.toNat_ofNat] at hj
      have hp : j < p.length := Nat.lt_of_lt_of_le hj (Nat.mod_le _ _)
      have h255 : j < 255 := by omega
      rw [getLsbD_putBits _ _ _ _ h255, getLsbD_putBits _ _ _ _ h255, if_pos (Nat.zero_le j), if_pos (Nat.zero_le j)]
      simp only [Nat.sub_zero, List.getD_eq_getElem?_getD, List.getElem?_eq_getElem hp, Option.getD_some]
    · rename_i hx
      rw [if_neg hx] at hj
      exact h.bits x j hj

/-- GENC's walk visits allocated nodes only (R161). -/
theorem walkCodes_sameCodes {arena arena' : Vector Node 511} {cnt k : Nat} (hs : TreeShape arena cnt k)
    (ha : SameBelow cnt arena arena') (fuel : Nat) : ∀ (n : NodeIx) (p : List Bool) {t u : CodeTable}, n.toNat < cnt →
    SameCodes t u → SameCodes (walkCodes arena fuel n p t) (walkCodes arena' fuel n p u) := by
  induction fuel with
  | zero => intro n p t u _ h; exact h
  | succ fuel ih =>
    intro n p t u hn h
    rw [walkCodes, walkCodes, ha.nodeAt hn]
    cases hl : (nodeAt arena n).leaf with
    | true => exact h.record _ _
    | false =>
      have hleft := Nat.lt_trans (hs.child hn hl false).1 hn
      have hright := Nat.lt_trans (hs.child hn hl true).1 hn
      exact ih _ _ hright (ih _ _ hleft h)

/-- A code is its length and the bits below it. -/
theorem codeAt_eq_iff {s t : State} (hlen : t.codeLen = s.codeLen) (sym : Byte) : t.codeAt sym = s.codeAt sym ↔
    ∀ j, j < (s.lenAt sym).toNat → (t.bitsAt sym).getLsbD j = (s.bitsAt sym).getLsbD j := by
  have hat : t.lenAt sym = s.lenAt sym := by simp only [State.lenAt, hlen]
  rw [State.codeAt, State.codeAt, hat, List.map_inj_left]
  simp only [List.mem_range]

/-- Codes depend on the code table only. -/
theorem codeAt_congr {s t : State} (hlen : t.codeLen = s.codeLen) (hbits : t.codeBits = s.codeBits) (sym : Byte) :
    t.codeAt sym = s.codeAt sym :=
  (codeAt_eq_iff hlen sym).2 fun j _ => by simp only [State.bitsAt, hbits]

/-- The CBITS word depends on the bits below the length only (R165). -/
theorem codeWord_congr {len : BitVec 8} {bits bits' : CodeString} (wrd : BitVec 5)
    (h : ∀ j, j < len.toNat → bits'.getLsbD j = bits.getLsbD j) : codeWord len bits' wrd = codeWord len bits wrd := by
  apply BitVec.eq_of_getLsbD_eq
  intro i hi
  rw [getLsbD_codeWord, getLsbD_codeWord]
  by_cases hp : 32 * wrd.toNat + (31 - i) < len.toNat
  · rw [h _ hp]
  · simp [hp]

/-! ### DEC's walk (R200) -/

/-- DEC's loop over a byte visits allocated nodes only. -/
theorem walkByte_congr {arena arena' : Vector Node 511} {cnt k : Nat} (hs : TreeShape arena cnt k)
    (ha : SameBelow cnt arena arena') (ibuf : Byte) (ibits : Nat) : ∀ n : NodeIx, n.toNat < cnt →
    walkByte arena' ibuf ibits n = walkByte arena ibuf ibits n ∧ (walkByte arena ibuf ibits n).2.1.toNat < cnt := by
  induction ibits with
  | zero => intro n hn; exact ⟨rfl, hn⟩
  | succ ibits ih =>
    intro n hn
    rw [walkByte, walkByte, ha.nodeAt hn]
    split
    · exact ⟨rfl, hn⟩
    · rename_i hl
      have hchild := Nat.lt_trans (hs.child hn (by simpa using hl) (ibuf.getLsbD ibits)).1 hn
      simp only [ha.nodeAt hchild]
      split
      · exact ⟨rfl, hchild⟩
      · exact ih _ hchild

/-- DEC's loop visits allocated nodes only. -/
theorem walkInput_congr {arena arena' : Vector Node 511} {cnt k : Nat} (hs : TreeShape arena cnt k)
    (ha : SameBelow cnt arena arena') (inf : List Byte) : ∀ (ibuf : Byte) (ibits : Nat) (n : NodeIx), n.toNat < cnt →
    walkInput arena' inf ibuf ibits n = walkInput arena inf ibuf ibits n := by
  induction inf with
  | nil =>
    intro ibuf ibits n hn
    rw [walkInput, walkInput, (walkByte_congr hs ha ibuf ibits n hn).1]
  | cons b rest ih =>
    intro ibuf ibits n hn
    obtain ⟨he, hlt⟩ := walkByte_congr hs ha ibuf ibits n hn
    rw [walkInput, walkInput, he]
    split
    · rfl
    · rename_i n' left hw
      rw [hw] at hlt
      exact ih b 8 n' hlt

/-! ### The unspecified part of a state -/

/-- The state the spec leaves unspecified, in part or while idle. -/
structure Unseen where
  node : Vector Node 511
  heap : Vector NodeIx 256
  codeBits : Vector CodeString 256
  pendCmd : Word
  pendArg : Word

/-- `s` with that part replaced. -/
def State.withUnseen (u : Unseen) (s : State) : State :=
  { s with node := u.node, heap := u.heap, codeBits := u.codeBits, pendCmd := u.pendCmd, pendArg := u.pendArg }

variable {s t s' t' : State} {u : Unseen}

/-- States that look the same are one state with the unspecified part replaced. -/
theorem SameVisible.exists_unseen (h : SameVisible s t) : ∃ u, t = s.withUnseen u :=
  ⟨⟨t.node, t.heap, t.codeBits, t.pendCmd, t.pendArg⟩, h.rest⟩

/-- A field that is no unspecified one is the same in both. -/
theorem SameVisible.field_eq {α : Type} (h : SameVisible s t) (f : State → α) (hf : ∀ u, f (s.withUnseen u) = f s) :
    f t = f s := by
  obtain ⟨u, rfl⟩ := h.exists_unseen
  exact hf u

theorem SameVisible.refl (s : State) : SameVisible s s := ⟨rfl, fun _ _ => rfl, fun _ => rfl, fun _ => ⟨rfl, rfl⟩⟩

/-- `s'` differs from `s` in nothing that SameVisible speaks of one by one. -/
structure SameHidden (s s' : State) : Prop where
  node : s'.node = s.node
  nodeCnt : s'.nodeCnt = s.nodeCnt
  codeLen : s'.codeLen = s.codeLen
  codeBits : s'.codeBits = s.codeBits
  pendCmd : s'.pendCmd = s.pendCmd
  pendArg : s'.pendArg = s.pendArg
  busy : s'.busy = true → s.busy = true

/-- An update of the visible part, made on both sides, keeps the states looking the same. -/
theorem SameVisible.update (h : SameVisible s (s.withUnseen u)) (g : SameHidden s s') :
    SameVisible s' (s'.withUnseen u) := by
  obtain ⟨-, hnodes, hcodes, hpending⟩ := h
  obtain ⟨gnode, gcnt, glen, gbits, gcmd, garg, gbusy⟩ := g
  refine ⟨rfl, ?_, fun sym => ?_, ?_⟩
  · rw [gnode, gcnt]; exact hnodes
  · have hold : (s'.withUnseen u).codeAt sym = (s.withUnseen u).codeAt sym :=
      codeAt_congr (s := s.withUnseen u) (t := s'.withUnseen u) glen rfl sym
    exact hold.trans ((hcodes sym).trans (codeAt_congr glen gbits sym).symm)
  · rw [gcmd, garg]; exact fun hb => hpending (gbusy hb)

/-- The allocated nodes of the two states. -/
theorem SameVisible.sameBelow (h : SameVisible s t) : SameBelow s.nodeCnt.toNat s.node t.node := h.nodes

/-- Completing both with success. -/
theorem SameVisible.succeed (h : SameVisible s t) (r : Word) : SameVisible (s.succeed r) (t.succeed r) := by
  obtain ⟨u, rfl⟩ := h.exists_unseen
  exact h.update (s' := s.succeed r) ⟨rfl, rfl, rfl, rfl, rfl, rfl, nofun⟩

/-- Completing both with an error: ERR_CMD takes the pending command, the same in both. -/
theorem SameVisible.fail (h : SameVisible s t) (hb : s.busy = true) (e : CmdError) :
    SameVisible (s.fail e) (t.fail e) := by
  obtain ⟨hcmd, -⟩ := h.pending hb
  obtain ⟨u, rfl⟩ := h.exists_unseen
  have he : (s.withUnseen u).fail e = (s.fail e).withUnseen u := by
    have hcmd : u.pendCmd = s.pendCmd := hcmd
    simp only [State.fail, State.withUnseen, hcmd]
  rw [he]
  exact h.update ⟨rfl, rfl, rfl, rfl, rfl, rfl, nofun⟩

/-! ### Commands -/

/-- Two commands come to the same: the same result and states that look the same, or the same error. -/
def SameCmdOut : CmdOut → CmdOut → Prop
  | .finish r s, .finish r' t => r' = r ∧ SameVisible s t
  | .raise e, .raise e' => e' = e
  | _, _ => False

theorem SameCmdOut.finish {r : Word} (h : SameVisible s t) : SameCmdOut (.finish r s) (.finish r t) := ⟨rfl, h⟩

/-- A test both make alike. -/
theorem SameCmdOut.ite {p : Prop} [Decidable p] {a b a' b' : CmdOut} (h : p → SameCmdOut a a')
    (h' : ¬ p → SameCmdOut b b') : SameCmdOut (if p then a else b) (if p then a' else b') := by
  split
  · rename_i hp; exact h hp
  · rename_i hp; exact h' hp

/-- Completions of commands that come to the same look the same. -/
theorem SameCmdOut.complete {o o' : CmdOut} (h : SameCmdOut o o') (hv : SameVisible s t) (hb : s.busy = true) :
    SameVisible (complete s o) (complete t o') := by
  cases o with
  | finish r a =>
    cases o' with
    | finish r' b =>
      obtain ⟨rfl, hab⟩ := h
      exact hab.succeed _
    | raise e' => cases h
  | raise e =>
    cases o' with
    | finish r' b => cases h
    | raise e' =>
      cases h
      exact hv.fail hb _

/-- NRD reads allocated nodes only (42_tree_builder R137). -/
theorem SameVisible.nodeRead (h : SameVisible s t) (n : NodeIx) (sel : BitVec 2) :
    t.nodeRead n sel = s.nodeRead n sel := by
  obtain ⟨u, rfl⟩ := h.exists_unseen
  unfold State.nodeRead
  by_cases hn : s.nodeCnt.toNat ≤ n.toNat
  · exact (if_pos hn).trans (if_pos hn).symm
  · refine (if_neg hn).trans (Eq.trans ?_ (if_neg hn).symm)
    exact congrArg (Node.field · sel) (h.nodes _ (Nat.lt_of_not_le hn))

/-- Trees that look the same, written back to states that do. -/
theorem SameVisible.withTree (h : SameVisible s t) {a b : BuiltTree} (hb : SameBuilt a b) :
    SameVisible (s.withTree a) (t.withTree b) := by
  obtain ⟨u, rfl⟩ := h.exists_unseen
  obtain ⟨⟨hcnt, hnodes⟩, hk, hroot, hv, hheap⟩ := hb
  refine ⟨?_, fun n hn => ?_, fun sym => ?_, h.pending⟩
  · simp only [State.withTree, State.withUnseen]
    rw [hcnt, hroot, hv, hheap]
  · exact hnodes n (Nat.lt_of_lt_of_le hn (by rw [State.withTree_nodeCnt, BitVec.toNat_ofNat]; exact Nat.mod_le _ _))
  · have hold : ((s.withUnseen u).withTree b).codeAt sym = (s.withUnseen u).codeAt sym :=
      codeAt_congr (s := s.withUnseen u) (t := (s.withUnseen u).withTree b) rfl rfl sym
    exact hold.trans ((h.codes sym).trans (codeAt_congr (t := s.withTree a) rfl rfl sym).symm)

/-- BUILD makes trees that look the same from the same counters (42_tree_builder R138). -/
theorem SameVisible.build (h : SameVisible s t) : SameCmdOut (execOut .build s) (execOut .build t) := by
  have hhist : t.hist = s.hist := h.field_eq State.hist fun _ => rfl
  have hsame := buildTree_sameBuilt s.hist.toList (by simp) s.builder t.builder
  have hfinish : ∀ a : State, execOut .build a = .finish (BitVec.ofNat 32 (buildTree a.hist.toList a.builder).k)
      (a.withTree (buildTree a.hist.toList a.builder)) := fun a => rfl
  rw [hfinish, hfinish, hhist, hsame.k]
  exact .finish (h.withTree hsame)

/-- The table GENC starts from (43_code_table R160). -/
def State.noCodes (s : State) : CodeTable := { len := Vector.replicate 256 0, bits := s.codeBits }

/-- GENC for no tree. -/
theorem genCodes_of_empty (hv : s.rootValid = false) : s.genCodes = s.noCodes := by
  simp only [State.genCodes, State.noCodes, hv, Bool.false_eq_true, if_false]

/-- GENC for a tree of one leaf (R161, case 2). -/
theorem genCodes_of_leaf (hv : s.rootValid = true) (hl : (s.nodeOf s.root).leaf = true) :
    s.genCodes = s.noCodes.record (s.nodeOf s.root).sym [false] := by
  simp only [State.genCodes, State.noCodes, hv, hl, if_true]

/-- GENC for a tree with an internal root (R161, case 1). -/
theorem genCodes_of_internal (hv : s.rootValid = true) (hl : (s.nodeOf s.root).leaf = false) :
    s.genCodes = walkCodes s.node 256 s.root [] s.noCodes := by
  simp only [State.genCodes, State.noCodes, hv, hl, if_true, Bool.false_eq_true, if_false]

/-- GENC derives the same codes from trees that look the same (43_code_table R160, R161). -/
theorem SameVisible.genCodes (h : SameVisible s t) (hinv : TreeInv s) : SameCodes s.genCodes t.genCodes := by
  have hbelow := h.sameBelow
  have hrv : t.rootValid = s.rootValid := h.field_eq State.rootValid fun _ => rfl
  have hrt : t.root = s.root := h.field_eq State.root fun _ => rfl
  obtain ⟨k, hshape, hvalid, hroot, -⟩ := hinv.tree
  have hempty : SameCodes s.noCodes t.noCodes :=
    ⟨rfl, fun sym j hj => by simp [CodeTable.lenOf, State.noCodes] at hj⟩
  cases hv : s.rootValid with
  | false =>
    rw [hv] at hrv
    rw [genCodes_of_empty hv, genCodes_of_empty hrv]
    exact hempty
  | true =>
    rw [hv] at hrv
    have hk : 0 < k := by simpa [hvalid] using hv
    have hc := hshape.count
    have hlt : s.root.toNat < s.nodeCnt.toNat := by omega
    have hnode : t.nodeOf t.root = s.nodeOf s.root := by rw [hrt]; exact hbelow.nodeAt hlt
    cases hl : (s.nodeOf s.root).leaf with
    | true =>
      rw [genCodes_of_leaf hv hl, genCodes_of_leaf hrv (hnode ▸ hl), hnode]
      exact hempty.record _ _
    | false =>
      rw [genCodes_of_internal hv hl, genCodes_of_internal hrv (hnode ▸ hl), hrt]
      exact walkCodes_sameCodes hshape hbelow 256 s.root [] hlt hempty

/-- GENC leaves states that look the same. -/
theorem SameVisible.genc (h : SameVisible s t) (hinv : TreeInv s) : SameCmdOut (gencOut s) (gencOut t) := by
  obtain ⟨hlen, hbits⟩ := h.genCodes hinv
  obtain ⟨u, rfl⟩ := h.exists_unseen
  refine .ite (fun _ => rfl) fun _ => ⟨by rw [hlen], ?_, h.nodes, fun sym => ?_, h.pending⟩
  · simp only [State.withUnseen] at hlen ⊢
    rw [hlen]
  · exact (codeAt_eq_iff (s := { s with
      codeLen := s.genCodes.len, codeBits := s.genCodes.bits, codesValid := true }) hlen sym).2 (hbits sym)

/-- AppendBit does not touch the unspecified part. -/
theorem appendBit_withUnseen (u : Unseen) (s : State) (b : Bool) :
    appendBit (s.withUnseen u) b = (appendBit s b).withUnseen u := by
  have hn : (s.withUnseen u).accN = s.accN := rfl
  unfold appendBit
  simp only [hn]
  split <;> rfl

/-- Appending bits does not touch the unspecified part. -/
theorem appendBits_withUnseen (u : Unseen) (bits : List Bool) : ∀ s : State,
    appendBits (s.withUnseen u) bits = (appendBits s bits).withUnseen u := by
  induction bits with
  | nil => exact fun s => rfl
  | cons b bits ih =>
    intro s
    have hcons : ∀ a : State, appendBits a (b :: bits) = appendBits (appendBit a b) bits := fun a => rfl
    rw [hcons, hcons, appendBit_withUnseen, ih]

/-- ENC appends the same code (44_packer R180). -/
theorem SameVisible.enc (h : SameVisible s t) (sym : Byte) : SameCmdOut (encOut sym s) (encOut sym t) := by
  have hcode := h.codes sym
  obtain ⟨u, rfl⟩ := h.exists_unseen
  refine .ite (fun _ => rfl) fun _ => .ite (fun _ => rfl) fun _ => .ite (fun _ => rfl) fun _ => ⟨rfl, ?_⟩
  obtain ⟨_, _, _, he⟩ := appendBits_frame (s.codeAt sym) s
  rw [hcode, appendBits_withUnseen]
  refine h.update ?_
  rw [he]
  exact ⟨rfl, rfl, rfl, rfl, rfl, rfl, id⟩

/-- FLUSH does not read the unspecified part (44_packer R182). -/
theorem SameVisible.flush (h : SameVisible s t) : SameCmdOut (flushOut s) (flushOut t) := by
  obtain ⟨u, rfl⟩ := h.exists_unseen
  exact .ite (fun _ => ⟨rfl, h⟩) fun _ => .ite (fun _ => rfl) fun _ =>
    ⟨rfl, h.update (s' := { s.pushOut s.acc with acc := 0, accN := 0 }) ⟨rfl, rfl, rfl, rfl, rfl, rfl, id⟩⟩

/-- The walk of a DEC, by name. -/
theorem walk_eq (s : State) : walkInput s.node s.inf s.ibuf s.ibits.toNat s.decNode = s.walk := rfl

/-- DEC walks the same nodes (45_unpacker R200). -/
theorem SameVisible.dec (h : SameVisible s t) (hinv : TreeInv s) : SameCmdOut (decOut s) (decOut t) := by
  obtain ⟨u, rfl⟩ := h.exists_unseen
  rw [decOut_eq, decOut_eq]
  refine .ite (fun _ => rfl) fun _ => .ite (fun _ => ⟨rfl, ?_⟩) fun _ => .ite (fun _ => rfl) fun hroot =>
    .ite (fun _ => rfl) fun _ => ?_
  · exact h.update (s' := { s with needIn := false }) ⟨rfl, rfl, rfl, rfl, rfl, rfl, id⟩
  · obtain ⟨k, hshape, -⟩ := hinv.tree
    have hw : (s.withUnseen u).walk = s.walk :=
      walkInput_congr hshape h.sameBelow _ _ _ _ (hinv.decNode_lt (by simpa using hroot))
    simp only [walk_eq, hw]
    cases s.walk.sym with
    | none =>
      exact ⟨rfl, h.update (s' := { s.withWalk s.walk with needIn := true }) ⟨rfl, rfl, rfl, rfl, rfl, rfl, id⟩⟩
    | some sym =>
      exact ⟨rfl, h.update (s' := { s.withWalk s.walk with
        needIn := false, outf := s.outf ++ [sym], otot := s.otot + 1, dcnt := s.dcnt + 1, decNode := s.root })
        ⟨rfl, rfl, rfl, rfl, rfl, rfl, id⟩⟩

/-- A pending command comes to the same in states that look the same. -/
theorem SameVisible.execOut (h : SameVisible s t) (hinv : TreeInv s) (hb : s.busy = true) (i : Instr) :
    SameCmdOut (execOut i s) (execOut i t) := by
  obtain ⟨-, harg⟩ := h.pending hb
  obtain ⟨u, rfl⟩ := h.exists_unseen
  cases i with
  | nop | hrd _ => exact ⟨rfl, h⟩
  | srst => exact ⟨rfl, .refl _⟩
  | sclr => exact ⟨rfl, h.update (s' := s.clearStream) ⟨rfl, rfl, rfl, rfl, rfl, rfl, id⟩⟩
  | hclr =>
    exact ⟨rfl, h.update (s' := { s with hist := Vector.replicate 256 0 }.dropValid) ⟨rfl, rfl, rfl, rfl, rfl, rfl, id⟩⟩
  | hwr sym =>
    refine ⟨rfl, ?_⟩
    rw [harg]
    exact h.update (s' := (s.setHist sym s.pendArg).dropValid) ⟨rfl, rfl, rfl, rfl, rfl, rfl, id⟩
  | build => exact h.build
  | nrd n sel => exact ⟨h.nodeRead n sel, h⟩
  | genc => exact h.genc hinv
  | clen sym => exact .ite (fun _ => rfl) fun _ => ⟨rfl, h⟩
  | cbits sym wrd =>
    refine .ite (fun _ => rfl) fun _ => ?_
    exact ⟨codeWord_congr wrd ((codeAt_eq_iff (s := s) (t := s.withUnseen u) rfl sym).1 (h.codes sym)), h⟩
  | enc sym => exact h.enc sym
  | flush => exact h.flush
  | dec => exact h.dec hinv

/-! ### Steps -/

/-- Two steps come to the same: states that look the same, or the same refusal. -/
def SameOutcome : Out → Out → Prop
  | .next s, .next t => SameVisible s t
  | .refused r, .refused r' => r' = r
  | _, _ => False

/-- A turn of the engine (30_encoding R93). -/
theorem SameVisible.engineTurn (h : SameVisible s t) (hinv : TreeInv s) :
    SameOutcome (engineTurn s) (engineTurn t) := by
  have hbusy : t.busy = s.busy := h.field_eq State.busy fun _ => rfl
  unfold Machine.engineTurn
  rw [hbusy]
  split
  · rename_i hb
    unfold engineStep
    rw [(h.pending hb).1]
    cases decode s.pendCmd with
    | ok i =>
      simp only [exec_eq]
      exact (h.execOut hinv hb i).complete h hb
    | error e => exact h.fail hb _
  · exact h

/-- A register read returns the same value (20_memory R64). -/
theorem readOff_withUnseen (u : Unseen) (off : Nat) (s : State) :
    readOff off (s.withUnseen u) = ((readOff off s).1, (readOff off s).2.withUnseen u) := by
  unfold readOff
  cases Reg.ofOff off with
  | none => rfl
  | some r =>
    cases r with
    | OUT_DATA => cases ho : s.outf <;> simp [State.popOut, State.withUnseen, ho]
    | _ => rfl

/-- What a read leaves, and its record. -/
theorem SameVisible.read (h : SameVisible s t) (off : Nat) :
    SameVisible { (readOff off s).2 with rdata := some (readOff off s).1 }
      { (readOff off t).2 with rdata := some (readOff off t).1 } := by
  obtain ⟨u, rfl⟩ := h.exists_unseen
  rw [readOff_withUnseen]
  refine h.update (s' := { (readOff off s).2 with rdata := some (readOff off s).1 }) ?_
  obtain he | ⟨b, rest, -, he⟩ := readOff_state off s <;> rw [he] <;> exact ⟨rfl, rfl, rfl, rfl, rfl, rfl, id⟩

/-- A CMD write latches the same command, or overruns (20_memory R66). -/
theorem SameVisible.issue (h : SameVisible s t) (v : Word) : SameVisible (s.issue v) (t.issue v) := by
  have hpending := h.pending
  have hbusy : t.busy = s.busy := h.field_eq State.busy fun _ => rfl
  have harg : t.arg = s.arg := h.field_eq State.arg fun _ => rfl
  unfold State.issue
  rw [hbusy, harg]
  obtain ⟨u, rfl⟩ := h.exists_unseen
  split
  · exact h.update (s' := s.setIrq irqOverrun) ⟨rfl, rfl, rfl, rfl, rfl, rfl, id⟩
  · exact ⟨rfl, h.nodes, h.codes, fun _ => ⟨rfl, rfl⟩⟩

/-- An IN_DATA write pushes or drops the byte in both (20_memory R67). -/
theorem SameVisible.pushIn (h : SameVisible s t) (b : Byte) : SameVisible (s.pushIn b) (t.pushIn b) := by
  have hinf : t.inf = s.inf := h.field_eq State.inf fun _ => rfl
  have hcfg : t.cfg = s.cfg := h.field_eq State.cfg fun _ => rfl
  unfold State.pushIn
  rw [hinf, hcfg]
  obtain ⟨u, rfl⟩ := h.exists_unseen
  split
  · exact h.update (s' := { s with inf := s.inf ++ [b] }) ⟨rfl, rfl, rfl, rfl, rfl, rfl, id⟩
  · exact h.update (s' := s.setIrq irqInOvf) ⟨rfl, rfl, rfl, rfl, rfl, rfl, id⟩

/-- What a register write leaves (20_memory R65). -/
theorem SameVisible.write (h : SameVisible s t) (off : Nat) (v : Word) :
    SameVisible (writeOff off v s) (writeOff off v t) := by
  have hissue := h.issue v
  have hpush := h.pushIn (v.extractLsb' 0 8)
  obtain ⟨u, rfl⟩ := h.exists_unseen
  unfold writeOff
  split
  · exact h.update (s' := { s with ctrl := v.extractLsb' 0 3 }) ⟨rfl, rfl, rfl, rfl, rfl, rfl, id⟩
  · exact h.update (s' := { s with irq := s.irq &&& ~~~(v.extractLsb' 0 3) }) ⟨rfl, rfl, rfl, rfl, rfl, rfl, id⟩
  · exact h.update (s' := { s with arg := v }) ⟨rfl, rfl, rfl, rfl, rfl, rfl, id⟩
  · exact hissue
  · exact h.update (s' := { s with lenLo := v }) ⟨rfl, rfl, rfl, rfl, rfl, rfl, id⟩
  · exact h.update (s' := { s with lenHi := v }) ⟨rfl, rfl, rfl, rfl, rfl, rfl, id⟩
  · exact hpush
  · exact h

/-- A host access is refused in both, or reads or writes the same register (20_memory R63). -/
theorem SameVisible.hostAccess (h : SameVisible s t) (a : Access) : SameOutcome (hostAccess a s) (hostAccess a t) := by
  have hcfg : t.cfg = s.cfg := h.field_eq State.cfg fun _ => rfl
  cases a with
  | read width addr =>
    simp only [Machine.hostAccess, hcfg]
    cases accessOffset s.cfg width addr with
    | ok off => exact h.read off
    | error r => rfl
  | write width addr v =>
    simp only [Machine.hostAccess, hcfg]
    cases accessOffset s.cfg width addr with
    | ok off => exact h.write off v
    | error r => rfl

/-- Other turns to come and another value read, the same in both. -/
theorem SameVisible.record (h : SameVisible s t) (agenda : List Turn) (v : Option Word) :
    SameVisible { s with agenda := agenda, rdata := v } { t with agenda := agenda, rdata := v } := by
  obtain ⟨u, rfl⟩ := h.exists_unseen
  exact h.update (s' := { s with agenda := agenda, rdata := v }) ⟨rfl, rfl, rfl, rfl, rfl, rfl, id⟩

/-- A turn comes to the same in states that look the same. -/
theorem SameVisible.takeTurn (h : SameVisible s t) (hinv : TreeInv s) (turn : Turn) :
    SameOutcome (takeTurn turn s) (takeTurn turn t) := by
  cases turn with
  | engine => exact h.engineTurn hinv
  | host a => exact h.hostAccess a
  | waitIdle polls =>
    have hrecord := h.record (if s.busy = true then waitTurns polls ++ s.agenda else s.agenda) (some s.status)
    obtain ⟨u, rfl⟩ := h.exists_unseen
    simp only [Machine.takeTurn, waitIdleRound_eq]
    exact hrecord
  | hwReset =>
    obtain ⟨u, rfl⟩ := h.exists_unseen
    exact .refl s.hwReset

/-- A step comes to the same in states that look the same. -/
theorem SameVisible.step (h : SameVisible s t) (hinv : TreeInv s) : SameOutcome (step s) (step t) := by
  have hag : t.agenda = s.agenda := h.field_eq State.agenda fun _ => rfl
  unfold Machine.step
  rw [hag]
  cases s.agenda with
  | nil => exact h.engineTurn hinv
  | cons turn rest =>
    obtain ⟨u, rfl⟩ := h.exists_unseen
    exact (h.record rest s.rdata).takeTurn (treeInv_closed.record hinv rest s.rdata) turn

end

/-- Settles O60: of two states that look the same every step comes to the same. -/
theorem unspecifiedStateIsUnobservable : Obligations.UnspecifiedStateIsUnobservable := by
  unfold Obligations.UnspecifiedStateIsUnobservable
  intro s t hinv _ h
  have hstep := h.step hinv
  constructor
  · intro s' hs
    rw [hs] at hstep
    cases ht : step t with
    | next t' => rw [ht] at hstep; exact ⟨t', rfl, hstep⟩
    | fault f => cases f
    | refused r => rw [ht] at hstep; cases hstep
  · intro r hs
    rw [hs] at hstep
    cases ht : step t with
    | next t' => rw [ht] at hstep; cases hstep
    | fault f => cases f
    | refused r' => rw [ht] at hstep; exact congrArg _ hstep

end Sys2Proof.Machine

/-! ## Admitted and refused accesses, and the effect of a write (20_memory R63 to R70) -/

namespace Sys2Proof.Machine

section
variable {s : State} {off : Nat} {v : Word}

/-! ### The window -/

/-- The offset column and the window name the same registers (10_state R22). -/
theorem Reg.ofOff_eq_some_iff {r : Reg} : Reg.ofOff off = some r ↔ off = r.off := by
  constructor
  · intro h
    unfold Reg.ofOff at h
    split at h <;> cases h <;> rfl
  · rintro rfl
    cases r <;> rfl

/-- ERR_CMD is the last register of the window (10_state R22). -/
theorem Reg.off_le (r : Reg) : r.off ≤ 0x50 := by
  cases r <;> decide

/-- A reserved offset names no register (20_memory R68). -/
theorem Reg.ofOff_eq_none_of_ge (h : 0x54 ≤ off) : Reg.ofOff off = none :=
  Option.eq_none_iff_forall_ne_some.2 fun r hr => by
    have hoff := Reg.ofOff_eq_some_iff.1 hr
    have hle := r.off_le
    omega

/-! ### Reads and writes of one register -/

/-- A read of anything but OUT_DATA has no side effect (20_memory R64, R70). -/
theorem readOff_of_ne_outData (s : State) (h : off ≠ 0x3C) :
    readOff off s = ((Reg.ofOff off).elim 0 s.regValue, s) := by
  unfold readOff
  cases hr : Reg.ofOff off with
  | none => rfl
  | some r =>
    cases r with
    | OUT_DATA => exact absurd (Reg.ofOff_eq_some_iff.1 hr) h
    | _ => rfl

/-- A write to an offset that is not writable is ignored (20_memory R65, R68). -/
theorem writeOff_of_not_writable (s : State) (v : Word) (h : off ∉ [0x08, 0x10, 0x14, 0x18, 0x20, 0x24, 0x38]) :
    writeOff off v s = s := by
  unfold writeOff
  split
  case h_8 => rfl
  all_goals
    rename_i hr
    rw [Reg.ofOff_eq_some_iff.1 hr] at h
    exact absurd h (by decide)

/-- A CMD write to an idle HCE issues the command (20_memory R66). -/
theorem issue_of_idle (h : s.busy = false) : s.issue v = { s with pendCmd := v, pendArg := s.arg, busy := true } :=
  if_neg (by simp [h])

/-- A CMD write while a command is pending is an overrun (20_memory R66). -/
theorem issue_of_busy (h : s.busy = true) : s.issue v = s.setIrq irqOverrun :=
  if_pos h

/-- An IN_DATA write to an input FIFO with room (20_memory R67). -/
theorem pushIn_of_room {b : Byte} (h : s.inf.length < s.cfg.inDepth) : s.pushIn b = { s with inf := s.inf ++ [b] } :=
  if_pos h

/-- An IN_DATA write to a full input FIFO (20_memory R67). -/
theorem pushIn_of_full {b : Byte} (h : s.cfg.inDepth ≤ s.inf.length) : s.pushIn b = s.setIrq irqInOvf :=
  if_neg (Nat.not_lt.2 h)

/-! ### Refusals -/

/-- No step faults: an outcome that is no refusal is a next state (60_exceptions R224; 20_memory R78). -/
theorem exists_next_iff_not_refused (o : Out) : (∃ s', o = .next s') ↔ ¬ ∃ r, o = .refused r := by
  cases o with
  | next s' => simp
  | fault f => cases f
  | refused r => simp

/-- The tests of an access fail exactly for what R63 does not allow. -/
theorem accessOffset_error_iff (c : Config) (width : AccessWidth) (addr : Nat) :
    (∃ r, accessOffset c width addr = .error r) ↔ ¬ Admitted c (.read width addr) := by
  unfold accessOffset
  by_cases hout : addr < c.base ∨ c.base + 0xFF < addr
  · rw [if_pos hout]
    exact iff_of_true ⟨_, rfl⟩ fun ⟨_, hlo, hhi, _⟩ => by omega
  rw [if_neg hout]
  by_cases hwidth : width = .w32
  · rw [if_neg (not_not.2 hwidth)]
    by_cases h4 : (addr - c.base) % 4 = 0
    · rw [if_neg (not_not.2 h4)]
      exact iff_of_false nofun (not_not.2 ⟨hwidth, by omega, by omega, h4⟩)
    · rw [if_pos h4]
      exact iff_of_true ⟨_, rfl⟩ fun ⟨_, _, _, haligned⟩ => h4 haligned
  · rw [if_pos hwidth]
    exact iff_of_true ⟨_, rfl⟩ fun ⟨hw, _⟩ => hwidth hw

/-- A host access is refused exactly if R63 does not allow it. -/
theorem hostAccess_refused_iff (a : Access) (s : State) :
    (∃ r, hostAccess a s = .refused r) ↔ ¬ Admitted s.cfg a := by
  cases a with
  | read width addr =>
    rw [← accessOffset_error_iff, hostAccess]
    cases accessOffset s.cfg width addr <;> simp
  | write width addr v =>
    refine Iff.trans ?_ (accessOffset_error_iff s.cfg width addr)
    rw [hostAccess]
    cases accessOffset s.cfg width addr <;> simp

/-- The engine's turn always answers a next state (30_encoding R93: "`Execute` is total"). -/
theorem exists_engineTurn_eq_next (s : State) : ∃ s', engineTurn s = .next s' := by
  unfold engineTurn
  split
  · unfold engineStep
    cases decode s.pendCmd with
    | ok i => exact ⟨_, exec_eq i s⟩
    | error e => exact ⟨_, rfl⟩
  · exact ⟨s, rfl⟩

/-- The engine's turn is never refused. -/
theorem engineTurn_not_refused (s : State) : ¬ ∃ r, engineTurn s = .refused r :=
  (exists_next_iff_not_refused _).1 (exists_engineTurn_eq_next s)

/-- A turn is refused exactly if it is a host access that R63 does not allow. -/
theorem takeTurn_refused_iff (t : Turn) (s : State) :
    (∃ r, takeTurn t s = .refused r) ↔ ∃ a, t = .host a ∧ ¬ Admitted s.cfg a := by
  cases t with
  | engine => simpa [takeTurn] using engineTurn_not_refused s
  | host a => simpa [takeTurn] using hostAccess_refused_iff a s
  | waitIdle polls => simp [takeTurn, waitIdleRound_eq]
  | hwReset => simp [takeTurn]

/-- A step is refused exactly if its turn is a host access that R63 does not allow. -/
theorem step_refused_iff (s : State) :
    (∃ r, step s = .refused r) ↔ ∃ a rest, s.agenda = .host a :: rest ∧ ¬ Admitted s.cfg a := by
  unfold step
  cases s.agenda with
  | nil => simpa using engineTurn_not_refused s
  | cons t rest => simpa using takeTurn_refused_iff t { s with agenda := rest }

end

/-- Settles O48: only a host access can be refused, and it is exactly if R63 does not allow it. -/
theorem onlyInadmissibleAccessesAreRefused : Obligations.OnlyInadmissibleAccessesAreRefused := by
  unfold Obligations.OnlyInadmissibleAccessesAreRefused
  exact fun s => ⟨step_refused_iff s, exists_next_iff_not_refused (step s)⟩

/-- Settles O41: a read that is not of OUT_DATA returns the value of the register at the offset, or 0 for none. -/
theorem readsHaveNoSideEffect : Obligations.ReadsHaveNoSideEffect := by
  unfold Obligations.ReadsHaveNoSideEffect
  intro s rest off h h4 hle hne
  have hstep := step_read h hle h4
  rw [readOff_of_ne_outData _ hne] at hstep
  refine ⟨_, hstep, fun r hr => ?_, ?_⟩
  · -- Each row of the statement's table pairs a register with its offset.
    have hoff : off = r.off := by
      refine (?_ : ∀ p : Nat × Reg, p ∈ (_ : List (Nat × Reg)) → p.1 = p.2.off) (off, r) hr
      decide
    rw [Reg.ofOff_eq_some_iff.2 hoff]
    cases r with
    | OUT_DATA => exact absurd hoff hne
    | _ => rfl
  · rintro (rfl | rfl | hres)
    · rfl
    · rfl
    · rw [Reg.ofOff_eq_none_of_ge hres]
      rfl

/-- Settles O45: the writable offsets have the effect of their rows, the others are ignored. -/
theorem writesActByOffset : Obligations.WritesActByOffset := by
  unfold Obligations.WritesActByOffset
  intro s rest off v h h4 hle
  have hstep := step_write h hle h4
  refine ⟨?_, ?_, ?_, ?_, ?_, fun hoff => by rw [hstep, writeOff_of_not_writable _ v hoff]⟩
  all_goals
    rintro rfl
    exact hstep

/-- Settles O46: the write at 0x18 is `State.issue`. -/
theorem cmdWriteIssuesOrOverruns : Obligations.CmdWriteIssuesOrOverruns := by
  unfold Obligations.CmdWriteIssuesOrOverruns
  intro s rest v h
  have hstep : step s = .next (State.issue v { s with agenda := rest }) := step_write h (by decide) (by decide)
  constructor
  · intro hb
    rw [hstep, issue_of_idle (s := { s with agenda := rest }) hb]
  · intro hb
    rw [hstep, issue_of_busy (s := { s with agenda := rest }) hb]
    rfl

/-- Settles O47: the write at 0x38 is `State.pushIn` of bits 7..0. -/
theorem inDataWritePushesOrOverflows : Obligations.InDataWritePushesOrOverflows := by
  unfold Obligations.InDataWritePushesOrOverflows
  intro s rest v h
  have hstep : step s = .next (State.pushIn (v.extractLsb' 0 8) { s with agenda := rest }) :=
    step_write h (by decide) (by decide)
  constructor
  · intro hroom
    rw [hstep, pushIn_of_room (s := { s with agenda := rest }) hroom]
  · intro hfull
    rw [hstep, pushIn_of_full (s := { s with agenda := rest }) hfull]
    rfl

end Sys2Proof.Machine

/-! ## Command words: rows, operand fields and named bits (30_encoding R90 to R97) -/

namespace Sys2Proof

open Machine

section
variable {w : Word} {i : Instr}

/-- The command of the row of `i` whose operands are read from the fields of `w` (30_encoding R91, R92). -/
def Instr.withOperandsOf (w : Word) : Instr → Instr
  | .nop => .nop
  | .srst => .srst
  | .sclr => .sclr
  | .hclr => .hclr
  | .hwr _ => .hwr (symField w)
  | .hrd _ => .hrd (symField w)
  | .build => .build
  | .nrd _ _ => .nrd (nodeField w) (selField w)
  | .genc => .genc
  | .clen _ => .clen (symField w)
  | .cbits _ _ => .cbits (symField w) (wrdField w)
  | .enc _ => .enc (symField w)
  | .flush => .flush
  | .dec => .dec

/-- Other operands leave the opcode. -/
@[simp] theorem Instr.opcode_withOperandsOf (w : Word) (i : Instr) : (i.withOperandsOf w).opcode = i.opcode := by
  cases i <;> rfl

/-- Other operands leave the format. -/
@[simp] theorem namedBits_withOperandsOf (w : Word) (i : Instr) : namedBits (i.withOperandsOf w) = namedBits i := by
  cases i <;> rfl

/-- A word with the opcode of a row is a command of that row (30_encoding R95). -/
theorem decode_of_opField_eq (h : opField w = i.opcode) : decode w = .ok (i.withOperandsOf w) := by
  cases i <;> simp only [decode, h, Instr.opcode] <;> rfl

/-- An operand area holds its command's operands in the fields of R92. -/
theorem Instr.withOperandsOf_append_operandArea (op : BitVec 8) (i : Instr) :
    i.withOperandsOf (op ++ i.operandArea) = i := by
  have hsym (area : BitVec 16) (sym : Byte) : symField (op ++ (area ++ sym)) = sym := by
    rw [symField, extract_append_low _ _ _ _ (by decide), BitVec.extractLsb'_append_eq_right]
  cases i with
  | hwr sym | hrd sym | clen sym | enc sym => simp only [Instr.withOperandsOf, Instr.operandArea, hsym]
  | cbits sym wrd =>
    have hwrd : wrdField (op ++ (0#11 ++ wrd ++ sym)) = wrd := by
      rw [wrdField, extract_append_low _ _ _ _ (by decide), BitVec.extractLsb'_append_eq_of_le (by decide),
        BitVec.extractLsb'_append_eq_right]
    simp only [Instr.withOperandsOf, Instr.operandArea, hsym, hwrd]
  | nrd node sel =>
    have hnode : nodeField (op ++ (0#10 ++ sel ++ 0#3 ++ node)) = node := by
      rw [nodeField, extract_append_low _ _ _ _ (by decide), BitVec.extractLsb'_append_eq_right]
    have hsel : selField (op ++ (0#10 ++ sel ++ 0#3 ++ node)) = sel := by
      rw [selField, extract_append_low _ _ _ _ (by decide), BitVec.extractLsb'_append_eq_of_le (by decide),
        BitVec.extractLsb'_append_eq_of_le (by decide), BitVec.extractLsb'_append_eq_right]
    simp only [Instr.withOperandsOf, Instr.operandArea, hnode, hsel]
  | _ => rfl

/-- Decoding inverts encoding, every operand at every value. -/
theorem decode_encode (i : Instr) : decode (encode i) = .ok i := by
  rw [decode_of_opField_eq (opField_encode i), encode, Instr.withOperandsOf_append_operandArea]

/-- No two commands have the same encoding. -/
theorem encode_injective : Function.Injective encode := fun i j h =>
  Except.ok.inj <| by rw [← decode_encode i, h, decode_encode j]

/-- A word is a command exactly if it has the opcode of its row and its operand fields are the operands. -/
theorem decode_eq_ok_iff : decode w = .ok i ↔ opField w = i.opcode ∧ i.withOperandsOf w = i := by
  constructor
  · intro h
    have hop : opField w = i.opcode := (opcode_of_decode h).symm
    exact ⟨hop, Except.ok.inj ((decode_of_opField_eq hop).symm.trans h)⟩
  · rintro ⟨hop, hi⟩
    rw [decode_of_opField_eq hop, hi]

/-! ### Named bits (R91): a word cut at the borders of its format's fields, and the mask cut there too -/

/-- A word is its opcode and its operand area (30_encoding R90). -/
theorem word_eq_append (w : Word) : w = opField w ++ w.extractLsb' 0 24 := by
  rw [opField, BitVec.extractLsb'_append_extractLsb'_eq_extractLsb', BitVec.extractLsb'_eq_self]
  rfl

/-- The operand area of format S. -/
theorem operandArea_eq_sym (w : Word) : w.extractLsb' 0 24 = w.extractLsb' 8 16 ++ symField w := by
  rw [symField, BitVec.extractLsb'_append_extractLsb'_eq_extractLsb']
  rfl

/-- The operand area of format SW. -/
theorem operandArea_eq_wrd (w : Word) :
    w.extractLsb' 0 24 = w.extractLsb' 13 11 ++ wrdField w ++ symField w := by
  rw [operandArea_eq_sym, wrdField, BitVec.extractLsb'_append_extractLsb'_eq_extractLsb']
  rfl

/-- The operand area of format NS. -/
theorem operandArea_eq_node (w : Word) :
    w.extractLsb' 0 24 = w.extractLsb' 14 10 ++ selField w ++ w.extractLsb' 9 3 ++ nodeField w := by
  unfold selField nodeField
  iterate 3 rw [BitVec.extractLsb'_append_extractLsb'_eq_extractLsb']
  all_goals rfl

/-- A mask that names OP and some bits of the operand area. -/
theorem and_opMask (w : Word) (mask : BitVec 24) :
    w &&& (BitVec.allOnes 8 ++ mask) = opField w ++ (w.extractLsb' 0 24 &&& mask) := by
  conv_lhs => rw [word_eq_append w, BitVec.and_append, BitVec.and_allOnes]

/-- The bits a format names are the opcode and the operand fields. -/
theorem and_namedBits (w : Word) (i : Instr) :
    w &&& namedBits i = opField w ++ (i.withOperandsOf w).operandArea := by
  cases i with
  | hwr _ | hrd _ | clen _ | enc _ =>
    have hmask : 0xFF0000FF#32 = BitVec.allOnes 8 ++ (0#16 ++ BitVec.allOnes 8) := by decide
    rw [namedBits, hmask, and_opMask, operandArea_eq_sym, BitVec.and_append, BitVec.and_zero, BitVec.and_allOnes]
    rfl
  | cbits _ _ =>
    have hmask : 0xFF001FFF#32 = BitVec.allOnes 8 ++ (0#11 ++ BitVec.allOnes 5 ++ BitVec.allOnes 8) := by decide
    rw [namedBits, hmask, and_opMask, operandArea_eq_wrd, BitVec.and_append, BitVec.and_append, BitVec.and_zero,
      BitVec.and_allOnes, BitVec.and_allOnes]
    rfl
  | nrd _ _ =>
    have hmask : 0xFF0031FF#32 =
        BitVec.allOnes 8 ++ (0#10 ++ BitVec.allOnes 2 ++ 0#3 ++ BitVec.allOnes 9) := by decide
    rw [namedBits, hmask, and_opMask, operandArea_eq_node, BitVec.and_append, BitVec.and_append, BitVec.and_append,
      BitVec.and_zero, BitVec.and_zero, BitVec.and_allOnes, BitVec.and_allOnes]
    rfl
  | _ =>
    have hmask : 0xFF000000#32 = BitVec.allOnes 8 ++ 0#24 := by decide
    rw [namedBits, hmask, and_opMask, BitVec.and_zero]
    rfl

end

/-- Settles O2: in a word with the row's opcode the named bits are the encoding of the row's command in that word. -/
theorem decodeReadsNamedBitsOnly : Obligations.DecodeReadsNamedBitsOnly := by
  unfold Obligations.DecodeReadsNamedBitsOnly
  intro w i
  rw [decode_eq_ok_iff, and_namedBits]
  have hencode (hop : opField w = i.opcode) :
      opField w ++ (i.withOperandsOf w).operandArea = encode (i.withOperandsOf w) := by
    rw [encode, Instr.opcode_withOperandsOf, hop]
  constructor
  · rintro ⟨hop, hi⟩
    rw [hencode hop, hi]
  · intro h
    have hop : opField w = i.opcode := by simpa only [opField_append, opField_encode] using congrArg opField h
    exact ⟨hop, encode_injective ((hencode hop).symm.trans h)⟩

section
variable {w : Word} {i j : Instr}

/-- The opcodes listed are those of the commands (30_encoding R95). -/
theorem mem_listedOpcodes_iff {op : BitVec 8} : op ∈ listedOpcodes ↔ ∃ i : Instr, i.opcode = op := by
  constructor
  · intro h
    have hmap : listedOpcodes = List.map Instr.opcode
        [.nop, .srst, .sclr, .hclr, .hwr 0, .hrd 0, .build, .nrd 0 0, .genc, .clen 0, .cbits 0 0, .enc 0, .flush,
          .dec] := rfl
    rw [hmap] at h
    obtain ⟨i, -, hi⟩ := List.mem_map.1 h
    exact ⟨i, hi⟩
  · rintro ⟨i, rfl⟩
    cases i <;> simp [Instr.opcode, listedOpcodes]

/-- A word is a command exactly if its opcode is listed (30_encoding R96, R97). -/
theorem exists_decode_eq_ok_iff : (∃ i, decode w = .ok i) ↔ opField w ∈ listedOpcodes := by
  rw [mem_listedOpcodes_iff]
  exact ⟨fun ⟨i, h⟩ => ⟨i, opcode_of_decode h⟩, fun ⟨i, h⟩ => ⟨_, decode_of_opField_eq h.symm⟩⟩

/-- The row of an opcode fixes the format (30_encoding R97). -/
theorem namedBits_eq_of_opcode_eq (h : i.opcode = j.opcode) : namedBits i = namedBits j := by
  have hj : i.withOperandsOf (encode j) = j :=
    Except.ok.inj ((decode_of_opField_eq ((opField_encode j).trans h.symm)).symm.trans (decode_encode j))
  rw [← hj, namedBits_withOperandsOf]

end

/-- Settles O3: by the row that `decode` selects and the rows of the commands. -/
theorem opcodeAloneSelectsTheRow : Obligations.OpcodeAloneSelectsTheRow := by
  unfold Obligations.OpcodeAloneSelectsTheRow
  exact ⟨fun _ => exists_decode_eq_ok_iff, fun _ _ => opcode_of_decode, fun _ _ => namedBits_eq_of_opcode_eq,
    by decide, by decide⟩

end Sys2Proof

/-! ## The engine's turn and the assembler (30_encoding R93, R96, R98) -/

namespace Sys2Proof.Machine

section
variable {s : State} {rest : List Turn}

/-- When the engine is next, a step is its turn in the state whose agenda is what is left. -/
theorem step_of_engineNext (h : engineNext s rest) : step s = engineTurn { s with agenda := rest } := by
  obtain ⟨hag, rfl⟩ | hag := h
  · simp only [step, hag]
    rw [← hag]
  · simp only [step, hag, takeTurn]

/-- A pending command is executed (30_encoding R93). -/
theorem engineTurn_of_decode {i : Instr} (hb : s.busy = true) (hd : decode s.pendCmd = .ok i) :
    engineTurn s = exec i s := by
  rw [engineTurn, if_pos hb, engineStep, hd]

/-- A word that is no command completes with ILLEGAL_CMD (30_encoding R96). -/
theorem engineTurn_of_not_decode (hb : s.busy = true) (hd : ¬ ∃ i, decode s.pendCmd = .ok i) :
    engineTurn s = .next (s.fail .illegalCmd) := by
  rw [engineTurn, if_pos hb, engineStep]
  cases hdec : decode s.pendCmd with
  | ok i => exact absurd ⟨i, hdec⟩ hd
  | error e => rfl

/-- With no command pending the engine's turn passes (log 3). -/
theorem engineTurn_of_idle (hb : s.busy = false) : engineTurn s = .next s := by
  rw [engineTurn, if_neg (by simp [hb])]

end

/-- Settles O5: the three cases of the engine's turn. -/
theorem stepRunsPendingCommand : Obligations.StepRunsPendingCommand := by
  unfold Obligations.StepRunsPendingCommand
  intro s rest h
  rw [step_of_engineNext h]
  exact ⟨fun i hb hd => engineTurn_of_decode hb hd,
    fun hb hop => engineTurn_of_not_decode hb (mt exists_decode_eq_ok_iff.1 hop), fun hb => engineTurn_of_idle hb⟩

/-! ### The assembler (R98) -/

section
variable {c : AsmCmd}

/-- A command line with an operand out of range is refused. -/
theorem assemble_of_not_wf (h : c.wf = false) : assemble c = none :=
  if_neg (by simp [h])

/-- The operands of a command are in range (30_encoding R92). -/
theorem asmForm_wf (count : Word) (i : Instr) : (asmForm count.toNat i).wf = true := by
  cases i <;> simp only [asmForm, AsmCmd.wf, Bool.and_eq_true, decide_eq_true_eq] <;> omega

/-- The written form of a command assembles to it. -/
theorem assemble_asmForm (count : Word) (i : Instr) : assemble (asmForm count.toNat i) = some i :=
  (if_pos (asmForm_wf count i)).trans (by cases i <;> simp [asmForm])

/-- A command line in range is the written form of a command. -/
theorem exists_asmForm_of_wf (h : c.wf = true) : ∃ (i : Instr) (count : Word), c = asmForm count.toNat i := by
  cases c <;> simp only [AsmCmd.wf, Bool.and_eq_true, decide_eq_true_eq] at h
  case hwr sym count =>
    exact ⟨.hwr (BitVec.ofNat 8 sym), BitVec.ofNat 32 count, by simp [asmForm]; omega⟩
  case hrd sym => exact ⟨.hrd (BitVec.ofNat 8 sym), 0, by simp [asmForm]; omega⟩
  case clen sym => exact ⟨.clen (BitVec.ofNat 8 sym), 0, by simp [asmForm]; omega⟩
  case enc sym => exact ⟨.enc (BitVec.ofNat 8 sym), 0, by simp [asmForm]; omega⟩
  case cbits sym wrd => exact ⟨.cbits (BitVec.ofNat 8 sym) (BitVec.ofNat 5 wrd), 0, by simp [asmForm]; omega⟩
  case nrd node sel => exact ⟨.nrd (BitVec.ofNat 9 node) (BitVec.ofNat 2 sel), 0, by simp [asmForm]; omega⟩
  case nop => exact ⟨.nop, 0, rfl⟩
  case srst => exact ⟨.srst, 0, rfl⟩
  case sclr => exact ⟨.sclr, 0, rfl⟩
  case hclr => exact ⟨.hclr, 0, rfl⟩
  case build => exact ⟨.build, 0, rfl⟩
  case genc => exact ⟨.genc, 0, rfl⟩
  case flush => exact ⟨.flush, 0, rfl⟩
  case dec => exact ⟨.dec, 0, rfl⟩

end

/-- Settles O51: the operand ranges are those of the operand types. -/
theorem assemblerAcceptsExactlyTheCommands : Obligations.AssemblerAcceptsExactlyTheCommands := by
  unfold Obligations.AssemblerAcceptsExactlyTheCommands
  refine ⟨fun c h => ⟨assemble_of_not_wf h, fun base polls => ?_⟩, fun c => ⟨exists_asmForm_of_wf, ?_⟩,
    fun i count => assemble_asmForm count i⟩
  · rw [HostLine.turns, assemble_of_not_wf h, Option.map_none]
  · rintro ⟨i, count, rfl⟩
    exact asmForm_wf count i

end Sys2Proof.Machine

/-! ## The line of a mnemonic (30_encoding R99) -/

namespace Sys2Proof.Machine

section

/-! ### No command reads the turns to come (log 2) -/

variable {s t : State} {a rest : List Turn} {i : Instr}

/-- `s` with `a` as the turns to come. -/
def State.withAgenda (a : List Turn) (s : State) : State := { s with agenda := a }

/-- `o` with `a` as the turns to come in the state it carries. -/
def CmdOut.withAgenda (a : List Turn) : CmdOut → CmdOut
  | .finish r s => .finish r (s.withAgenda a)
  | .raise e => .raise e

/-- A test in which the turns to come play no part. -/
theorem ite_eq_withAgenda {p : Prop} [Decidable p] {o₁ o₂ o₁' o₂' : CmdOut} (h₁ : o₁' = o₁.withAgenda a)
    (h₂ : o₂' = o₂.withAgenda a) : (if p then o₁' else o₂') = (if p then o₁ else o₂).withAgenda a := by
  rw [apply_ite (CmdOut.withAgenda a), h₁, h₂]

/-- Appending a bit does not read the turns to come. -/
theorem appendBit_withAgenda (a : List Turn) (s : State) (b : Bool) :
    appendBit (s.withAgenda a) b = (appendBit s b).withAgenda a := by
  unfold appendBit
  dsimp only
  rw [apply_ite (State.withAgenda a)]
  rfl

/-- Appending bits does not read the turns to come. -/
theorem appendBits_withAgenda (a : List Turn) (s : State) (bits : List Bool) :
    appendBits (s.withAgenda a) bits = (appendBits s bits).withAgenda a :=
  List.foldl_hom (State.withAgenda a) (appendBit_withAgenda a)

/-- DEC does not read the turns to come. -/
theorem decOut_withAgenda (a : List Turn) (s : State) : decOut (s.withAgenda a) = (decOut s).withAgenda a := by
  rw [decOut_eq, decOut_eq]
  refine ite_eq_withAgenda rfl (ite_eq_withAgenda rfl (ite_eq_withAgenda rfl (ite_eq_withAgenda rfl ?_)))
  have hwalk : (s.withAgenda a).walk = s.walk := rfl
  simp only [walk_eq, hwalk]
  cases s.walk.sym <;> rfl

/-- No command reads the turns to come (log 2). -/
theorem execOut_withAgenda (a : List Turn) (i : Instr) (s : State) :
    execOut i (s.withAgenda a) = (execOut i s).withAgenda a := by
  cases i with
  | genc | clen _ | cbits _ _ => exact ite_eq_withAgenda rfl rfl
  | enc sym =>
    exact ite_eq_withAgenda rfl (ite_eq_withAgenda rfl (ite_eq_withAgenda rfl
      (congrArg (CmdOut.finish _) (appendBits_withAgenda a s (s.codeAt sym)))))
  | flush => exact ite_eq_withAgenda rfl (ite_eq_withAgenda rfl rfl)
  | dec => exact decOut_withAgenda a s
  | _ => rfl

/-- A command does the same whatever turns are to come, and leaves them as they are. -/
theorem exec_withAgenda (a : List Turn) (h : exec i s = .next t) :
    exec i (s.withAgenda a) = .next (t.withAgenda a) := by
  rw [exec_next_iff] at h ⊢
  rw [h, execOut_withAgenda]
  cases execOut i s <;> rfl

/-- A completed command is no longer pending (30_encoding R94). -/
theorem exec_busy (h : exec i s = .next t) : t.busy = false := by
  rw [exec_next_iff.1 h]
  cases execOut i s <;> rfl

/-! ### The turns of a line -/

/-- A step whose turn is a round of WAITIDLE. -/
theorem step_waitIdle {polls : Nat} (h : s.agenda = .waitIdle polls :: rest) : step s = .next { s with
    rdata := some s.status, agenda := if s.busy = true then waitTurns polls ++ rest else rest } := by
  simp only [step, h, takeTurn, waitIdleRound_eq]
  rfl

/-- A round of WAITIDLE that finds BUSY = 1 goes on. -/
theorem step_waitIdle_of_busy {polls : Nat} (h : s.agenda = .waitIdle polls :: rest) (hb : s.busy = true) :
    step s = .next { s with rdata := some s.status, agenda := waitTurns polls ++ rest } := by
  rw [step_waitIdle h, if_pos hb]

/-- A round of WAITIDLE that finds BUSY = 0 is the last. -/
theorem step_waitIdle_of_idle {polls : Nat} (h : s.agenda = .waitIdle polls :: rest) (hb : s.busy = false) :
    step s = .next { s with rdata := some s.status, agenda := rest } := by
  rw [step_waitIdle h, if_neg (by simp [hb])]

/-- WAITIDLE with a command pending: `polls` rounds find BUSY = 1, the engine executes the command, and the last round
reads the STATUS it left. -/
theorem run_waitTurns (polls : Nat) : ∀ s : State, s.busy = true → decode s.pendCmd = .ok i →
    s.agenda = waitTurns polls → ∃ rd t, exec i { s with agenda := [], rdata := rd } = .next t ∧
      Host.Core.run core (polls + 2) s = .next { t with rdata := some t.status } := by
  induction polls with
  | zero =>
    intro s hb hd hag
    obtain ⟨t, hexec⟩ : ∃ t, exec i s = .next t := ⟨_, exec_eq i s⟩
    have hengine : step s = .next (t.withAgenda [.waitIdle 0]) := calc
      step s = engineTurn (s.withAgenda [.waitIdle 0]) := step_of_engineNext (.inr hag)
      _ = exec i (s.withAgenda [.waitIdle 0]) := engineTurn_of_decode hb hd
      _ = .next (t.withAgenda [.waitIdle 0]) := exec_withAgenda _ hexec
    have hread : step (t.withAgenda [.waitIdle 0]) = .next { t.withAgenda [] with rdata := some t.status } :=
      step_waitIdle_of_idle (s := t.withAgenda [.waitIdle 0]) rfl (exec_busy (t := t) hexec)
    exact ⟨s.rdata, t.withAgenda [], exec_withAgenda [] hexec,
      (run_succ core 1 hengine).trans (run_succ core 0 hread)⟩
  | succ n ih =>
    intro s hb hd hag
    have hread : step s = .next { s with rdata := some s.status, agenda := waitTurns n } := by
      rw [step_waitIdle_of_busy (rest := []) hag hb, List.append_nil]
    obtain ⟨rd, t, hexec, hrun⟩ := ih { s with rdata := some s.status, agenda := waitTurns n } hb hd rfl
    exact ⟨rd, t, hexec, (run_succ core (n + 2) hread).trans hrun⟩

/-- An ARG write (20_memory R65). -/
theorem step_argWrite {v : Word} (hag : s.agenda = writeTurn s.cfg.base .ARG v :: rest) :
    step s = .next { s with arg := v, agenda := rest } :=
  step_write (off := 0x14) hag (by decide) (by decide)

/-- A CMD write to an idle HCE and its WAITIDLE. -/
theorem run_cmdWrite (polls : Nat) (hb : s.busy = false)
    (hag : s.agenda = writeTurn s.cfg.base .CMD (encode i) :: waitTurns polls) :
    ∃ rd t,
      exec i { s with agenda := [], pendCmd := encode i, pendArg := s.arg, busy := true, rdata := rd } = .next t ∧
      Host.Core.run core (polls + 3) s = .next { t with rdata := some t.status } := by
  have hissue := (cmdWriteIssuesOrOverruns s _ _ hag).1 hb
  obtain ⟨rd, t, hexec, hrun⟩ := run_waitTurns polls
    { s with agenda := waitTurns polls, pendCmd := encode i, pendArg := s.arg, busy := true } rfl (decode_encode i) rfl
  exact ⟨rd, t, hexec, (run_succ core (polls + 2) hissue).trans hrun⟩

/-- The writes that issue a command: HWR's count goes to ARG first. -/
theorem issueTurns_asmForm (base : Nat) (count : Word) (i : Instr) :
    issueTurns base (asmForm count.toNat i) i =
      if i.opcode = 0x09 then [writeTurn base .ARG count, writeTurn base .CMD (encode i)]
      else [writeTurn base .CMD (encode i)] := by
  cases i <;> simp [issueTurns, asmForm, Instr.opcode]

/-- The line of a command expands to the writes that issue it and WAITIDLE. -/
theorem turns_mnem_asmForm (base : Nat) (count : Word) (i : Instr) (polls : Nat) :
    HostLine.turns base (.mnem (asmForm count.toNat i) polls) =
      some (issueTurns base (asmForm count.toNat i) i ++ waitTurns polls) := by
  rw [HostLine.turns, assemble_asmForm, Option.map_some]

end

/-- Settles O52: the command is issued, WAITIDLE waits for the engine, and no command reads the turns to come. -/
theorem mnemonicLineRunsCommand : Obligations.MnemonicLineRunsCommand := by
  unfold Obligations.MnemonicLineRunsCommand
  refine ⟨fun s rest polls h => ⟨step_waitIdle_of_idle h, ?_, ?_⟩, fun s i count polls hb hag => ?_⟩
  · rintro hb rfl
    exact step_waitIdle_of_busy h hb
  · rintro hb n rfl
    exact step_waitIdle_of_busy h hb
  · rw [turns_mnem_asmForm, issueTurns_asmForm]
    by_cases hop : i.opcode = 0x09
    · obtain ⟨rd, t, hexec, hrun⟩ := run_cmdWrite (i := i) polls (s := { s with
        arg := count, agenda := writeTurn s.cfg.base .CMD (encode i) :: waitTurns polls }) hb rfl
      rw [← hag] at hexec
      simp only [if_pos hop]
      exact ⟨_, count, rd, t, rfl, rfl, hexec, (run_succ core (polls + 3) (step_argWrite rfl)).trans hrun,
        exec_busy hexec⟩
    · obtain ⟨rd, t, hexec, hrun⟩ := run_cmdWrite (i := i) polls (s := { s with
        agenda := writeTurn s.cfg.base .CMD (encode i) :: waitTurns polls }) hb rfl
      rw [← hag] at hexec
      simp only [if_neg hop]
      exact ⟨_, s.arg, rd, t, rfl, rfl, hexec, hrun, exec_busy hexec⟩

end Sys2Proof.Machine

/-! ## What the host's registers keep, and the control commands (40_control R110 to R112) -/

namespace Sys2Proof.Machine

/-- Settles O8: SRST keeps CTRL and the environment's fields, every other command that succeeds keeps the whole host's
side (`execOut_frame`), and one that fails changes none of it. -/
theorem hostRegistersKeptByCommands : Obligations.HostRegistersKeptByCommands := by
  unfold Obligations.HostRegistersKeptByCommands
  intro i s t h
  rw [exec_next_iff.1 h]
  obtain ⟨r, s', ho, hc⟩ | ⟨e, -, hc⟩ := complete_cases s (execOut i s) <;> rw [hc]
  · by_cases hi : i = .srst
    · subst hi
      cases ho
      exact ⟨rfl, rfl, rfl, rfl, fun hne => absurd rfl hne⟩
    · rw [execOut_frame ho hi]
      exact ⟨rfl, rfl, rfl, rfl, fun _ => ⟨rfl, rfl, rfl, rfl, rfl⟩⟩
  · exact ⟨rfl, rfl, rfl, rfl, fun _ => ⟨rfl, rfl, rfl, rfl, rfl⟩⟩

/-- Settles O12: the row of opcode 0x00 has no operand, and Execute of NOP keeps the state. -/
theorem nopCompletes : Obligations.NopCompletes := by
  unfold Obligations.NopCompletes
  exact ⟨fun _ hop => decode_of_opField_eq (i := .nop) hop, fun s => exec_eq .nop s⟩

/-- An empty FIFO of legal depth is not full (00_scope R6). -/
theorem notFull_resetWith {c : Config} (h : c.wf = true) :
    (State.resetWith c).inFull = false ∧ (State.resetWith c).outFull = false := by
  simp only [Config.wf, Bool.and_eq_true, decide_eq_true_eq] at h
  have hin : 0 < c.inDepth := by omega
  have hout : 0 < c.outDepth := by omega
  exact ⟨decide_eq_false hin.ne, decide_eq_false hout.ne⟩

/-- STATUS after a reset with legal parameters is that of the default ones: DEC_DONE and two empty FIFOs
(70_reset R251). -/
theorem status_resetWith {c : Config} (h : c.wf = true) : (State.resetWith c).status = 0x148 := by
  obtain ⟨hin, hout⟩ := notFull_resetWith h
  have hdefault : (State.resetWith c).status = State.reset.status := by
    rw [State.status, hin, hout]
    rfl
  exact hdefault.trans (by decide)

/-- TREE_INFO after a reset is 0, whatever the parameters (70_reset R251). -/
theorem treeInfo_resetWith (c : Config) : (State.resetWith c).treeInfo = 0 := by
  have hdefault : (State.resetWith c).treeInfo = State.reset.treeInfo := rfl
  exact hdefault.trans (by decide)

/-- Settles O13: SRST leaves STATUS and TREE_INFO as a reset does, since the completion too sets ERR and BUSY to 0. -/
theorem srstResetsAllButCtrlAndIrq : Obligations.SrstResetsAllButCtrlAndIrq := by
  unfold Obligations.SrstResetsAllButCtrlAndIrq
  refine ⟨fun _ hop => decode_of_opField_eq (i := .srst) hop, fun s =>
    ⟨s.softReset.succeed 0, exec_eq .srst s, rfl, fun hwf => ?_⟩⟩
  have hstatus : (s.softReset.succeed 0).status = (State.resetWith s.cfg).status := rfl
  have htree : (s.softReset.succeed 0).treeInfo = (State.resetWith s.cfg).treeInfo := rfl
  exact ⟨hstatus.trans (status_resetWith hwf), htree.trans (treeInfo_resetWith s.cfg)⟩

/-- Settles O14: Execute of SCLR is `State.clearStream`, and the completion keeps the rest. -/
theorem sclrClearsStreamOnly : Obligations.SclrClearsStreamOnly := by
  unfold Obligations.SclrClearsStreamOnly
  exact ⟨fun _ hop => decode_of_opField_eq (i := .sclr) hop, fun s => exec_eq .sclr s⟩

end Sys2Proof.Machine

/-! ## The counters under the histogram commands (41_histogram R120 to R122) -/

namespace Sys2Proof.Machine

/-- A completion keeps every counter (30_encoding R94). -/
@[simp] theorem histAt_succeed (s : State) (r : Word) (sym : Byte) : (s.succeed r).histAt sym = s.histAt sym := rfl

/-- Dropping the valid bits keeps every counter (10_state R38, R39). -/
@[simp] theorem histAt_dropValid (s : State) (sym : Byte) : s.dropValid.histAt sym = s.histAt sym := rfl

/-- Every counter of the cleared histogram is 0 (41_histogram R120). -/
theorem histAt_cleared (s : State) (sym : Byte) : State.histAt { s with hist := Vector.replicate 256 0 } sym = 0 :=
  Vector.getElem_replicate sym.isLt

/-- Settles O15: Execute of HCLR clears the histogram and drops both valid bits, and the completion keeps the rest. -/
theorem hclrClearsEveryCounter : Obligations.HclrClearsEveryCounter := by
  unfold Obligations.HclrClearsEveryCounter
  refine ⟨fun _ hop => decode_of_opField_eq (i := .hclr) hop, fun s => ⟨_, exec_eq .hclr s, fun sym => ?_, rfl⟩⟩
  simp only [execOut, complete_finish, histAt_succeed, histAt_dropValid, histAt_cleared]

/-- Settles O16: Execute of HWR is one `State.setHist` (`histAt_setHist`) and drops both valid bits. -/
theorem hwrWritesOneCounter : Obligations.HwrWritesOneCounter := by
  unfold Obligations.HwrWritesOneCounter
  refine ⟨fun _ hop => decode_of_opField_eq (i := .hwr 0) hop,
    fun sym s => ⟨_, exec_eq (.hwr sym) s, fun x => ?_, rfl⟩⟩
  simp only [execOut, complete_finish, histAt_succeed, histAt_dropValid, histAt_setHist, eq_comm (a := x)]

/-- Settles O17: Execute of HRD keeps the state, and its result is the counter. -/
theorem hrdReadsCounter : Obligations.HrdReadsCounter := by
  unfold Obligations.HrdReadsCounter
  exact ⟨fun _ hop => decode_of_opField_eq (i := .hrd 0) hop, fun sym s => exec_eq (.hrd sym) s⟩

end Sys2Proof.Machine

/-! ## BUILD: the registers, the leaves, and what it reads (42_tree_builder R134, R136, R138) -/

namespace Sys2Proof.Machine

section
variable {s t : State}

/-- The reduction BUILD runs from a state (42_tree_builder R136). -/
def State.built (s : State) : BuiltTree := buildTree s.hist.toList s.builder

/-- BUILD writes the reduction and completes with `k` (42_tree_builder R136). -/
theorem exec_build_next_iff :
    exec .build s = .next t ↔ t = (s.withTree s.built).succeed (BitVec.ofNat 32 s.built.k) := exec_next_iff

/-- The registers the reduction leaves, from the number of present symbols (42_tree_builder R136). -/
theorem built_registers (s : State) :
    s.built.k = (presentLeaves s.hist).length ∧ s.built.b.nodeCnt = 2 * (presentLeaves s.hist).length - 1 ∧
    s.built.b.heapN = 0 ∧ s.built.root = BitVec.ofNat 9 (2 * (presentLeaves s.hist).length - 2) ∧
    s.built.rootValid = decide (0 < (presentLeaves s.hist).length) := by
  obtain ⟨hk, hshape, hheap, hv, hroot, -⟩ := buildTree_spec s.hist.toList s.builder (by simp)
  rw [← presentLeaves_eq] at hk
  have hcnt := hshape.count
  rw [hk] at hcnt hv
  refine ⟨hk, hcnt, hheap, BitVec.eq_of_toNat_eq ?_, hv⟩
  have hsmall := hshape.small
  rw [State.built, hroot, BitVec.toNat_ofNat]
  omega

end

/-- Settles O18: what the reduction leaves (`built_registers`), written by `State.withTree` and completed. -/
theorem buildSetsTreeRegisters : Obligations.BuildSetsTreeRegisters := by
  unfold Obligations.BuildSetsTreeRegisters
  intro s
  obtain ⟨hk, hcnt, hheap, hroot, hv⟩ := built_registers s
  refine ⟨_, exec_build_next_iff.2 rfl, ?_⟩
  simp only [State.succeed, State.withTree, hk, hcnt, hheap, hroot, hv, irqCmdDone, BitVec.ofNat_eq_ofNat]

/-- Settles O23: the allocated nodes and the registers are the same for two builders (`buildTree_sameBuilt`). -/
theorem buildDependsOnHistogramOnly : Obligations.BuildDependsOnHistogramOnly := by
  unfold Obligations.BuildDependsOnHistogramOnly
  intro s s' t t' hhist ht ht'
  obtain ⟨⟨hcnt, hnodes⟩, -, hroot, hv, -⟩ := buildTree_sameBuilt s'.hist.toList (by simp) s'.builder s.builder
  rw [exec_build_next_iff, State.built, hhist] at ht
  rw [exec_build_next_iff, State.built] at ht'
  subst ht ht'
  refine ⟨congrArg (BitVec.ofNat 10) hcnt, hroot, hv, fun n hn => hnodes n ?_⟩
  rw [← hcnt]
  exact Nat.lt_of_lt_of_le hn (BitVec.toNat_ofNat .. ▸ Nat.mod_le _ _)

/-! ### The leaves (R134) -/

/-- The present symbols are those with a counter that is not 0, each with its count (R134). -/
theorem mem_presentLeaves_iff (s : State) (sym : Byte) (f : BitVec 64) :
    (sym, f) ∈ presentLeaves s.hist ↔ s.histAt sym ≠ 0 ∧ f = (s.histAt sym).setWidth 64 := by
  have hat : s.hist.toList[sym.toNat]? = some (s.histAt sym) := by
    simp [State.histAt, sym.isLt]
  simp only [presentLeaves, List.mem_map, List.mem_filter, decide_eq_true_eq, Prod.exists, Prod.mk.injEq,
    List.mem_zipIdx_iff_getElem?]
  constructor
  · rintro ⟨c, i, ⟨hi, hc⟩, rfl, rfl⟩
    obtain ⟨hlt, -⟩ := List.getElem?_eq_some_iff.1 hi
    have hi256 : i < 256 := by simpa using hlt
    rw [BitVec.toNat_ofNat, Nat.mod_eq_of_lt hi256, hi] at hat
    obtain rfl := Option.some.inj hat
    exact ⟨hc, rfl⟩
  · rintro ⟨hc, rfl⟩
    exact ⟨s.histAt sym, sym.toNat, ⟨hat, hc⟩, BitVec.ofNat_toNat .., rfl⟩

/-- Settles O19: the list is sorted (`presentFrom_sorted`), and leaf collection allocates it in order
(`buildTree_spec`). -/
theorem buildCollectsLeavesInOrder : Obligations.BuildCollectsLeavesInOrder := by
  unfold Obligations.BuildCollectsLeavesInOrder
  intro s t h
  rw [exec_build_next_iff] at h
  obtain ⟨-, -, -, -, -, hleaves⟩ := buildTree_spec s.hist.toList s.builder (by simp)
  refine ⟨(presentFrom_sorted s.hist.toList 0 (by simp)).1, mem_presentLeaves_iff s, fun n hn => ?_⟩
  rw [h]
  exact hleaves n hn

end Sys2Proof.Machine

/-! ## The frequencies of the tree (42_tree_builder R136, R139) -/

namespace Sys2Proof.Machine

/-! ### Sums over the leaves (R139) -/

section
variable {arena : Vector Node 511} {cnt k f g : Nat} {n m root : NodeIx}

/-- Below a leaf there is the leaf alone. -/
theorem leafSum_of_leaf (hl : (nodeAt arena n).leaf = true) : leafSum arena (f + 1) n = (nodeAt arena n).freq.toNat :=
  if_pos hl

/-- Below an internal node, one level less deep, are its children's leaves. -/
theorem leafSum_of_internal (hl : (nodeAt arena n).leaf = false) : leafSum arena (f + 1) n =
    leafSum arena f (nodeAt arena n).left + leafSum arena f (nodeAt arena n).right :=
  if_neg (by simp [hl])

/-- The children of an internal node of a tree are below it, and it is no leaf's index. -/
theorem TreeShape.children_lt (h : TreeShape arena cnt k) (hn : n.toNat < cnt) (hl : (nodeAt arena n).leaf = false) :
    (nodeAt arena n).left.toNat < n.toNat ∧ (nodeAt arena n).right.toNat < n.toNat ∧ k ≤ n.toNat :=
  ⟨(h.child hn hl false).1, h.child hn hl true⟩

/-- Levels beyond the internal nodes below `n` add nothing. -/
theorem TreeShape.leafSum_fuel (h : TreeShape arena cnt k) (hn : n.toNat < cnt) (hf : n.toNat + 1 ≤ k + f)
    (hg : n.toNat + 1 ≤ k + g) : leafSum arena (f + 1) n = leafSum arena (g + 1) n := by
  induction f generalizing n g with
  | zero =>
    have hl := (h.leaves n.toNat (by omega)).1
    rw [leafSum_of_leaf hl, leafSum_of_leaf hl]
  | succ f ih =>
    cases hl : (nodeAt arena n).leaf with
    | true => rw [leafSum_of_leaf hl, leafSum_of_leaf hl]
    | false =>
      obtain ⟨hleft, hright, hk⟩ := h.children_lt hn hl
      obtain ⟨g, rfl⟩ : ∃ g', g = g' + 1 := ⟨g - 1, by omega⟩
      have hchild : ∀ {x : NodeIx}, x.toNat < n.toNat → leafSum arena (f + 1) x = leafSum arena (g + 1) x :=
        fun hx => ih (by omega) (by omega) (by omega)
      rw [leafSum_of_internal hl, leafSum_of_internal hl, hchild hleft, hchild hright]

/-- The leaves below an internal node are those below its children (42_tree_builder R139). -/
theorem TreeShape.leafSum_eq_add (h : TreeShape arena cnt k) (hn : n.toNat < cnt) (hl : (nodeAt arena n).leaf = false) :
    leafSum arena 256 n =
      leafSum arena 256 (nodeAt arena n).left + leafSum arena 256 (nodeAt arena n).right := by
  have hcnt := h.count
  have hsmall := h.small
  obtain ⟨hleft, hright, -⟩ := h.children_lt hn hl
  have hchild : ∀ {x : NodeIx}, x.toNat < n.toNat → leafSum arena 255 x = leafSum arena 256 x :=
    fun hx => h.leafSum_fuel (by omega) (by omega) (by omega)
  rw [leafSum_of_internal hl, hchild hleft, hchild hright]

/-- Going down a path loses leaves only. -/
theorem TreeShape.leafSum_anti (h : TreeShape arena cnt k) {p : List Bool} :
    ∀ {n : NodeIx}, n.toNat < cnt → leads arena n p m → leafSum arena 256 m ≤ leafSum arena 256 n := by
  induction p with
  | nil => intro n _ hp; exact Nat.le_of_eq (congrArg _ hp.symm)
  | cons b p ih =>
    intro n hn hp
    rw [leads_cons] at hp
    have hle := ih (Nat.lt_trans (h.child hn hp.1 b).1 hn) hp.2
    rw [h.leafSum_eq_add hn hp.1]
    cases b
    · exact Nat.le_add_right_of_le hle
    · exact Nat.le_add_left_of_le hle

/-- Summing over the children of internal nodes is summing over those nodes both children's values. -/
theorem sum_childList (F : Nat → Nat) (arena : Vector Node 511) (k cnt : Nat) :
    ((childList arena k cnt).map F).sum = ((List.range' k (cnt - k)).map fun n =>
      F (arenaAt arena n).left.toNat + F (arenaAt arena n).right.toNat).sum := by
  unfold childList
  induction List.range' k (cnt - k) with
  | nil => rfl
  | cons n ns ih =>
    simp only [List.flatMap_cons, List.map_append, List.sum_append, ih, List.map_cons, List.sum_cons, List.map_nil,
      List.sum_nil, Nat.add_zero]

/-- A value that at each internal node is the sum of its children's is at the root the sum over the leaves: each node
but the root is a child once, so all else cancels (10_state R33). -/
theorem TreeShape.sum_leaves (h : TreeShape arena cnt k) (hk : 1 ≤ k) {F : Nat → Nat}
    (hF : ∀ n, k ≤ n → n < cnt → F n = F (arenaAt arena n).left.toNat + F (arenaAt arena n).right.toNat) :
    ((List.range k).map F).sum = F (cnt - 1) := by
  have hcnt := h.count
  have hinternal : ((childList arena k cnt).map F).sum = ((List.range' k (cnt - k)).map F).sum := by
    rw [sum_childList]
    refine congrArg List.sum (List.map_congr_left fun n hn => ?_)
    obtain ⟨hkn, hlt⟩ := List.mem_range'_1.1 hn
    exact (hF n hkn (by omega)).symm
  have hchildren : ((childList arena k cnt).map F).sum = ((List.range (cnt - 1)).map F).sum :=
    (h.parents.map F).sum_eq
  have hroot : ((List.range cnt).map F).sum = ((List.range (cnt - 1)).map F).sum + F (cnt - 1) := by
    obtain ⟨c, rfl⟩ : ∃ c, cnt = c + 1 := ⟨cnt - 1, by omega⟩
    simp [List.range_succ]
  have hsplit : ((List.range cnt).map F).sum =
      ((List.range k).map F).sum + ((List.range' k (cnt - k)).map F).sum := by
    obtain ⟨c, rfl⟩ : ∃ c, cnt = k + c := ⟨cnt - k, by omega⟩
    rw [Nat.add_sub_cancel_left, ← List.sum_append, ← List.map_append, List.range_eq_range', List.range_eq_range',
      ← List.range'_append_1, Nat.zero_add]
  omega

/-- The leaves below the root are all leaves (42_tree_builder R139). -/
theorem TreeShape.leafSum_root (h : TreeShape arena cnt k) (hk : 1 ≤ k) (hr : root.toNat = cnt - 1) :
    leafSum arena 256 root = ((List.range k).map fun n => (arenaAt arena n).freq.toNat).sum := by
  have hcnt := h.count
  have hsmall := h.small
  have hnode : ∀ n, n < cnt → nodeAt arena (BitVec.ofNat 9 n) = arenaAt arena n := fun n hn => by
    rw [nodeAt, BitVec.toNat_ofNat, Nat.mod_eq_of_lt (by omega)]
  have hsum := h.sum_leaves hk (F := fun n => leafSum arena 256 (BitVec.ofNat 9 n)) fun n hkn hn => by
    have hl := (h.internals n hkn hn).1
    rw [← hnode n hn] at hl ⊢
    simp only [BitVec.ofNat_toNat, BitVec.setWidth_eq]
    exact h.leafSum_eq_add (by rw [BitVec.toNat_ofNat]; omega) hl
  rw [← hr, BitVec.ofNat_toNat, BitVec.setWidth_eq] at hsum
  rw [← hsum]
  refine congrArg List.sum (List.map_congr_left fun n hn => ?_)
  have hlt := List.mem_range.1 hn
  have hl := (h.leaves n hlt).1
  rw [← hnode n (by omega)] at hl ⊢
  exact leafSum_of_leaf hl

/-- A frequency is the sum over the leaves below, if the sum of all of them fits (42_tree_builder R139). -/
theorem TreeShape.freq_eq_leafSum (h : TreeShape arena cnt k) (hr : root.toNat = cnt - 1)
    (hfit : leafSum arena 256 root < 2 ^ 64) (hn : n.toNat < cnt) :
    (nodeAt arena n).freq.toNat = leafSum arena 256 n := by
  induction hd : n.toNat using Nat.strong_induction_on generalizing n with
  | _ d ih =>
    subst hd
    cases hl : (nodeAt arena n).leaf with
    | true => exact (leafSum_of_leaf hl).symm
    | false =>
      obtain ⟨hleft, hright, hk⟩ := h.children_lt hn hl
      obtain ⟨p, hp⟩ := h.reachable hr (cnt - 1 - n.toNat) n (by omega) hn
      have hle := h.leafSum_anti (by omega) hp
      have hsum := h.leafSum_eq_add hn hl
      have hfreq : (nodeAt arena n).freq =
          (nodeAt arena (nodeAt arena n).left).freq + (nodeAt arena (nodeAt arena n).right).freq := h.freqs _ hk hn
      rw [hfreq, BitVec.toNat_add, ih _ hleft (Nat.lt_trans hleft hn) rfl, ih _ hright (Nat.lt_trans hright hn) rfl,
        ← hsum]
      exact Nat.mod_eq_of_lt (Nat.lt_of_le_of_lt hle hfit)

end

/-- The counts of the present symbols sum to the counters' sum (42_tree_builder R139). -/
theorem sum_presentFrom (cs : List Word) : ∀ sym,
    ((presentFrom cs sym).map fun p => p.2.toNat).sum = (cs.map BitVec.toNat).sum := by
  induction cs with
  | nil => intro sym; rfl
  | cons c cs ih =>
    intro sym
    rw [presentFrom_cons]
    split
    · rename_i h0
      simp [ih, h0]
    · simp only [List.map_cons, List.sum_cons, ih, BitVec.toNat_setWidth_of_le (by decide : 32 ≤ 64)]

/-- 256 counters of 32 bits sum to less than 2^40 (42_tree_builder R139). -/
theorem sum_hist_lt (hist : Vector Word 256) : (hist.toList.map BitVec.toNat).sum < 2 ^ 40 := by
  have hle := List.sum_le_card_nsmul (hist.toList.map BitVec.toNat) (2 ^ 32 - 1) fun c hc => by
    obtain ⟨w, -, rfl⟩ := List.mem_map.1 hc
    omega
  rw [List.length_map, Vector.length_toList, smul_eq_mul] at hle
  omega

/-! ### The lighter child (42_tree_builder R136) -/

section
variable {b c : Builder} {k : Nat} {x : NodeIx}

/-- The heap invariant speaks of the slots in use and their frequencies only. -/
theorem HeapOrdered.congr (h : HeapOrdered b) (hn : c.heapN = b.heapN)
    (hf : ∀ i, i < b.heapN → c.freqAt i = b.freqAt i) : HeapOrdered c := by
  intro i h1 hi
  rw [hn] at hi
  rw [hf i hi, hf _ (by omega)]
  exact h i h1 hi

/-- Slot 0 of an ordered heap is no heavier than any entry. -/
theorem HeapOrdered.min_entries (h : HeapOrdered b) (hx : x ∈ b.entries) : b.freq (b.slot 0) ≤ b.freq x := by
  obtain ⟨i, hi, rfl⟩ := List.mem_map.1 hx
  exact h.min (List.mem_range.1 hi)

/-- A slot in use holds one of the entries. -/
theorem Builder.slot_mem_entries (b : Builder) {i : Nat} (hi : i < b.heapN) : b.slot i ∈ b.entries :=
  List.mem_map_of_mem (List.mem_range.2 hi)

/-- ExtractMin adds no entry. -/
theorem extractMin_entries_subset (h1 : 1 ≤ b.heapN) (hn : b.heapN ≤ 256) :
    (extractMin b).2.entries ⊆ b.entries :=
  fun _ hx => (extractMin_entries b h1 hn).symm.subset (List.mem_cons_of_mem _ hx)

/-- An allocation changes no frequency of a node already allocated. -/
theorem Builder.freq_alloc (b : Builder) (nd : Node) (hc : b.nodeCnt < 511) (hx : x.toNat < b.nodeCnt) :
    (b.alloc nd).2.freq x = b.freq x := by
  rw [Builder.freq, nodeAt, b.arenaAt_alloc nd _ hc, if_neg (Nat.ne_of_gt hx)]
  rfl

/-- The internal node a round of the reduction adds has the two entries extracted as its children. -/
theorem arenaAt_mergeTwo (hc : b.nodeCnt < 511) : arenaAt (mergeTwo b).node b.nodeCnt =
    { leaf := false, sym := 0, freq := b.freq (b.slot 0) + b.freq ((extractMin b).2.slot 0)
      left := b.slot 0, right := (extractMin b).2.slot 0 } := by
  simp only [mergeTwo, allocInternal, heapInsert_node, extractMin_fst]
  rw [Builder.arenaAt_alloc _ _ _ (by simpa only [extractMin_nodeCnt] using hc)]
  simp only [extractMin_nodeCnt, extractMin_node, Builder.freq, if_true]

/-- What the reduction keeps beside the forest: the heap invariant, and no internal node with a left child heavier than
its right one. -/
structure OrderedForest (k : Nat) (b : Builder) : Prop extends Forest k b where
  ordered : HeapOrdered b
  lighterLeft : ∀ n, k ≤ n → n < b.nodeCnt → b.freq (arenaAt b.node n).left ≤ b.freq (arenaAt b.node n).right

/-- A round of the reduction keeps the heap invariant: the allocation leaves the entries' frequencies alone. -/
theorem Forest.mergeTwo_ordered (h : Forest k b) (h2 : 1 < b.heapN) (ho : HeapOrdered b) :
    HeapOrdered (mergeTwo b) := by
  have hbal := h.balance
  have hsmall := h.small
  have hst := h.started
  have hn1 := extractMin_heapN b
  have hn2 := extractMin_heapN (extractMin b).2
  have hc2 : (extractMin (extractMin b).2).2.nodeCnt = b.nodeCnt := by simp only [extractMin_nodeCnt]
  have ho2 := extractMin_ordered (b := (extractMin b).2) (by omega) (by omega)
    (extractMin_ordered (by omega) (by omega) ho)
  simp only [mergeTwo, allocInternal]
  refine heapInsert_ordered _ (by rw [Builder.alloc_heapN]; omega) (ho2.congr rfl fun i hi => ?_)
  have hmem := extractMin_entries_subset (by omega) (by omega)
    (extractMin_entries_subset (by omega) (by omega) (Builder.slot_mem_entries _ hi))
  exact Builder.freq_alloc _ _ (by omega) (by rw [hc2]; exact h.entry_lt hmem)

/-- A round of the reduction keeps the ordered forest: of the two entries it joins, the first extracted is a least
one. -/
theorem OrderedForest.mergeTwo (h : OrderedForest k b) (h2 : 1 < b.heapN) : OrderedForest k (mergeTwo b) := by
  obtain ⟨hF, ho, hlight⟩ := h
  obtain ⟨hF', -, hcnt, hold⟩ := mergeTwo_spec hF h2
  have hbal := hF.balance
  have hsmall := hF.small
  have hst := hF.started
  have hfreq : ∀ {x : NodeIx}, x.toNat < b.nodeCnt → (Machine.mergeTwo b).freq x = b.freq x :=
    fun hx => congrArg Node.freq (hold _ hx)
  refine ⟨hF', hF.mergeTwo_ordered h2 ho, fun n hkn hn => ?_⟩
  rw [hcnt] at hn
  rcases Nat.lt_succ_iff_lt_or_eq.1 hn with hn | rfl
  · obtain ⟨-, -, hleft, hright⟩ := hF.internals n hkn hn
    rw [hold n hn, hfreq (by omega), hfreq (by omega)]
    exact hlight n hkn hn
  · have hl : b.slot 0 ∈ b.entries := b.slot_mem_entries (by omega)
    have hr : (extractMin b).2.slot 0 ∈ b.entries := extractMin_entries_subset (by omega) (by omega)
      (Builder.slot_mem_entries _ (by rw [extractMin_heapN]; omega))
    rw [arenaAt_mergeTwo (by omega), hfreq (hF.entry_lt hl), hfreq (hF.entry_lt hr)]
    exact ho.min_entries hr

/-- The reduction loop keeps the ordered forest. -/
theorem OrderedForest.reduceLoop (fuel : Nat) (h : OrderedForest k b) : OrderedForest k (reduceLoop fuel b) := by
  induction fuel generalizing b with
  | zero => exact h
  | succ fuel ih =>
    rw [Machine.reduceLoop]
    split
    · rename_i h2
      exact ih (h.mergeTwo h2)
    · exact h

/-- The collected leaves, put in a heap by Heapify, are an ordered forest (42_tree_builder R134, R135). -/
theorem orderedForest_heapify {hist : List Word} (hlen : hist.length = 256) (hc : b.nodeCnt = 0)
    (h0 : (collectLeaves hist 0 b).nodeCnt ≠ 0) :
    OrderedForest (collectLeaves hist 0 b).nodeCnt
      (heapify (collectLeaves hist 0 b).nodeCnt (collectLeaves hist 0 b)) := by
  have hle := presentFrom_length_le hist 0
  obtain ⟨hcnt, -, -, -, hleaves⟩ := collectLeaves_spec hist 0 b (by omega)
  rw [hc, Nat.zero_add] at hcnt
  obtain ⟨hnode, hcnt', hn, hentries⟩ :=
    heapify_spec (collectLeaves hist 0 b) (collectLeaves hist 0 b).nodeCnt (by omega)
  refine ⟨Forest.of_leaves (by omega) (by omega) hcnt' hn (fun n hlt => ?_) hentries, heapify_ordered (by omega),
    fun n hge hlt => by omega⟩
  have hleaf := hleaves n (by omega)
  rw [hc, Nat.zero_add] at hleaf
  rw [hnode, hleaf]
  exact ⟨rfl, rfl, rfl⟩

/-- BUILD leaves the ordered forest of the reduction with its last entry extracted (42_tree_builder R136). -/
theorem exists_orderedForest_buildTree {hist : List Word} (hlen : hist.length = 256) (h0 : (buildTree hist b).k ≠ 0) :
    ∃ c, OrderedForest (buildTree hist b).k c ∧ (buildTree hist b).b = (extractMin c).2 := by
  by_cases hk : (collectLeaves hist 0 { b with nodeCnt := 0 }).nodeCnt = 0
  · simp only [buildTree, hk, if_true, ne_eq, not_true_eq_false] at h0
  · simp only [buildTree, hk, if_false]
    exact ⟨_, (orderedForest_heapify hlen rfl hk).reduceLoop _, rfl⟩

/-- An internal node of the tree BUILD makes has no left child heavier than its right one (42_tree_builder R136). -/
theorem buildTree_lighterLeft {hist : List Word} (hlen : hist.length = 256) {n : Nat} (hk : (buildTree hist b).k ≤ n)
    (hn : n < (buildTree hist b).b.nodeCnt) :
    (buildTree hist b).b.freq (arenaAt (buildTree hist b).b.node n).left ≤
      (buildTree hist b).b.freq (arenaAt (buildTree hist b).b.node n).right := by
  obtain ⟨-, hshape, -⟩ := buildTree_spec hist b hlen
  have hcnt := hshape.count
  obtain ⟨c, hc, he⟩ := exists_orderedForest_buildTree (b := b) hlen (by omega)
  rw [he, extractMin_nodeCnt] at hn
  simp only [he, extractMin_node, Builder.freq]
  exact hc.lighterLeft n hk hn

end

/-! ### The tree of BUILD (R139) -/

/-- The leaves' frequencies of a tree just built sum to the counters' sum (42_tree_builder R134, R139). -/
theorem sum_leaf_freqs {s t : State} (h : exec .build s = .next t) :
    ((List.range (presentLeaves s.hist).length).map fun n => (arenaAt t.node n).freq.toNat).sum =
      (s.hist.toList.map BitVec.toNat).sum := by
  obtain ⟨-, -, hleaf⟩ := buildCollectsLeavesInOrder s t h
  rw [← sum_presentFrom s.hist.toList 0, ← presentLeaves_eq]
  refine congrArg List.sum (List.ext_getElem (by simp) fun n hn _ => ?_)
  rw [List.getElem_map, List.getElem_map, List.getElem_range, hleaf n (by simpa using hn)]

/-- Settles O21: in the tree of BUILD (`buildMakesOneTree`) the root's leaves are all leaves, whose counts sum to less
than 2^40, so no frequency wraps; the reduction keeps the lighter child on the left (`OrderedForest`). -/
theorem buildFrequenciesAreSums : Obligations.BuildFrequenciesAreSums := by
  unfold Obligations.BuildFrequenciesAreSums
  intro s t h
  obtain ⟨hshape, hcnt, hroot, hv⟩ := buildMakesOneTree s t h
  have hlt := sum_hist_lt s.hist
  have htotal : 1 ≤ (presentLeaves s.hist).length →
      leafSum t.node 256 t.root = (s.hist.toList.map BitVec.toNat).sum := fun hk =>
    (hshape.leafSum_root hk hroot).trans (sum_leaf_freqs h)
  have hfreq : ∀ n : NodeIx, n.toNat < t.nodeCnt.toNat → (t.nodeOf n).freq.toNat = leafSum t.node 256 n :=
    fun n hn => hshape.freq_eq_leafSum hroot (by rw [htotal (by omega)]; omega) hn
  refine ⟨hfreq, fun n hn hl => ?_, fun hvalid => ?_, hlt⟩
  · obtain ⟨-, -, hk⟩ := hshape.children_lt hn hl
    obtain ⟨hk', hcnt', -⟩ := built_registers s
    rw [exec_build_next_iff] at h
    subst h
    exact buildTree_lighterLeft (by simp) (hk'.trans_le hk) (by rw [hcnt] at hn; exact hn.trans_eq hcnt'.symm)
  · have hk : 0 < (presentLeaves s.hist).length := by rwa [hv, decide_eq_true_eq] at hvalid
    rw [hfreq t.root (by omega), htotal hk]

end Sys2Proof.Machine

/-! ## NRD (42_tree_builder R137) -/

namespace Sys2Proof.Machine

/-- SEL 0 is bit 31, the leaf tag and the symbol side by side. -/
theorem Node.field_tag_eq (nd : Node) : nd.field 0 = 1#1 ++ BitVec.ofBool nd.leaf ++ 0#22 ++ nd.sym := by
  apply BitVec.eq_of_getLsbD_eq
  intro i hi
  simp only [Node.field, BitVec.getLsbD_append, BitVec.getLsbD_ofBool, BitVec.getLsbD_zero]
  interval_cases i <;> simp

/-- SEL 1 is the right and the left child side by side. -/
theorem Node.field_children_eq (nd : Node) : nd.field 1 = 0#7 ++ nd.right ++ 0#7 ++ nd.left := by
  apply BitVec.eq_of_getLsbD_eq
  intro i hi
  simp only [Node.field, BitVec.getLsbD_append, BitVec.getLsbD_zero]
  interval_cases i <;> simp

/-- The bits of the word of SEL 0. -/
theorem Node.field_tag_bits (nd : Node) : (nd.field 0).getLsbD 31 = true ∧ (nd.field 0).getLsbD 30 = nd.leaf ∧
    (nd.field 0).extractLsb' 8 22 = 0 ∧ (nd.field 0).extractLsb' 0 8 = nd.sym := by
  rw [nd.field_tag_eq]
  refine ⟨?_, ?_, ?_, BitVec.extractLsb'_append_eq_right⟩
  · simp only [BitVec.getLsbD_append]; simp
  · simp only [BitVec.getLsbD_append]; simp
  · rw [BitVec.extractLsb'_append_eq_of_le (by decide), BitVec.extractLsb'_append_eq_of_add_le (by decide)]
    exact BitVec.extractLsb'_zero

/-- Settles O24: Execute of NRD keeps the state, and its result is `State.nodeRead`, by SEL a field of the record. -/
theorem nrdReadsNodeField : Obligations.NrdReadsNodeField := by
  unfold Obligations.NrdReadsNodeField
  refine ⟨fun _ hop => decode_of_opField_eq (i := .nrd 0 0) hop, fun n sel s =>
    ⟨s.nodeRead n sel, exec_eq (.nrd n sel) s, fun hn => if_pos hn, fun hn => ?_⟩⟩
  have hread : s.nodeRead n sel = (s.nodeOf n).field sel := if_neg (Nat.not_le.2 hn)
  rw [hread]
  refine ⟨?_, ?_, ?_, ?_⟩ <;> rintro rfl
  · exact Node.field_tag_bits _
  · exact Node.field_children_eq _
  · rfl
  · rfl

end Sys2Proof.Machine

/-! ## Reading the code table: CLEN and CBITS (43_code_table R164, R165) -/

namespace Sys2Proof.Machine

/-- A code has as many bits as its length says (10_state R40). -/
@[simp] theorem codeAt_length (s : State) (sym : Byte) : (s.codeAt sym).length = (s.lenAt sym).toNat := by
  rw [State.codeAt, List.length_map, List.length_range]

/-- Bit `p` of a code, and 0 at and beyond its length. -/
theorem codeAt_getD (s : State) (sym : Byte) (p : Nat) :
    (s.codeAt sym).getD p false = (decide (p < (s.lenAt sym).toNat) && (s.bitsAt sym).getLsbD p) := by
  by_cases hp : p < (s.lenAt sym).toNat
  · rw [List.getD_eq_getElem _ _ (by simpa using hp)]
    simp [State.codeAt, hp]
  · rw [List.getD_eq_default _ _ (by simpa using hp)]
    simp [hp]

/-- Settles O29: Execute of CLEN is CODE_LEN[SYM] zero-extended, or NO_CODES. -/
theorem clenReadsLength : Obligations.ClenReadsLength := by
  unfold Obligations.ClenReadsLength
  refine ⟨fun _ hop => decode_of_opField_eq (i := .clen 0) hop, fun sym s => ⟨fun hv => ?_, fun hv => ?_⟩⟩
  · rw [exec_eq, execOut, if_neg (by simp [hv]), ← BitVec.ofNat_toNat]
    rfl
  · rw [exec_eq, execOut, if_pos hv]
    rfl

/-- Settles O30: Execute of CBITS is `codeWord`, whose bits (`getLsbD_codeWord`) are those of the code
(`codeAt_getD`), or NO_CODES. -/
theorem cbitsReadsCodeWord : Obligations.CbitsReadsCodeWord := by
  unfold Obligations.CbitsReadsCodeWord
  refine ⟨fun _ hop => decode_of_opField_eq (i := .cbits 0 0) hop, fun sym wrd s => ⟨fun hv => ?_, fun hv => ?_⟩⟩
  · refine ⟨codeWord (s.lenAt sym) (s.bitsAt sym) wrd, ?_, fun j hj => ?_⟩
    · rw [exec_eq, execOut, if_neg (by simp [hv])]
      rfl
    · have h31 : 31 - (31 - j) = j := by omega
      have hlt : 31 - j < 32 := by omega
      rw [getLsbD_codeWord, codeAt_getD, h31, decide_eq_true hlt, Bool.true_and]
  · rw [exec_eq, execOut, if_pos hv]
    rfl

end Sys2Proof.Machine

/-! ## GENC: its completion, and the code of each symbol (43_code_table R160 to R162) -/

namespace Sys2Proof.Machine

section
variable {s t : State}

/-- Execute of GENC with a valid tree (43_code_table R160). -/
theorem gencOut_of_valid (hv : s.treeValid = true) : gencOut s =
    .finish (BitVec.ofNat 32 (maxLen s.genCodes.len)) { s.withCodes s.genCodes with codesValid := true } :=
  if_neg (by simp [hv])

/-- GENC with a valid tree writes the code table and completes with the greatest length (43_code_table R160). -/
theorem exec_genc_next_iff (hv : s.treeValid = true) : exec .genc s = .next t ↔
    t = State.succeed (BitVec.ofNat 32 (maxLen s.genCodes.len))
      { s.withCodes s.genCodes with codesValid := true } := by
  rw [exec_next_iff, execOut, gencOut_of_valid hv, complete_finish]

/-- The loop of R160 ends with the greatest of the lengths. -/
theorem maxLen_spec (len : Vector (BitVec 8) 256) :
    (∀ l ∈ len.toList, l.toNat ≤ maxLen len) ∧ ∃ l ∈ len.toList, l.toNat = maxLen len := by
  obtain ⟨m, hm⟩ : ∃ m, (len.toList.map BitVec.toNat).max? = some m :=
    Option.ne_none_iff_exists'.1 (by simp [List.max?_eq_none_iff, ← List.length_eq_zero_iff])
  have hmax : maxLen len = m := by
    rw [maxLen, ← List.foldl_map (g := max), List.foldl_max, hm, Option.getD_some, Nat.zero_max]
  obtain ⟨hmem, hle⟩ := List.max?_eq_some_iff.1 hm
  rw [hmax]
  exact ⟨fun l hl => hle _ (List.mem_map_of_mem hl), List.mem_map.1 hmem⟩

/-- The lengths in CODE_LEN are those of the symbols (10_state R40). -/
theorem mem_codeLen_iff {l : BitVec 8} : l ∈ s.codeLen.toList ↔ ∃ sym, s.lenAt sym = l := by
  rw [Vector.mem_toList_iff, Vector.mem_iff_getElem]
  constructor
  · rintro ⟨i, hi, rfl⟩
    exact ⟨BitVec.ofNat 8 i, by simp [State.lenAt, Nat.mod_eq_of_lt hi]⟩
  · rintro ⟨sym, rfl⟩
    exact ⟨sym.toNat, sym.isLt, rfl⟩

end

/-- Settles O25: GENC fails with NO_TREE, or writes the code table (`exec_genc_next_iff`) and answers the greatest
length (`maxLen_spec`), which fits RESULT since a length has 8 bits. -/
theorem gencCompletes : Obligations.GencCompletes := by
  unfold Obligations.GencCompletes
  refine fun s => ⟨fun hv => ?_, fun hv => ⟨_, (exec_genc_next_iff hv).2 rfl, rfl, ?_⟩⟩
  · rw [exec_eq, execOut, gencOut, if_pos hv]
    rfl
  · obtain ⟨hle, l, hmem, hl⟩ := maxLen_spec (s.withCodes s.genCodes).codeLen
    obtain ⟨top, htop⟩ := mem_codeLen_iff.1 hmem
    have hresult : (BitVec.ofNat 32 (maxLen s.genCodes.len)).toNat = maxLen (s.withCodes s.genCodes).codeLen :=
      Nat.mod_eq_of_lt (show maxLen (s.withCodes s.genCodes).codeLen < 2 ^ 32 by omega)
    simp only [State.succeed, hresult]
    exact ⟨fun sym => hle _ (mem_codeLen_iff.2 ⟨sym, rfl⟩), top, (congrArg BitVec.toNat htop).trans hl⟩

end Sys2Proof.Machine

/-! ### The code the tree gives a symbol (R161) -/

namespace Sys2Proof.Machine

section
variable {arena : Vector Node 511} {cnt k : Nat} {root n m : NodeIx} {s t : State} {sym : Byte} {p q : List Bool}

/-- A leaf of a tree is one of the first `k` nodes (10_state R33). -/
theorem TreeShape.leaf_lt (h : TreeShape arena cnt k) (hn : n.toNat < cnt) (hl : (nodeAt arena n).leaf = true) :
    n.toNat < k := by
  by_contra hge
  have hf : (nodeAt arena n).leaf = false := (h.internals n.toNat (Nat.le_of_not_lt hge) hn).1
  rw [hf] at hl
  exact absurd hl (by decide)

/-- No two leaves have the same symbol (10_state R33). -/
theorem TreeShape.leaf_unique (h : TreeShape arena cnt k) (hn : n.toNat < k) (hm : m.toNat < k)
    (hs : (nodeAt arena n).sym = (nodeAt arena m).sym) : n = m := by
  obtain hlt | heq | hgt := Nat.lt_trichotomy n.toNat m.toNat
  · exact absurd hs (BitVec.ne_of_lt (h.order _ _ hlt hm))
  · exact BitVec.eq_of_toNat_eq heq
  · exact absurd hs.symm (BitVec.ne_of_lt (h.order _ _ hgt hn))

/-- At most one path reaches a leaf of a symbol (43_code_table R161). -/
theorem TreeShape.reaches_unique (h : TreeShape arena cnt k) (hr : root.toNat < cnt) (hp : reaches arena root p sym)
    (hq : reaches arena root q sym) : p = q := by
  obtain ⟨n, hpn, hnl, hns⟩ := hp
  obtain ⟨m, hqm, hml, hms⟩ := hq
  have hn := h.leaf_lt (Nat.lt_of_le_of_lt (h.leads_bound hr hpn).1 hr) hnl
  have hm := h.leaf_lt (Nat.lt_of_le_of_lt (h.leads_bound hr hqm).1 hr) hml
  obtain rfl := h.leaf_unique hn hm (hns.trans hms.symm)
  exact h.path_unique hr p q n hpn hqm

/-- With one leaf the tree code is the bit 0 (R161, case 2). -/
theorem treeCode_of_leaf (hl : (s.nodeOf s.root).leaf = true) :
    s.treeCode sym p ↔ p = [false] ∧ (s.nodeOf s.root).sym = sym := by
  rw [State.treeCode, if_pos hl]

/-- With an internal root the tree code is the path to the leaf (R161, case 1). -/
theorem treeCode_of_internal (hl : (s.nodeOf s.root).leaf = false) :
    s.treeCode sym p ↔ reaches s.node s.root p sym := by
  rw [State.treeCode, if_neg (by simp [hl])]

/-- No symbol's tree code begins another symbol's: the root is the only leaf, or a path ends at its first leaf. -/
theorem treeCode_prefix {a b : Byte} (ha : s.treeCode a p) (hb : s.treeCode b q) (hpq : p <+: q) : a = b := by
  cases hl : (s.nodeOf s.root).leaf with
  | true =>
    obtain ⟨-, rfl⟩ := (treeCode_of_leaf hl).1 ha
    exact ((treeCode_of_leaf hl).1 hb).2
  | false =>
    obtain ⟨r, rfl⟩ := hpq
    exact (reaches_prefix ((treeCode_of_internal hl).1 ha) ((treeCode_of_internal hl).1 hb)).2

/-- The tree of a state whose TREE_VALID is set has one leaf per present symbol, in order (10_state R38). -/
structure ValidTree (s : State) : Prop where
  shape : TreeShape s.node s.nodeCnt.toNat (presentLeaves s.hist).length
  rootValid : s.rootValid = decide (0 < (presentLeaves s.hist).length)
  root : s.root.toNat = s.nodeCnt.toNat - 1
  leaves : (List.range (presentLeaves s.hist).length).map
    (fun n => ((arenaAt s.node n).sym, (arenaAt s.node n).freq)) = presentLeaves s.hist

/-- The tree of the invariant while TREE_VALID is set: its number of leaves is that of the present symbols. -/
theorem TreeInv.validTree (h : TreeInv s) (hv : s.treeValid = true) : ValidTree s := by
  obtain ⟨k, hshape, hrv, hroot, hleaves⟩ := h.tree
  have hleaves := hleaves hv
  obtain rfl : k = (presentLeaves s.hist).length := by rw [← hleaves, List.length_map, List.length_range]
  exact ⟨hshape, hrv, hroot, hleaves⟩

/-- A symbol is present exactly if a leaf has it (10_state R38). -/
theorem ValidTree.present_iff (h : ValidTree s) :
    s.histAt sym ≠ 0 ↔ ∃ n, n < (presentLeaves s.hist).length ∧ (arenaAt s.node n).sym = sym := by
  constructor
  · intro hc
    have hmem := (mem_presentLeaves_iff s sym _).2 ⟨hc, rfl⟩
    rw [← h.leaves] at hmem
    obtain ⟨n, hn, he⟩ := List.mem_map.1 hmem
    exact ⟨n, List.mem_range.1 hn, congrArg Prod.fst he⟩
  · rintro ⟨n, hn, rfl⟩
    have hmem : ((arenaAt s.node n).sym, (arenaAt s.node n).freq) ∈ presentLeaves s.hist := by
      rw [← h.leaves]
      exact List.mem_map_of_mem (List.mem_range.2 hn)
    exact ((mem_presentLeaves_iff s _ _).1 hmem).1

/-- The root is allocated when a symbol is present. -/
theorem ValidTree.root_lt (h : ValidTree s) (hk : 0 < (presentLeaves s.hist).length) :
    s.root.toNat < s.nodeCnt.toNat := by
  have hcnt := h.shape.count
  have hroot := h.root
  omega

/-- The root is a leaf exactly if it is the only node. -/
theorem ValidTree.root_leaf_iff (h : ValidTree s) (hk : 0 < (presentLeaves s.hist).length) :
    (s.nodeOf s.root).leaf = true ↔ (presentLeaves s.hist).length = 1 := by
  have hcnt := h.shape.count
  have hroot := h.root
  constructor
  · intro hl
    have hlt := h.shape.leaf_lt (h.root_lt hk) hl
    omega
  · intro h1
    exact (h.shape.leaves s.root.toNat (by omega)).1

/-- The tree gives a present symbol a code (43_code_table R161). -/
theorem ValidTree.exists_treeCode (h : ValidTree s) (hp : s.histAt sym ≠ 0) : ∃ p, s.treeCode sym p := by
  obtain ⟨n, hn, rfl⟩ := h.present_iff.1 hp
  have hk : 0 < (presentLeaves s.hist).length := Nat.zero_lt_of_lt hn
  cases hl : (s.nodeOf s.root).leaf with
  | true =>
    have h1 := (h.root_leaf_iff hk).1 hl
    have hcnt := h.shape.count
    have hroot := h.root
    have h0 : s.root.toNat = n := by omega
    exact ⟨[false], (treeCode_of_leaf hl).2 ⟨rfl, by rw [State.nodeOf, nodeAt, h0]⟩⟩
  | false =>
    obtain ⟨p, hpath⟩ := h.shape.leaf_reached h.root hn
    exact ⟨p, (treeCode_of_internal hl).2 hpath⟩

/-- A symbol the tree gives a code is present. -/
theorem ValidTree.present_of_treeCode (h : ValidTree s) (hk : 0 < (presentLeaves s.hist).length)
    (hc : s.treeCode sym p) : s.histAt sym ≠ 0 := by
  have hrt := h.root_lt hk
  refine h.present_iff.2 ?_
  cases hl : (s.nodeOf s.root).leaf with
  | true => exact ⟨s.root.toNat, h.shape.leaf_lt hrt hl, ((treeCode_of_leaf hl).1 hc).2⟩
  | false =>
    obtain ⟨m, hm, hml, hms⟩ := (treeCode_of_internal hl).1 hc
    exact ⟨m.toNat, h.shape.leaf_lt (Nat.lt_of_le_of_lt (h.shape.leads_bound hrt hm).1 hrt) hml, hms⟩

/-- The tree gives a symbol one code only (43_code_table R161). -/
theorem ValidTree.treeCode_unique (h : ValidTree s) (hk : 0 < (presentLeaves s.hist).length)
    (hp : s.treeCode sym p) (hq : s.treeCode sym q) : p = q := by
  cases hl : (s.nodeOf s.root).leaf with
  | true => exact ((treeCode_of_leaf hl).1 hp).1.trans ((treeCode_of_leaf hl).1 hq).1.symm
  | false =>
    exact h.shape.reaches_unique (h.root_lt hk) ((treeCode_of_internal hl).1 hp) ((treeCode_of_internal hl).1 hq)

/-! ### The code GENC records (R160 to R162) -/

/-- GENC leaves the codes of the table it derives. -/
theorem codeAt_genc (hv : s.treeValid = true) (ht : exec .genc s = .next t) (sym : Byte) :
    t.codeAt sym = (s.withCodes s.genCodes).codeAt sym := by
  rw [(exec_genc_next_iff hv).1 ht]
  exact codeAt_congr rfl rfl sym

/-- After GENC the code of a present symbol is the one the tree gives it, of 1 to `max(1, k - 1)` bits; an absent symbol
has none (43_code_table R161, R162). -/
theorem ValidTree.genc_code (h : ValidTree s) (hv : s.treeValid = true) (ht : exec .genc s = .next t) (sym : Byte) :
    (s.histAt sym ≠ 0 → s.treeCode sym (t.codeAt sym) ∧ 1 ≤ (t.lenAt sym).toNat ∧
      (t.lenAt sym).toNat ≤ max 1 ((presentLeaves s.hist).length - 1)) ∧
    (s.histAt sym = 0 → t.codeAt sym = []) := by
  rw [← codeAt_length, codeAt_genc hv ht]
  obtain ⟨p, hk, hcode, hne, hlen, rfl, -⟩ | ⟨-, hnil, hnone⟩ := genCodes_spec h.shape h.rootValid h.root sym
  · have hpos := List.length_pos_iff.2 hne
    exact ⟨fun _ => ⟨hcode, hpos, hlen⟩, fun h0 => absurd h0 (h.present_of_treeCode hk hcode)⟩
  · refine ⟨fun hp => ?_, fun _ => hnil⟩
    obtain ⟨n, hn, -⟩ := h.present_iff.1 hp
    obtain ⟨q, hq⟩ := h.exists_treeCode hp
    exact absurd hq (hnone (Nat.zero_lt_of_lt hn) q)

end

/-- Settles O26: GENC records what the tree gives (`ValidTree.genc_code`), which is one path
(`ValidTree.treeCode_unique`). -/
theorem gencRecordsTreePaths : Obligations.GencRecordsTreePaths := by
  unfold Obligations.GencRecordsTreePaths
  intro s t hinv hv ht sym
  have htree := hinv.validTree hv
  obtain ⟨hpresent, habsent⟩ := htree.genc_code hv ht sym
  refine ⟨fun hp => ?_, habsent⟩
  obtain ⟨n, hn, -⟩ := htree.present_iff.1 hp
  obtain ⟨hcode, -, -⟩ := hpresent hp
  exact ⟨_, hcode, rfl, fun q hq => htree.treeCode_unique (Nat.zero_lt_of_lt hn) hq hcode⟩

/-- Settles O27: the bounds of `ValidTree.genc_code`, for one symbol and for more. -/
theorem gencLengthsAreBounded : Obligations.GencLengthsAreBounded := by
  unfold Obligations.GencLengthsAreBounded
  intro s t hinv hv ht sym
  obtain ⟨hpresent, habsent⟩ := (hinv.validTree hv).genc_code hv ht sym
  refine ⟨fun h0 => ?_, fun hp h1 => ?_, fun hp h2 => ?_⟩
  · have hlen : (t.lenAt sym).toNat = 0 := by rw [← codeAt_length, habsent h0, List.length_nil]
    exact BitVec.eq_of_toNat_eq hlen
  · obtain ⟨-, hlow, hhigh⟩ := hpresent hp
    have hlen : (t.lenAt sym).toNat = 1 := by omega
    exact BitVec.eq_of_toNat_eq hlen
  · obtain ⟨-, hlow, hhigh⟩ := hpresent hp
    exact ⟨hlow, by omega⟩

end Sys2Proof.Machine

/-! ## The codes of GENC are prefix-free and complete (43_code_table R163) -/

namespace Sys2Proof.Machine

section
variable {arena : Vector Node 511} {cnt k : Nat} {root : NodeIx} {s t : State}

/-- One depth per node: that of the one path from the root, if there is one (10_state R33). -/
theorem TreeShape.exists_depth (h : TreeShape arena cnt k) (hr : root.toNat < cnt) :
    ∃ depth : NodeIx → Nat, ∀ n p, leads arena root p n → p.length = depth n := by
  suffices hdepth : ∀ n, ∃ d, ∀ p, leads arena root p n → p.length = d from Classical.skolem.1 hdepth
  intro n
  by_cases hn : ∃ p, leads arena root p n
  · obtain ⟨p, hp⟩ := hn
    exact ⟨p.length, fun q hq => congrArg List.length (h.path_unique hr q p n hq hp)⟩
  · exact ⟨0, fun p hp => absurd ⟨p, hp⟩ hn⟩

/-- A node one level deeper weighs half: the weights `2^(255 - depth)` of an internal node's children sum to its own. -/
theorem TreeShape.weight_eq_add (h : TreeShape arena cnt k) (hr : root.toNat = cnt - 1) {depth : NodeIx → Nat}
    (hd : ∀ n p, leads arena root p n → p.length = depth n) {n : NodeIx} (hn : n.toNat < cnt)
    (hl : (nodeAt arena n).leaf = false) :
    2 ^ (255 - depth n) =
      2 ^ (255 - depth (nodeAt arena n).left) + 2 ^ (255 - depth (nodeAt arena n).right) := by
  have hcnt := h.count
  have hsmall := h.small
  obtain ⟨p, hp⟩ := h.reachable hr (cnt - 1 - n.toNat) n (by omega) hn
  have hchild : ∀ b, leads arena root (p ++ [b]) (childOf (nodeAt arena n) b) := fun b =>
    (leads_append _ _ _ _ _).2 ⟨n, hp, hl, rfl⟩
  have hdepth : ∀ b, depth (childOf (nodeAt arena n) b) = depth n + 1 := fun b => by
    rw [← hd _ _ (hchild b), ← hd n p hp, List.length_append, List.length_singleton]
  have hleft : depth (nodeAt arena n).left = depth n + 1 := hdepth false
  have hright : depth (nodeAt arena n).right = depth n + 1 := hdepth true
  obtain ⟨-, hbound⟩ := h.leads_bound (by omega) (hchild false)
  rw [hd _ _ (hchild false), hdepth] at hbound
  obtain ⟨e, he⟩ : ∃ e, 255 - depth n = e + 1 := ⟨254 - depth n, by omega⟩
  have he' : 255 - (depth n + 1) = e := by omega
  rw [hleft, hright, he, he', pow_succ, Nat.mul_two]

/-- The weights of the leaves sum to that of the root (43_code_table R163). -/
theorem TreeShape.sum_weights (h : TreeShape arena cnt k) (hk : 1 ≤ k) (hr : root.toNat = cnt - 1)
    {depth : NodeIx → Nat} (hd : ∀ n p, leads arena root p n → p.length = depth n) :
    ((List.range k).map fun n => 2 ^ (255 - depth (BitVec.ofNat 9 n))).sum = 2 ^ 255 := by
  have hcnt := h.count
  have hsmall := h.small
  have hroot : BitVec.ofNat 9 (cnt - 1) = root := by rw [← hr, BitVec.ofNat_toNat, BitVec.setWidth_eq]
  rw [h.sum_leaves hk (F := fun n => 2 ^ (255 - depth (BitVec.ofNat 9 n))), hroot, ← hd root [] rfl]
  · rfl
  · intro n hkn hn
    have hx : (BitVec.ofNat 9 n : NodeIx).toNat = n := by rw [BitVec.toNat_ofNat]; omega
    have hnode : nodeAt arena (BitVec.ofNat 9 n) = arenaAt arena n := by rw [nodeAt, hx]
    have hl : (nodeAt arena (BitVec.ofNat 9 n)).leaf = false := by rw [hnode]; exact (h.internals n hkn hn).1
    simp only [BitVec.ofNat_toNat, BitVec.setWidth_eq, ← hnode]
    exact h.weight_eq_add hr hd (by rw [hx]; exact hn) hl

/-- The weight of a length in the Kraft sum, scaled by `2^255`; a symbol with no code has none (43_code_table R163). -/
def kraftWeight (l : BitVec 8) : Nat := if l = 0 then 0 else 2 ^ (255 - l.toNat)

/-- The weight of a code of one bit or more. -/
theorem kraftWeight_of_pos {l : BitVec 8} (h : 1 ≤ l.toNat) : kraftWeight l = 2 ^ (255 - l.toNat) :=
  if_neg fun h0 => by simp [h0] at h

/-- Symbols that are not present add nothing to a sum in which their terms are 0. -/
theorem sum_map_presentFrom (F : Byte → Nat) (cs : List Word) : ∀ sym,
    (∀ i (hi : i < cs.length), cs[i] = 0 → F (BitVec.ofNat 8 (sym + i)) = 0) →
    ((presentFrom cs sym).map fun p => F p.1).sum =
      ((List.range' sym cs.length).map fun i => F (BitVec.ofNat 8 i)).sum := by
  induction cs with
  | nil => intro sym _; rfl
  | cons c cs ih =>
    intro sym hF
    have htail := ih (sym + 1) fun i hi h0 => by
      rw [Nat.add_assoc, Nat.add_comm 1]
      exact hF (i + 1) (Nat.succ_lt_succ hi) h0
    rw [presentFrom_cons, List.length_cons, List.range'_succ, List.map_cons, List.sum_cons, ← htail]
    split
    · rename_i h0
      rw [show F (BitVec.ofNat 8 sym) = 0 from hF 0 (Nat.zero_lt_succ _) h0, Nat.zero_add]
    · rw [List.map_cons, List.sum_cons]

/-- The lengths in CODE_LEN, listed by symbol (10_state R40). -/
theorem codeLen_toList (t : State) : t.codeLen.toList = (List.range' 0 256).map fun i => t.lenAt (BitVec.ofNat 8 i) := by
  refine List.ext_getElem (by simp) fun i hi _ => ?_
  have h256 : i < 256 := by simpa using hi
  simp [State.lenAt, Nat.mod_eq_of_lt h256]

/-- The Kraft sum of GENC's codes is a sum over the leaves. -/
theorem ValidTree.kraft_eq_leaves (h : ValidTree s) (hv : s.treeValid = true) (ht : exec .genc s = .next t) :
    (t.codeLen.toList.map kraftWeight).sum = ((List.range (presentLeaves s.hist).length).map fun n =>
      kraftWeight (t.lenAt (arenaAt s.node n).sym)).sum := by
  have habsent : ∀ i (hi : i < s.hist.toList.length), s.hist.toList[i] = 0 →
      kraftWeight (t.lenAt (BitVec.ofNat 8 (0 + i))) = 0 := by
    intro i hi h0
    have h256 : i < 256 := by simpa using hi
    have hc : s.histAt (BitVec.ofNat 8 (0 + i)) = 0 := by simpa [State.histAt, Nat.mod_eq_of_lt h256] using h0
    have hlen : (t.lenAt (BitVec.ofNat 8 (0 + i))).toNat = 0 := by
      rw [← codeAt_length, (h.genc_code hv ht _).2 hc, List.length_nil]
    exact if_pos (BitVec.eq_of_toNat_eq hlen)
  have hpresent := sum_map_presentFrom (fun sym => kraftWeight (t.lenAt sym)) s.hist.toList 0 habsent
  rw [← presentLeaves_eq, Vector.length_toList] at hpresent
  rw [codeLen_toList, List.map_map]
  refine hpresent.symm.trans (congrArg List.sum ?_)
  conv_lhs => rw [← h.leaves]
  exact List.map_map

/-- With an internal root the length of a leaf's code is the leaf's depth (43_code_table R161). -/
theorem ValidTree.genc_len_eq_depth (h : ValidTree s) (hv : s.treeValid = true) (ht : exec .genc s = .next t)
    (h2 : 2 ≤ (presentLeaves s.hist).length) {depth : NodeIx → Nat}
    (hd : ∀ n p, leads s.node s.root p n → p.length = depth n) {n : Nat} (hn : n < (presentLeaves s.hist).length) :
    (t.lenAt (arenaAt s.node n).sym).toNat = depth (BitVec.ofNat 9 n) := by
  have hsmall := h.shape.small
  have hrt := h.root_lt (by omega)
  have hx : (BitVec.ofNat 9 n : NodeIx).toNat = n := by rw [BitVec.toNat_ofNat]; omega
  have hl : (s.nodeOf s.root).leaf = false := by
    rw [← Bool.not_eq_true, h.root_leaf_iff (by omega)]
    omega
  obtain ⟨hcode, -, -⟩ := (h.genc_code hv ht _).1 (h.present_iff.2 ⟨n, hn, rfl⟩)
  obtain ⟨m, hm, hml, hms⟩ := (treeCode_of_internal hl).1 hcode
  have hmk := h.shape.leaf_lt (Nat.lt_of_le_of_lt (h.shape.leads_bound hrt hm).1 hrt) hml
  obtain rfl : m = BitVec.ofNat 9 n :=
    h.shape.leaf_unique hmk (hx.trans_lt hn) (by rw [hms, nodeAt, hx])
  rw [← codeAt_length]
  exact hd _ _ hm

/-- With two or more symbols the code is complete (43_code_table R163). -/
theorem ValidTree.kraft_of_two_le (h : ValidTree s) (hv : s.treeValid = true) (ht : exec .genc s = .next t)
    (h2 : 2 ≤ (presentLeaves s.hist).length) : (t.codeLen.toList.map kraftWeight).sum = 2 ^ 255 := by
  obtain ⟨depth, hd⟩ := h.shape.exists_depth (h.root_lt (by omega))
  rw [h.kraft_eq_leaves hv ht, ← h.shape.sum_weights (by omega) h.root hd]
  refine congrArg List.sum (List.map_congr_left fun n hn => ?_)
  have hn := List.mem_range.1 hn
  obtain ⟨-, hpos, -⟩ := (h.genc_code hv ht _).1 (h.present_iff.2 ⟨n, hn, rfl⟩)
  rw [kraftWeight_of_pos hpos, h.genc_len_eq_depth hv ht h2 hd hn]

/-- With one symbol, whose code is one bit, half of the code space is used (43_code_table R163). -/
theorem ValidTree.kraft_of_one (h : ValidTree s) (hv : s.treeValid = true) (ht : exec .genc s = .next t)
    (h1 : (presentLeaves s.hist).length = 1) : (t.codeLen.toList.map kraftWeight).sum = 2 ^ 254 := by
  obtain ⟨-, hlow, hhigh⟩ := (h.genc_code hv ht _).1 (h.present_iff.2 ⟨0, by omega, rfl⟩)
  have hlen : (t.lenAt (arenaAt s.node 0).sym).toNat = 1 := by omega
  rw [h.kraft_eq_leaves hv ht, h1, List.range_one, List.map_singleton, List.sum_singleton, kraftWeight_of_pos hlow, hlen]

end

/-- Settles O28: the codes are tree codes, which are prefix-free (`treeCode_prefix`); a node's weight is the sum of its
children's (`TreeShape.weight_eq_add`), so the Kraft sum is the root's weight, or half of it for one symbol. -/
theorem gencCodesArePrefixFreeAndComplete : Obligations.GencCodesArePrefixFreeAndComplete := by
  unfold Obligations.GencCodesArePrefixFreeAndComplete
  intro s t hinv hv ht
  have htree := hinv.validTree hv
  refine ⟨fun a b ha hb hpre => ?_, htree.kraft_of_two_le hv ht, htree.kraft_of_one hv ht⟩
  obtain ⟨hca, -, -⟩ := (htree.genc_code hv ht a).1 ha
  obtain ⟨hcb, -, -⟩ := (htree.genc_code hv ht b).1 hb
  exact treeCode_prefix hca hcb hpre

end Sys2Proof.Machine

/-! ## The packer: ENC, FLUSH and the stream they write (44_packer R180 to R184) -/

namespace Sys2Proof.Machine

section
variable {s t : State}

/-- The state `s` with the completion (30_encoding R94) of `t`. -/
def State.completedAs (s t : State) : State :=
  { s with err := t.err, result := t.result, busy := t.busy, irq := t.irq }

@[simp] theorem completedAs_accN (s t : State) : (s.completedAs t).accN = s.accN := rfl
@[simp] theorem completedAs_outf (s t : State) : (s.completedAs t).outf = s.outf := rfl
@[simp] theorem completedAs_accBits (s t : State) : (s.completedAs t).accBits = s.accBits := rfl

/-- An append does not see the completion (30_encoding R94). -/
theorem Appended.completedAs {bits : List Bool} {bytes : List Byte} (h : Appended s t bits bytes) (u : State) :
    Appended (s.completedAs u) (t.completedAs u) bits bytes where
  frame := by rw [h.frame]; rfl
  low := h.low
  outf := h.outf
  otot := h.otot
  stream := h.stream

/-- Appending nothing leaves the state. -/
theorem Appended.refl (h : s.AccLow) : Appended s s [] [] :=
  ⟨rfl, h, (List.append_nil _).symm, (BitVec.add_zero _).symm, (List.append_nil _).symm⟩

/-- Appends compose across the completions of the commands that make them. -/
theorem Appended.trans_completedAs {u : State} {p q : List Bool} {xs ys : List Byte}
    (h : Appended (s.completedAs t) t p xs) (g : Appended (t.completedAs u) u q ys) :
    Appended (s.completedAs u) u (p ++ q) (xs ++ ys) :=
  (h.completedAs u).trans g

/-- A command that appends keeps the code table and the parameters. -/
theorem Appended.tables {bits : List Bool} {bytes : List Byte} (h : Appended (s.completedAs t) t bits bytes) :
    t.cfg = s.cfg ∧ t.codesValid = s.codesValid ∧ t.lenAt = s.lenAt ∧ t.codeAt = s.codeAt := by
  rw [h.frame]
  exact ⟨rfl, rfl, rfl, rfl⟩

/-- A command issued first runs first. -/
theorem runCmds_cons_of_next {i : Instr} (h : exec i s = .next t) (is : List Instr) :
    runCmds (i :: is) s = runCmds is t := by
  rw [runCmds, h]

/-! ### ENC -/

/-- Execute of ENC with a code and room for the bytes it completes (44_packer R180). -/
theorem encOut_of_room {sym : Byte} (hv : s.codesValid = true) (hl : s.lenAt sym ≠ 0)
    (hroom : s.outf.length + s.encBytes sym ≤ s.cfg.outDepth) :
    encOut sym s = .finish (BitVec.ofNat 32 (s.encBytes sym)) (appendBits s (s.codeAt sym)) := by
  rw [encOut, if_neg (by simp [hv]), if_neg hl, if_neg (Nat.not_lt.2 hroom)]

/-- ENC appends the code and returns the number of bytes pushed (44_packer R180, R183). -/
theorem exec_enc_appends {sym : Byte} (hlow : s.AccLow) (hv : s.codesValid = true) (hl : s.lenAt sym ≠ 0)
    (hroom : s.outf.length + s.encBytes sym ≤ s.cfg.outDepth) :
    ∃ t bytes, exec (.enc sym) s = .next ((t : State).succeed (BitVec.ofNat 32 bytes.length)) ∧
      Appended s t (s.codeAt sym) bytes ∧ bytes.length = s.encBytes sym := by
  obtain ⟨bytes, happ⟩ := appendBits_spec (s.codeAt sym) s hlow
  have hlen : bytes.length = s.encBytes sym := by rw [happ.counts.1, codeAt_length, State.encBytes]
  refine ⟨_, bytes, ?_, happ, hlen⟩
  rw [exec_eq, execOut, encOut_of_room hv hl hroom, complete_finish, hlen]

/-- Settles O31: ENC appends the code (`exec_enc_appends`), and what an append leaves is R183's closed form
(`Appended.counts`). -/
theorem encAppendsCode : Obligations.EncAppendsCode := by
  unfold Obligations.EncAppendsCode
  intro sym s hlow hv hl hroom
  obtain ⟨t, bytes, hexec, happ, hlen⟩ := exec_enc_appends hlow hv hl hroom
  obtain ⟨-, hfill⟩ := happ.counts
  rw [codeAt_length] at hfill
  refine ⟨_, bytes, hexec, hlen, ?_, hfill, happ.stream, happ.low⟩
  have hframe := congrArg (State.succeed (BitVec.ofNat 32 bytes.length)) happ.frame
  rw [happ.outf, happ.otot] at hframe
  exact hframe

/-- ENC appends the code, whatever its completion wrote (44_packer R183). -/
theorem exists_exec_enc_appends {sym : Byte} (hlow : s.AccLow) (hv : s.codesValid = true) (hl : s.lenAt sym ≠ 0)
    (hroom : s.outf.length + s.encBytes sym ≤ s.cfg.outDepth) :
    ∃ t bytes, exec (.enc sym) s = .next t ∧ Appended (s.completedAs t) t (s.codeAt sym) bytes := by
  obtain ⟨t, bytes, hexec, happ, -⟩ := exec_enc_appends hlow hv hl hroom
  exact ⟨_, bytes, hexec, happ.completedAs (t.succeed (BitVec.ofNat 32 bytes.length))⟩

/-- A run of ENCs whose bytes fit OUTF appends the concatenated codes (44_packer R184). -/
theorem runCmds_enc_appends (rest : List Instr) (xs : List Byte) : ∀ s : State, s.AccLow → s.codesValid = true →
    (∀ x ∈ xs, s.lenAt x ≠ 0) →
    s.outf.length + (s.accN.toNat + (xs.flatMap s.codeAt).length) / 8 ≤ s.cfg.outDepth →
    ∃ t bytes, runCmds (xs.map Instr.enc ++ rest) s = runCmds rest t ∧
      Appended (s.completedAs t) t (xs.flatMap s.codeAt) bytes := by
  induction xs with
  | nil => exact fun s hlow _ _ _ => ⟨s, [], rfl, .refl hlow⟩
  | cons x xs ih =>
    intro s hlow hv hl hroom
    rw [List.flatMap_cons, List.length_append, codeAt_length] at hroom
    obtain ⟨hx, hxs⟩ := List.forall_mem_cons.1 hl
    obtain ⟨t, ys, hexec, hone⟩ := exists_exec_enc_appends hlow hv hx (by rw [State.encBytes]; omega)
    obtain ⟨hcfg, hcv, hlens, hcodes⟩ := hone.tables
    have hroom' : t.outf.length + (t.accN.toNat + (xs.flatMap t.codeAt).length) / 8 ≤ t.cfg.outDepth := by
      obtain ⟨hcount, hfill⟩ := hone.counts
      rw [completedAs_accN, codeAt_length] at hcount hfill
      rw [hcodes, hcfg, hone.outf, completedAs_outf, List.length_append]
      omega
    obtain ⟨u, zs, hrun, hrest⟩ := ih t hone.low (hcv.trans hv) (by rwa [hlens]) hroom'
    rw [hcodes] at hrest
    exact ⟨u, ys ++ zs, (runCmds_cons_of_next hexec _).trans hrun, hone.trans_completedAs hrest⟩

/-! ### FLUSH -/

/-- FLUSH with nothing in ACC (44_packer R182). -/
theorem exec_flush_of_empty (hn : s.accN = 0) : exec .flush s = .next (s.succeed 0) := by
  rw [exec_eq, execOut, flushOut, if_pos hn, complete_finish]

/-- FLUSH with a byte to push and room for it (44_packer R182). -/
theorem exec_flush_of_room (hn : s.accN ≠ 0) (hroom : s.outf.length ≠ s.cfg.outDepth) : exec .flush s =
    .next (State.succeed (BitVec.ofNat 32 (8 - s.accN.toNat)) { s.pushOut s.acc with acc := 0, accN := 0 }) := by
  rw [exec_eq, execOut, flushOut, if_neg hn, if_neg hroom, complete_finish]

/-- FLUSH with a byte to push and no room for it (44_packer R182). -/
theorem exec_flush_of_full (hn : s.accN ≠ 0) (hfull : s.outf.length = s.cfg.outDepth) :
    exec .flush s = .next (s.fail .outFull) := by
  rw [exec_eq, execOut, flushOut, if_neg hn, if_pos hfull, complete_raise]

/-- Settles O32: the row of opcode 0x21 has no operand, and FLUSH has the three cases of R182. -/
theorem flushPadsPartialByte : Obligations.FlushPadsPartialByte := by
  unfold Obligations.FlushPadsPartialByte
  exact ⟨fun _ hop => decode_of_opField_eq (i := .flush) hop,
    fun _ => ⟨exec_flush_of_empty, exec_flush_of_room, exec_flush_of_full⟩⟩

/-- With the unfilled bits 0, ACC as a byte is its filled bits padded with zeros (10_state R42). -/
theorem State.AccLow.byteBits_acc (h : s.AccLow) :
    byteBits s.acc = s.accBits ++ List.replicate (8 - s.accN.toNat) false := by
  have hle : s.accN.toNat ≤ 8 := s.accN.isLt.le
  have hpad : (List.range (8 - s.accN.toNat)).map (fun i => s.acc.getLsbD (7 - (s.accN.toNat + i))) =
      List.replicate (8 - s.accN.toNat) false := by
    rw [List.eq_replicate_iff]
    refine ⟨by simp, fun b hb => ?_⟩
    obtain ⟨i, hi, rfl⟩ := List.mem_map.1 hb
    have hi := List.mem_range.1 hi
    exact h _ (by omega)
  have hsplit : List.range 8 = List.range s.accN.toNat ++ (List.range (8 - s.accN.toNat)).map (s.accN.toNat + ·) := by
    rw [← List.range_add, Nat.add_sub_of_le hle]
  rw [byteBits, hsplit, List.map_append, List.map_map, ← hpad]
  rfl

/-- FLUSH with room for the byte it pushes appends the zero bits that complete ACC (44_packer R182). -/
theorem exec_flush_appends (hlow : s.AccLow) (hroom : s.outf.length + (s.accN.toNat + 7) / 8 ≤ s.cfg.outDepth) :
    ∃ t pad bytes, exec .flush s = .next t ∧ t.err = 0 ∧ t.accN = 0 ∧ pad < 8 ∧
      Appended (s.completedAs t) t (List.replicate pad false) bytes := by
  by_cases hn : s.accN = 0
  · exact ⟨_, 0, [], exec_flush_of_empty hn, rfl, hn, by decide, (Appended.refl hlow).completedAs (s.succeed 0)⟩
  · have hpos : 0 < s.accN.toNat := Nat.pos_of_ne_zero fun h => hn (BitVec.eq_of_toNat_eq h)
    refine ⟨_, 8 - s.accN.toNat, [s.acc], exec_flush_of_room hn (by omega), rfl, rfl, by omega,
      rfl, fun _ _ => BitVec.getLsbD_zero, rfl, rfl, ?_⟩
    rw [List.flatMap_singleton, hlow.byteBits_acc]
    exact List.append_nil _

/-! ### The stream -/

/-- No filled bit, no bits (10_state R42). -/
theorem accBits_of_empty (hn : s.accN = 0) : s.accBits = [] := by
  rw [State.accBits, hn]
  rfl

/-- ENC of each symbol and FLUSH append the concatenated codes and fewer than 8 zero bits (44_packer R184). -/
theorem runCmds_enc_flush_appends {xs : List Byte} (hlow : s.AccLow) (hv : s.codesValid = true)
    (hl : ∀ x ∈ xs, s.lenAt x ≠ 0)
    (hroom : s.outf.length + (s.accN.toNat + (xs.flatMap s.codeAt).length + 7) / 8 ≤ s.cfg.outDepth) :
    ∃ t pad bytes, runCmds (xs.map Instr.enc ++ [.flush]) s = .next t ∧ t.err = 0 ∧ t.accN = 0 ∧ pad < 8 ∧
      Appended (s.completedAs t) t (xs.flatMap s.codeAt ++ List.replicate pad false) bytes := by
  obtain ⟨t, ys, hrun, hcodes⟩ := runCmds_enc_appends [.flush] xs s hlow hv hl (by omega)
  obtain ⟨hcfg, -⟩ := hcodes.tables
  have hroom' : t.outf.length + (t.accN.toNat + 7) / 8 ≤ t.cfg.outDepth := by
    obtain ⟨hcount, hfill⟩ := hcodes.counts
    rw [completedAs_accN] at hcount hfill
    rw [hcfg, hcodes.outf, completedAs_outf, List.length_append]
    omega
  obtain ⟨u, pad, zs, hflush, herr, hn, hpad, hzeros⟩ := exec_flush_appends hcodes.low hroom'
  exact ⟨u, pad, ys ++ zs, hrun.trans (runCmds_cons_of_next hflush []), herr, hn, hpad,
    hcodes.trans_completedAs hzeros⟩

end

/-- Settles O33: the commands append the codes and the padding (`runCmds_enc_flush_appends`); ACC holds no bit before
them and none after, so the bytes pushed are the whole stream. -/
theorem streamIsConcatenatedCodes : Obligations.StreamIsConcatenatedCodes := by
  unfold Obligations.StreamIsConcatenatedCodes
  intro xs s hinv hv hl hn houtf hroom
  have hfill : s.accN.toNat = 0 := by rw [hn]; rfl
  obtain ⟨t, pad, bytes, hrun, herr, htn, hpad, happ⟩ := runCmds_enc_flush_appends hinv.accLow hv hl (by
    rw [houtf, List.length_nil, hfill]; omega)
  have hbytes : t.outf = bytes := by rw [happ.outf, completedAs_outf, houtf, List.nil_append]
  have hstream := happ.stream
  rw [completedAs_accBits, accBits_of_empty hn, accBits_of_empty htn, List.append_nil, List.nil_append] at hstream
  have hlen := congrArg List.length hstream
  rw [flatMap_byteBits_length, List.length_append, List.length_replicate] at hlen
  exact ⟨t, pad, hrun, herr, by rw [hbytes, hstream], hpad, by rw [hbytes]; omega⟩

end Sys2Proof.Machine

/-! ## The unpacker: the bits DEC consumes (45_unpacker R200 to R202) -/

namespace Sys2Proof.Machine

section
variable {s t : State} {n m : NodeIx} {sym a b : Byte} {p q r r' rest : List Bool}

/-- The number of unread bits: those of IBUF and 8 for each INF byte (10_state R43, R45). -/
theorem inBits_length (s : State) : s.inBits.length = s.ibits.toNat + 8 * s.inf.length := by
  rw [State.inBits, List.length_append, List.length_map, List.length_range, flatMap_byteBits_length]

/-- DEC's loop over a byte with unread bits consumes at least one of them, and all of them if it reaches no leaf
(45_unpacker R200). -/
theorem walkByte_left (arena : Vector Node 511) (ibuf : Byte) (ibits : Nat) : ∀ n : NodeIx,
    (walkByte arena ibuf ibits n).2.2 ≤ ibits - 1 ∧
    ((walkByte arena ibuf ibits n).1 = none → (walkByte arena ibuf ibits n).2.2 = 0) := by
  induction ibits with
  | zero => exact fun _ => ⟨Nat.le_refl 0, fun _ => rfl⟩
  | succ k ih =>
    intro n
    rw [walkByte]
    split
    · exact ⟨Nat.le_refl k, nofun⟩
    · dsimp only
      split
      · exact ⟨Nat.le_refl k, nofun⟩
      · obtain ⟨hle, hall⟩ := ih (childOf (nodeAt arena n) (ibuf.getLsbD k))
        exact ⟨hle.trans (Nat.sub_le k 1), hall⟩

/-- The INF bytes DEC's loop pops: none while IBUF has bits, and at least one bit is consumed of each (R200, R201). -/
theorem walkInput_pops (arena : Vector Node 511) (inf : List Byte) : ∀ (ibuf : Byte) (ibits : Nat) (n : NodeIx),
    ∃ k, (walkInput arena inf ibuf ibits n).inf = inf.drop k ∧
      (ibuf :: inf)[k]? = some (walkInput arena inf ibuf ibits n).ibuf ∧
      (k = 0 ∧ (walkInput arena inf ibuf ibits n).ibits ≤ ibits - 1 ∨
        0 < k ∧ (walkInput arena inf ibuf ibits n).ibits ≤ 7) := by
  induction inf with
  | nil => exact fun ibuf ibits n => ⟨0, rfl, rfl, .inl ⟨rfl, (walkByte_left arena ibuf ibits n).1⟩⟩
  | cons b rest ih =>
    intro ibuf ibits n
    obtain ⟨hleft, -⟩ := walkByte_left arena ibuf ibits n
    rw [walkInput]
    split
    · rename_i hw
      rw [hw] at hleft
      exact ⟨0, rfl, rfl, .inl ⟨rfl, hleft⟩⟩
    · rename_i n' _ _
      obtain ⟨k, hinf, hibuf, hbits⟩ := ih b 8 n'
      exact ⟨k + 1, hinf, hibuf, .inr ⟨k.succ_pos, by omega⟩⟩

/-- `t` holds what is left of the unread bits of `s` after `n` of them: an INF byte is popped only when IBITS = 0
(45_unpacker R200, R201). -/
structure Consumed (s t : State) (n : Nat) : Prop where
  inf : t.inf = s.inf.drop (bytesPopped s n)
  ibuf : (s.ibuf :: s.inf)[bytesPopped s n]? = some t.ibuf
  ibits : t.ibits.toNat + n = s.ibits.toNat + 8 * bytesPopped s n

/-- IBITS holds the bits the walk leaves in IBUF (10_state R43). -/
theorem withWalk_ibits (s : State) : (s.withWalk s.walk).ibits.toNat = s.walk.ibits := by
  have hlt := s.ibits.isLt
  have hle := (walkInput_bounds s.node s.inf s.ibuf s.ibits.toNat s.decNode).1
  exact Nat.mod_eq_of_lt (show s.walk.ibits < 16 by unfold State.walk; omega)

/-- The unread bits after the walk are those it leaves. -/
theorem withWalk_inBits (s : State) : (s.withWalk s.walk).inBits = s.walk.bits := by
  rw [inBits_eq, withWalk_ibits]
  rfl

/-- A walk that consumes `p` of the unread bits pops INF bytes only when IBUF is used up. -/
theorem withWalk_consumed (h : s.inBits = p ++ s.walk.bits) : Consumed s (s.withWalk s.walk) p.length := by
  obtain ⟨k, hinf, hibuf, hleft⟩ := walkInput_pops s.node s.inf s.ibuf s.ibits.toNat s.decNode
  have hk : k < (s.ibuf :: s.inf).length := (List.getElem?_eq_some_iff.1 hibuf).1
  have hlen := congrArg List.length h
  have hdrop : (s.withWalk s.walk).inf.length = s.inf.length - k := by rw [← List.length_drop, ← hinf]; rfl
  have hbits := withWalk_ibits s
  rw [← withWalk_inBits, List.length_append, inBits_length, inBits_length, hdrop] at hlen
  rw [List.length_cons] at hk
  have hleft : k = 0 ∧ s.walk.ibits ≤ s.ibits.toNat - 1 ∨ 0 < k ∧ s.walk.ibits ≤ 7 := hleft
  have hpop : bytesPopped s p.length = k := by unfold bytesPopped; omega
  exact ⟨hpop ▸ hinf, hpop ▸ hibuf, by omega⟩

/-! ### Where the walk ends -/

/-- The bits `p` take DEC to the symbol `sym`: a path from DEC_NODE to its leaf (45_unpacker R201), or any one bit if
DEC_NODE is a leaf already (R202). -/
def State.decodesTo (s : State) (p : List Bool) (sym : Byte) : Prop :=
  if (s.nodeOf s.decNode).leaf then p.length = 1 ∧ (s.nodeOf s.decNode).sym = sym
  else reaches s.node s.decNode p sym

theorem decodesTo_of_leaf (hl : (s.nodeOf s.decNode).leaf = true) :
    s.decodesTo p sym ↔ p.length = 1 ∧ (s.nodeOf s.decNode).sym = sym := by
  rw [State.decodesTo, if_pos hl]

theorem decodesTo_of_internal (hl : (s.nodeOf s.decNode).leaf = false) :
    s.decodesTo p sym ↔ reaches s.node s.decNode p sym := by
  rw [State.decodesTo, if_neg (by simp [hl])]

/-- At ROOT the code the tree gives a symbol takes DEC to it. -/
theorem decodesTo_of_treeCode (hd : s.decNode = s.root) (hc : s.treeCode sym p) : s.decodesTo p sym := by
  rw [State.decodesTo, hd]
  cases hl : (s.nodeOf s.root).leaf with
  | true =>
    obtain ⟨rfl, hs⟩ := (treeCode_of_leaf hl).1 hc
    exact ⟨rfl, hs⟩
  | false => exact (treeCode_of_internal hl).1 hc

/-- DEC's walk consumes bits that take it to the symbol it reports, or all bits, and then stops at a node of the kind it
started from (45_unpacker R200 to R202). -/
theorem walk_cases (s : State) :
    (∃ p sym, s.walk.sym = some sym ∧ s.decodesTo p sym ∧ s.inBits = p ++ s.walk.bits) ∨
    (s.walk.sym = none ∧ s.walk.inf = [] ∧ s.walk.ibits = 0 ∧ leads s.node s.decNode s.inBits s.walk.node ∧
      (s.nodeOf s.walk.node).leaf = (s.nodeOf s.decNode).leaf) := by
  rw [inBits_eq]
  cases hl : (s.nodeOf s.decNode).leaf with
  | false =>
    obtain ⟨p, hlead, hbits, -, -, ⟨hsym, hleaf⟩ | ⟨hsym, hleaf, hdry, hinf⟩⟩ :=
      walkInput_spec s.node s.inf s.ibuf s.ibits.toNat s.decNode hl
    · exact .inl ⟨p, _, hsym, (decodesTo_of_internal hl).2 ⟨_, hlead, hleaf, rfl⟩, hbits⟩
    · have hall : bufBits s.ibuf s.ibits.toNat ++ s.inf.flatMap byteBits = p := by
        rw [hbits, WalkEnd.bits, hdry, hinf]
        exact List.append_nil p
      exact .inr ⟨hsym, hinf, hdry, hall ▸ hlead, hleaf⟩
  | true =>
    have hone : ∀ b, s.decodesTo [b] (s.nodeOf s.decNode).sym := fun _ => (decodesTo_of_leaf hl).2 ⟨rfl, rfl⟩
    rw [State.walk, walkInput_leaf _ _ hl]
    cases s.ibits.toNat with
    | succ k => exact .inl ⟨_, _, rfl, hone (s.ibuf.getLsbD k), rfl⟩
    | zero =>
      cases s.inf with
      | nil => exact .inr ⟨rfl, rfl, rfl, rfl, hl⟩
      | cons b bs => exact .inl ⟨_, _, rfl, hone (b.getLsbD 7), by simp [WalkEnd.bits, byteBits_eq, bufBits]⟩

/-- The bits at hand take DEC to one symbol at most, and fix how many of them it consumes. -/
theorem decodesTo_unique (ha : s.decodesTo p a) (hb : s.decodesTo q b) (h : p ++ r = q ++ r') : p = q ∧ a = b := by
  cases hl : (s.nodeOf s.decNode).leaf with
  | true =>
    obtain ⟨hp, rfl⟩ := (decodesTo_of_leaf hl).1 ha
    obtain ⟨hq, rfl⟩ := (decodesTo_of_leaf hl).1 hb
    exact ⟨(List.append_inj h (hp.trans hq.symm)).1, rfl⟩
  | false =>
    have ha := (decodesTo_of_internal hl).1 ha
    have hb := (decodesTo_of_internal hl).1 hb
    obtain ⟨c, rfl, -⟩ | ⟨c, rfl, -⟩ := List.append_eq_append_iff.1 h
    · obtain ⟨rfl, rfl⟩ := reaches_prefix ha hb
      exact ⟨(List.append_nil p).symm, rfl⟩
    · obtain ⟨rfl, rfl⟩ := reaches_prefix hb ha
      exact ⟨List.append_nil q, rfl⟩

/-- Bits that start with ones taking DEC to a symbol lead to no node of the kind of DEC_NODE. -/
theorem leaf_ne_of_decodesTo_of_leads (hp : s.decodesTo p sym) (hm : leads s.node s.decNode (p ++ r) m) :
    (s.nodeOf m).leaf ≠ (s.nodeOf s.decNode).leaf := by
  cases hl : (s.nodeOf s.decNode).leaf with
  | true =>
    obtain ⟨hlen, -⟩ := (decodesTo_of_leaf hl).1 hp
    obtain ⟨b, rfl⟩ := List.length_eq_one_iff.1 hlen
    rw [List.singleton_append, leads_cons] at hm
    exact absurd (hl.symm.trans hm.1) nofun
  | false =>
    obtain ⟨x, hx, hxl, -⟩ := (decodesTo_of_internal hl).1 hp
    obtain ⟨y, hy, hym⟩ := (leads_append _ _ _ _ _).1 hm
    obtain rfl := leads_unique hx hy
    cases r with
    | nil => cases hym; rw [State.nodeOf, hxl]; nofun
    | cons b r => exact absurd (hxl.symm.trans hym.1) nofun

/-- Unread bits that start with ones taking DEC to a symbol: the walk consumes those and reports it. -/
theorem walk_of_decodesTo (hbits : s.inBits = p ++ rest) (hp : s.decodesTo p sym) :
    s.walk.sym = some sym ∧ s.walk.bits = rest := by
  obtain ⟨q, b, hsym, hq, hqbits⟩ | ⟨-, -, -, hlead, hleaf⟩ := walk_cases s
  · have hall := hbits.symm.trans hqbits
    obtain ⟨rfl, rfl⟩ := decodesTo_unique hp hq hall
    exact ⟨hsym, (List.append_cancel_left hall).symm⟩
  · rw [hbits] at hlead
    exact absurd hleaf (leaf_ne_of_decodesTo_of_leads hp hlead)

/-- Unread bits that lead to a node of the kind of DEC_NODE: the walk consumes them all and stops there. -/
theorem walk_of_leads (hm : leads s.node s.decNode s.inBits m)
    (hl : (s.nodeOf m).leaf = (s.nodeOf s.decNode).leaf) :
    s.walk.sym = none ∧ s.walk.node = m := by
  obtain ⟨q, b, -, hq, hqbits⟩ | ⟨hsym, -, -, hlead, -⟩ := walk_cases s
  · rw [hqbits] at hm
    exact absurd hl (leaf_ne_of_decodesTo_of_leads hq hm)
  · exact ⟨hsym, leads_unique hlead hm⟩

end

end Sys2Proof.Machine

/-! ## DEC: its completion (45_unpacker R200 to R204) -/

namespace Sys2Proof.Machine

section
variable {s t : State} {m : NodeIx} {sym : Byte} {p rest : List Bool}

/-- DEC gets to its loop: a valid tree with a node, a byte still to decode, and room for it (45_unpacker R200). -/
structure DecReady (s : State) : Prop where
  tree : s.treeValid = true
  root : s.rootValid = true
  pending : s.dcnt.toNat < s.origLen.toNat
  room : s.outf.length ≠ s.cfg.outDepth

/-- With a valid tree and ORIG_LEN bytes decoded, DEC reports DONE (45_unpacker R203). -/
theorem decOut_of_done (hv : s.treeValid = true) (hd : s.origLen.toNat ≤ s.dcnt.toNat) :
    decOut s = .finish 0x400 { s with needIn := false } := by
  rw [decOut_eq, if_neg (by simp [hv]), if_pos (show s.origLen ≤ s.dcnt from hd)]

/-- Execute of DEC when it gets to its loop: the last branch of R200. -/
theorem DecReady.decOut_eq_walk (h : DecReady s) : decOut s =
    match s.walk.sym with
    | none => .finish 0x200 { s.withWalk s.walk with needIn := true }
    | some sym =>
      .finish (0x100#32 ||| sym.setWidth 32 ||| (if s.origLen ≤ s.dcnt + 1 then 0x400#32 else 0#32))
        { s.withWalk s.walk with
          needIn := false, outf := s.outf ++ [sym], otot := s.otot + 1, dcnt := s.dcnt + 1, decNode := s.root } := by
  have hpending : ¬ s.origLen ≤ s.dcnt := Nat.not_le.2 h.pending
  rw [decOut_eq, if_neg (by simp [h.tree]), if_neg hpending, if_neg (by simp [h.root]), if_neg h.room]
  rfl

/-- The state `s` after a DEC that emitted `sym` and left the input of `t` (45_unpacker R200). -/
def State.afterEmit (s t : State) (sym : Byte) : State :=
  { s with
    decNode := s.root, ibuf := t.ibuf, ibits := t.ibits, inf := t.inf, needIn := false,
    outf := s.outf ++ [sym], otot := s.otot + 1, dcnt := s.dcnt + 1,
    err := 0, result := 0x100#32 ||| sym.setWidth 32 ||| (if s.origLen ≤ s.dcnt + 1 then 0x400#32 else 0#32),
    busy := false, irq := s.irq ||| irqCmdDone }

/-- The state `s` after a DEC that found too few bits and left the input and DEC_NODE of `t` (45_unpacker R200). -/
def State.afterDry (s t : State) : State :=
  { s with
    decNode := t.decNode, ibuf := t.ibuf, ibits := t.ibits, inf := t.inf, needIn := true,
    err := 0, result := 0x200, busy := false, irq := s.irq ||| irqCmdDone }

/-- DEC whose walk ends at a symbol emits it. -/
theorem DecReady.exec_of_some (h : DecReady s) (hw : s.walk.sym = some sym) :
    exec .dec s = .next (s.afterEmit (s.withWalk s.walk) sym) := by
  rw [exec_eq, execOut, h.decOut_eq_walk, hw]
  rfl

/-- DEC whose walk runs out of input reports NEED_IN. -/
theorem DecReady.exec_of_none (h : DecReady s) (hw : s.walk.sym = none) :
    exec .dec s = .next (s.afterDry (s.withWalk s.walk)) := by
  rw [exec_eq, execOut, h.decOut_eq_walk, hw]
  rfl

/-- DEC whose unread bits start with ones taking it to a symbol consumes those and emits it (45_unpacker R200, R201). -/
theorem DecReady.exec_emits (h : DecReady s) (hbits : s.inBits = p ++ rest) (hp : s.decodesTo p sym) :
    exec .dec s = .next (s.afterEmit (s.withWalk s.walk) sym) ∧
    (s.afterEmit (s.withWalk s.walk) sym).inBits = rest ∧
    Consumed s (s.afterEmit (s.withWalk s.walk) sym) p.length := by
  obtain ⟨hsym, hrest⟩ := walk_of_decodesTo hbits hp
  obtain ⟨hinf, hibuf, hibits⟩ := withWalk_consumed (p := p) (by rw [hrest, hbits])
  exact ⟨h.exec_of_some hsym, (withWalk_inBits s).trans hrest, hinf, hibuf, hibits⟩

/-- A walk that runs out of input leaves the last byte popped in IBUF (45_unpacker R200). -/
theorem walk_ibuf_of_dry (hinf : s.walk.inf = []) : (s.ibuf :: s.inf).getLast? = some s.walk.ibuf := by
  obtain ⟨k, hdrop, hibuf, -⟩ := walkInput_pops s.node s.inf s.ibuf s.ibits.toNat s.decNode
  have hge : s.inf.length ≤ k := List.drop_eq_nil_iff.1 (hdrop.symm.trans hinf)
  have hlt : k < (s.ibuf :: s.inf).length := (List.getElem?_eq_some_iff.1 hibuf).1
  rw [List.length_cons] at hlt
  obtain rfl : k = s.inf.length := by omega
  rw [List.getLast?_eq_getElem?]
  exact hibuf

/-- DEC whose unread bits lead to a node of the kind of DEC_NODE consumes them all and stops there for lack of input
(45_unpacker R201, R202). -/
theorem DecReady.exec_dry (h : DecReady s) (hm : leads s.node s.decNode s.inBits m)
    (hl : (s.nodeOf m).leaf = (s.nodeOf s.decNode).leaf) :
    ∃ t, exec .dec s = .next t ∧ (s.ibuf :: s.inf).getLast? = some t.ibuf ∧
      t.decNode = m ∧ t.ibits = 0 ∧ t.inf = [] ∧ t = s.afterDry t := by
  obtain ⟨hsym, hnode⟩ := walk_of_leads hm hl
  obtain ⟨_, _, hs, -⟩ | ⟨-, hinf, hdry, -⟩ := walk_cases s
  · rw [hsym] at hs; cases hs
  · exact ⟨_, h.exec_of_none hsym, walk_ibuf_of_dry hinf, hnode, congrArg (BitVec.ofNat 4) hdry, hinf, rfl⟩

/-! ### DEC_NODE and ROOT (10_state R33, R44) -/

/-- With an internal root DEC_NODE is internal (10_state R44). -/
theorem TreeInv.decNode_internal (h : TreeInv s) (hl : (s.nodeOf s.root).leaf = false) :
    (s.nodeOf s.decNode).leaf = false := by
  obtain he | ⟨-, hi⟩ := h.decNode
  · rw [he]; exact hl
  · exact hi

/-- With a leaf for a root DEC_NODE is the root, which is the only node (45_unpacker R202). -/
theorem TreeInv.decNode_of_leaf (h : TreeInv s) (hr : s.rootValid = true) (hl : (s.nodeOf s.root).leaf = true) :
    s.decNode = s.root := by
  obtain he | ⟨hlt, hi⟩ := h.decNode
  · exact he
  · obtain ⟨k, hshape, hvalid, hroot, -⟩ := h.tree
    have hk : 0 < k := by simpa [hvalid] using hr
    have hcnt := hshape.count
    have hrk := hshape.leaf_lt (by omega) hl
    have hd := (hshape.leaves s.decNode.toNat (by omega)).1
    exact absurd (hi.symm.trans hd) nofun

/-- With a root, DEC_NODE is reached from it. -/
theorem TreeInv.decNode_reached (h : TreeInv s) (hr : s.rootValid = true) :
    ∃ q, leads s.node s.root q s.decNode := by
  have hlt := h.decNode_lt hr
  obtain ⟨k, hshape, -, hroot, -⟩ := h.tree
  exact hshape.reachable hroot (s.nodeCnt.toNat - 1 - s.decNode.toNat) s.decNode (by omega) hlt

/-- What DEC emits is a symbol of the tree (45_unpacker R204). -/
theorem TreeInv.treeCode_of_decodesTo (h : TreeInv s) (hr : s.rootValid = true) (hp : s.decodesTo p sym) :
    ∃ q, s.treeCode sym q := by
  cases hl : (s.nodeOf s.root).leaf with
  | true =>
    rw [State.decodesTo, h.decNode_of_leaf hr hl, if_pos hl] at hp
    exact ⟨[false], (treeCode_of_leaf hl).2 ⟨rfl, hp.2⟩⟩
  | false =>
    obtain ⟨q, hq⟩ := h.decNode_reached hr
    obtain ⟨n, hn, hleaf⟩ := (decodesTo_of_internal (h.decNode_internal hl)).1 hp
    exact ⟨q ++ p, (treeCode_of_internal hl).2 ⟨n, (leads_append _ _ _ _ _).2 ⟨_, hq, hn⟩, hleaf⟩⟩

/-- From an allocated node at most 254 bits lead to an internal node: the tree has depth at most 255
(42_tree_builder R140). -/
theorem TreeInv.length_lt_of_leads (h : TreeInv s) (hr : s.rootValid = true) (hm : leads s.node s.decNode p m)
    (hl : (s.nodeOf m).leaf = false) : p.length < 255 := by
  have hlt := h.decNode_lt hr
  obtain ⟨k, hshape, -⟩ := h.tree
  have hcnt := hshape.count
  have hsmall := hshape.small
  have hchild : leads s.node s.decNode (p ++ [true]) (childOf (nodeAt s.node m) true) :=
    (leads_append _ _ _ _ _).2 ⟨m, hm, hl, rfl⟩
  obtain ⟨-, hbound⟩ := hshape.leads_bound hlt hchild
  rw [List.length_append, List.length_singleton] at hbound
  omega

/-- A walk that runs out of input found fewer than 255 bits (45_unpacker R204). -/
theorem TreeInv.inBits_length_lt (h : TreeInv s) (hr : s.rootValid = true) (hw : s.walk.sym = none) :
    s.inBits.length < 255 := by
  obtain ⟨_, _, hs, -⟩ | ⟨-, -, -, hlead, hleaf⟩ := walk_cases s
  · rw [hw] at hs; cases hs
  · cases hl : (s.nodeOf s.decNode).leaf with
    | false => exact h.length_lt_of_leads hr hlead (hleaf.trans hl)
    | true =>
      cases hb : s.inBits with
      | nil => exact Nat.zero_lt_succ _
      | cons b bs =>
        rw [hb] at hlead
        exact absurd (hl.symm.trans hlead.1) nofun

end

/-- Settles O34: with an internal root DEC_NODE is internal (`TreeInv.decNode_internal`), so the path to the leaf of
`sym` is what DEC consumes (`DecReady.exec_emits`). -/
theorem decFollowsBitsToLeaf : Obligations.DecFollowsBitsToLeaf := by
  unfold Obligations.DecFollowsBitsToLeaf
  intro s p rest sym hinv hv hr hl hd hroom hbits hp
  have hready : DecReady s := ⟨hv, hr, hd, hroom⟩
  have hdecodes := (decodesTo_of_internal (hinv.decNode_internal hl)).2 hp
  obtain ⟨hexec, hrest, hinf, hibuf, hibits⟩ := hready.exec_emits hbits hdecodes
  exact ⟨_, hexec, hrest, hinf, hibuf, hibits, rfl⟩

/-- Settles O35: DEC_NODE and `m` are both internal, so DEC stops at `m` (`DecReady.exec_dry`). -/
theorem decStopsForInput : Obligations.DecStopsForInput := by
  unfold Obligations.DecStopsForInput
  intro s m hinv hv hr hl hd hroom hm hml
  have hready : DecReady s := ⟨hv, hr, hd, hroom⟩
  obtain ⟨t, hexec, hibuf, hnode, hibits, hinf, hframe⟩ :=
    hready.exec_dry hm (hml.trans (hinv.decNode_internal hl).symm)
  rw [State.afterDry, hnode, hibits, hinf] at hframe
  exact ⟨t, hexec, hibuf, hframe⟩

/-- Settles O36: DEC_NODE is the root, a leaf (`TreeInv.decNode_of_leaf`); from there any one bit takes DEC to its
symbol (`decodesTo_of_leaf`), and no bit leaves it there. -/
theorem decSingleSymbolTree : Obligations.DecSingleSymbolTree := by
  unfold Obligations.DecSingleSymbolTree
  intro s hinv hv hr hl hd hroom
  have hready : DecReady s := ⟨hv, hr, hd, hroom⟩
  have hroot := hinv.decNode_of_leaf hr hl
  cases hbits : s.inBits with
  | nil =>
    have hlen := inBits_length s
    rw [hbits, List.length_nil] at hlen
    have hnil : s.inf = [] := List.length_eq_zero_iff.1 (by omega)
    obtain ⟨t, hexec, hibuf, hnode, hibits, hinf, hframe⟩ :=
      hready.exec_dry (m := s.decNode) (by rw [hbits]; rfl) rfl
    rw [hnil, List.getLast?_singleton, Option.some_inj] at hibuf
    rw [State.afterDry, hnode, hibits, hinf, ← hibuf] at hframe
    exact ⟨t, hexec, by rw [hframe], hnode.trans hroot, nofun, fun _ => hframe⟩
  | cons b bs =>
    have hone : s.decodesTo [b] (s.nodeOf s.root).sym := (decodesTo_of_leaf (hroot ▸ hl)).2 ⟨rfl, by rw [hroot]⟩
    obtain ⟨hexec, hrest, hinf, hibuf, hibits⟩ := hready.exec_emits hbits hone
    refine ⟨_, hexec, rfl, rfl, ?_, nofun⟩
    rintro _ _ ⟨⟩
    exact ⟨hrest, hinf, hibuf, hibits, by rw [State.afterEmit, ← hroot]; rfl⟩

/-- Settles O37: the DONE test comes before all that could change the streams (`decOut_of_done`). -/
theorem decStopsAtOriginalLength : Obligations.DecStopsAtOriginalLength := by
  unfold Obligations.DecStopsAtOriginalLength
  intro s hv hd
  rw [exec_eq, execOut, decOut_of_done hv hd]
  rfl

/-- Settles O38: the walk ends at a symbol, which the tree has (`TreeInv.treeCode_of_decodesTo`), or it runs out of
input, and then of fewer than 255 bits (`TreeInv.inBits_length_lt`). -/
theorem decAcceptsAnyBits : Obligations.DecAcceptsAnyBits := by
  unfold Obligations.DecAcceptsAnyBits
  intro s hinv hv hr hd hroom
  have hready : DecReady s := ⟨hv, hr, hd, hroom⟩
  obtain ⟨p, sym, hsym, hp, -⟩ | ⟨hsym, -⟩ := walk_cases s
  · obtain ⟨q, hq⟩ := hinv.treeCode_of_decodesTo hr hp
    exact ⟨_, hready.exec_of_some hsym, rfl, .inr ⟨sym, q, rfl, hq⟩, fun _ => rfl⟩
  · have hfew := hinv.inBits_length_lt hr hsym
    exact ⟨_, hready.exec_of_none hsym, rfl, .inl rfl, fun hmany => absurd hmany (by omega)⟩

end Sys2Proof.Machine

/-! ### A stop for lack of input (45_unpacker R200, R201) -/

namespace Sys2Proof.Machine

section
variable {s t : State}

/-- After the bits of IBUF the walk goes on with INF (45_unpacker R200). -/
theorem walkInput_cons_of_none {arena : Vector Node 511} {ibuf : Byte} {ibits left : Nat} {n n' : NodeIx}
    (h : walkByte arena ibuf ibits n = (none, n', left)) (b : Byte) (rest : List Byte) :
    walkInput arena (b :: rest) ibuf ibits n = walkInput arena rest b 8 n' := by
  rw [walkInput, h]

/-- A walk that runs out of input, continued with more bytes, is the walk over all the bytes. -/
theorem walkInput_append (arena : Vector Node 511) (more inf : List Byte) : ∀ (ibuf : Byte) (ibits : Nat) (n : NodeIx),
    (walkInput arena inf ibuf ibits n).sym = none →
    walkInput arena (inf ++ more) ibuf ibits n = walkInput arena more (walkInput arena inf ibuf ibits n).ibuf
      (walkInput arena inf ibuf ibits n).ibits (walkInput arena inf ibuf ibits n).node := by
  induction inf with
  | nil =>
    intro ibuf ibits n hnone
    obtain ⟨-, hleft⟩ := walkByte_left arena ibuf ibits n
    rw [List.nil_append]
    rcases hw : walkByte arena ibuf ibits n with ⟨sym, n', left⟩
    have hend : walkInput arena [] ibuf ibits n = ⟨sym, n', ibuf, left, []⟩ := by rw [walkInput, hw]
    rw [hw] at hleft
    rw [hend] at hnone ⊢
    cases hnone
    cases hleft rfl
    cases more with
    | nil => exact hend
    | cons b rest => exact walkInput_cons_of_none hw b rest
  | cons b rest ih =>
    intro ibuf ibits n hnone
    rcases hw : walkByte arena ibuf ibits n with ⟨sym | sym, n', left⟩
    · rw [walkInput_cons_of_none hw] at hnone ⊢
      rw [List.cons_append, walkInput_cons_of_none hw]
      exact ih b 8 n' hnone
    · rw [walkInput, hw] at hnone
      cases hnone

/-- The walk of a DEC given more bytes after a stop for lack of input (45_unpacker R201). -/
theorem walk_resume (more : List Byte) (hw : s.walk.sym = none) :
    State.walk { s.withWalk s.walk with inf := more } = State.walk { s with inf := s.inf ++ more } := by
  have happend := walkInput_append s.node more s.inf s.ibuf s.ibits.toNat s.decNode hw
  refine Eq.trans ?_ happend.symm
  exact congrArg (fun ibits => walkInput s.node more s.walk.ibuf ibits s.walk.node) (withWalk_ibits s)

/-- A DEC that does not get to its loop answers RESULT 0 with an error, or DONE (45_unpacker R200). -/
theorem decReady_or_result (h : exec .dec s = .next t) : DecReady s ∨ t.result = 0 ∨ t.result = 0x400 := by
  rw [exec_next_iff.1 h, execOut, decOut_eq]
  split <;> [exact .inr (.inl rfl); skip]
  split <;> [exact .inr (.inr rfl); skip]
  split <;> [exact .inr (.inl rfl); skip]
  split <;> [exact .inr (.inl rfl); skip]
  rename_i hv hd hroot hfull
  exact .inl ⟨by simpa using hv, by simpa using hroot, Nat.not_le.1 hd, hfull⟩

/-- RESULT with SYM_VALID is not RESULT of a DEC that asks for input (45_unpacker R200). -/
theorem afterEmit_result_ne (sym : Byte) : (s.afterEmit t sym).result ≠ 0x200 := by
  intro h
  have hbit := congrArg (BitVec.getLsbD · 8) h
  simp [State.afterEmit] at hbit

/-- A DEC with RESULT 0x200 got to its loop and ran out of input (45_unpacker R200). -/
theorem exec_dec_needIn (h : exec .dec s = .next t) (hr : t.result = 0x200) : DecReady s ∧ s.walk.sym = none := by
  obtain hready | h0 | hdone := decReady_or_result h
  · refine ⟨hready, Option.eq_none_iff_forall_ne_some.2 fun sym hsym => ?_⟩
    obtain rfl := Host.Outcome.next.inj ((hready.exec_of_some hsym).symm.trans h)
    exact afterEmit_result_ne sym hr
  · exact absurd (h0.symm.trans hr) (by decide)
  · exact absurd (hdone.symm.trans hr) (by decide)

end

/-- Settles O39: the first DEC's walk ran out of input (`exec_dec_needIn`); from where it stopped, the walk over the new
bytes ends as the walk over all of them (`walk_resume`), and DEC overwrites what else the first one wrote. -/
theorem decIsResumable : Obligations.DecIsResumable := by
  unfold Obligations.DecIsResumable
  intro s t more h hr
  obtain ⟨hready, hnone⟩ := exec_dec_needIn h hr
  obtain rfl := Host.Outcome.next.inj ((hready.exec_of_none hnone).symm.trans h)
  obtain ⟨hv, hroot, hpending, hroom⟩ := hready
  have hlater : DecReady { s.afterDry (s.withWalk s.walk) with inf := more } := ⟨hv, hroot, hpending, hroom⟩
  have honce : DecReady { s with inf := s.inf ++ more } := ⟨hv, hroot, hpending, hroom⟩
  have hwalk : State.walk { s.afterDry (s.withWalk s.walk) with inf := more } =
      State.walk { s with inf := s.inf ++ more } := walk_resume more hnone
  have hirq : s.irq ||| irqCmdDone ||| irqCmdDone = s.irq ||| irqCmdDone := by
    rw [BitVec.or_assoc, BitVec.or_self]
  cases hsym : (State.walk { s with inf := s.inf ++ more }).sym with
  | none =>
    rw [honce.exec_of_none hsym, hlater.exec_of_none (hwalk ▸ hsym), hwalk]
    simp only [State.afterDry, State.withWalk, hirq]
  | some sym =>
    rw [honce.exec_of_some hsym, hlater.exec_of_some (hwalk ▸ hsym), hwalk]
    simp only [State.afterEmit, State.afterDry, State.withWalk, hirq]
    rfl

end Sys2Proof.Machine

/-! ### The round trip (45_unpacker R205) -/

namespace Sys2Proof.Machine

section
variable {s t : State} {x : Byte}

/-- The state's tree gives `sym` the code `p`; with no node no symbol has a code (43_code_table R161). -/
def State.hasTreeCode (s : State) (sym : Byte) (p : List Bool) : Prop := s.rootValid = true ∧ s.treeCode sym p

/-- A valid code table holds the codes of the tree (10_state R39). -/
theorem Inv.hasTreeCode_codeAt (h : Inv s) (hc : s.codesValid = true) (hl : s.lenAt x ≠ 0) :
    s.hasTreeCode x (s.codeAt x) := by
  obtain ⟨-, bits0, htable⟩ := h.fresh.codes hc
  obtain ⟨k, hshape, hvalid, hroot, -⟩ := h.tree.tree
  have hspec := genCodes_spec (s := { s with codeBits := bits0 }) hshape hvalid hroot x
  rw [htable] at hspec
  obtain ⟨p, hk, hcode, -, -, hp, -⟩ | ⟨hnone, -⟩ := hspec
  · obtain rfl : s.codeAt x = p := hp
    exact ⟨by simpa [hvalid] using hk, hcode⟩
  · exact absurd hnone hl

/-- One DEC for each symbol of `xs`, from ROOT with their codes unread, ORIG_LEN reached with the last and room in OUTF:
they push `xs`, and DEC_DONE is set (45_unpacker R203, R205). -/
theorem runCmds_dec_codes (code : Byte → List Bool) (pad : List Bool) (xs : List Byte) : ∀ s : State,
    s.treeValid = true → s.decNode = s.root → s.err = 0 → (∀ x ∈ xs, s.hasTreeCode x (code x)) →
    s.inBits = xs.flatMap code ++ pad → s.dcnt.toNat + xs.length = s.origLen.toNat →
    s.outf.length + xs.length ≤ s.cfg.outDepth →
    ∃ u, runCmds (List.replicate xs.length .dec) s = .next u ∧ u.outf = s.outf ++ xs ∧ u.err = 0 ∧
      u.decDone = true := by
  induction xs with
  | nil =>
    intro s _ _ herr _ _ hlen _
    exact ⟨s, rfl, (List.append_nil _).symm, herr, by rw [decDone_eq, decide_eq_true_iff]; exact hlen.ge⟩
  | cons x xs ih =>
    intro s hv hd _ hcodes hbits hlen hroom
    obtain ⟨⟨hr, hx⟩, hxs⟩ := List.forall_mem_cons.1 hcodes
    rw [List.length_cons] at hlen hroom
    rw [List.flatMap_cons, List.append_assoc] at hbits
    have hready : DecReady s := ⟨hv, hr, by omega, by omega⟩
    obtain ⟨hexec, hrest, -⟩ := hready.exec_emits hbits (decodesTo_of_treeCode hd hx)
    have hcount : (s.dcnt + 1).toNat = s.dcnt.toNat + 1 := by
      have hlt := s.origLen.isLt
      exact BitVec.toNat_add_of_lt (show s.dcnt.toNat + 1 < 2 ^ 64 by omega)
    have hlen' : (s.dcnt + 1).toNat + xs.length = s.origLen.toNat := by omega
    have hroom' : (s.outf ++ [x]).length + xs.length ≤ s.cfg.outDepth := by
      rw [List.length_append, List.length_singleton]; omega
    obtain ⟨u, hrun, houtf, herr, hdone⟩ :=
      ih (s.afterEmit (s.withWalk s.walk) x) hv rfl rfl hxs hrest hlen' hroom'
    exact ⟨u, (runCmds_cons_of_next hexec _).trans hrun, houtf.trans (List.append_assoc _ _ _), herr, hdone⟩

/-- A command that appends keeps the tree. -/
theorem Appended.tree {bits : List Bool} {bytes : List Byte} (h : Appended (s.completedAs t) t bits bytes) :
    t.treeValid = s.treeValid ∧ t.hasTreeCode = s.hasTreeCode := by
  rw [h.frame]
  exact ⟨rfl, rfl⟩

/-- Legal parameters bound OUTF by 65535 bytes (00_scope R6). -/
theorem Config.outDepth_le {c : Config} (h : c.wf = true) : c.outDepth ≤ 65535 := by
  simp only [Config.wf, Bool.and_eq_true, decide_eq_true_eq] at h
  omega

end

/-- Settles O40: ENC and FLUSH leave the codes of `xs` and some padding in OUTF (`streamIsConcatenatedCodes`) and the
tree as it was (`Appended.tree`). Those codes are the tree's (`Inv.hasTreeCode_codeAt`), so one DEC for each of them
gives its symbol back (`runCmds_dec_codes`). -/
theorem decodeOfEncodedStream : Obligations.DecodeOfEncodedStream := by
  unfold Obligations.DecodeOfEncodedStream
  intro xs s hinv hc hl hn houtf hbytes hroom
  obtain ⟨t, pad, hrun, herr, hstream, -⟩ := streamIsConcatenatedCodes xs s hinv.stream hc hl hn houtf hbytes
  obtain ⟨t', _, _, hrun', -, -, -, happ⟩ := runCmds_enc_flush_appends hinv.stream.accLow hc hl
    (by simpa [houtf, hn] using hbytes)
  obtain rfl := Host.Outcome.next.inj (hrun'.symm.trans hrun)
  obtain ⟨hvalid, hcodes⟩ := happ.tree
  obtain ⟨hcfg, -⟩ := happ.tables
  have hdepth := Config.outDepth_le hinv.stream.cfgLegal
  have hlen : (0#32 ++ BitVec.ofNat 32 xs.length).toNat = xs.length := by
    rw [BitVec.toNat_append, BitVec.toNat_zero, Nat.zero_shiftLeft, Nat.zero_or, BitVec.toNat_ofNat]
    exact Nat.mod_eq_of_lt (by omega)
  obtain ⟨u, hdec, hu, hok, hdone⟩ := runCmds_dec_codes s.codeAt (List.replicate pad false) xs
    { t' with
      inf := t'.outf, outf := [], ibuf := 0, ibits := 0, dcnt := 0, decNode := t'.root,
      lenLo := BitVec.ofNat 32 xs.length, lenHi := 0 }
    (hvalid.trans (hinv.status.codesNeedTree hc)) rfl herr
    (fun x hx => show t'.hasTreeCode x (s.codeAt x) by rw [hcodes]; exact hinv.hasTreeCode_codeAt hc (hl x hx))
    hstream ((Nat.zero_add _).trans hlen.symm) (by simpa [hcfg] using hroom)
  exact ⟨t', u, hrun, hdec, hu, hok, hdone⟩

end Sys2Proof.Machine

/-! ## How a command completes (60_exceptions R220 to R225) -/

namespace Sys2Proof.Machine

section
variable {s s' t : State} {i : Instr}

/-- No command sets or clears a pending bit before its completion does. -/
theorem execOut_irq {r : Word} (h : execOut i s = .finish r s') : s'.irq = s.irq := by
  by_cases hi : i = .srst
  · subst hi
    cases h
    rfl
  · rw [execOut_frame h hi]

/-- Only SRST changes ERR_CMD before its completion (40_control R111). -/
theorem execOut_errCmd {r : Word} (h : execOut i s = .finish r s') (hi : i ≠ .srst) : s'.errCmd = s.errCmd := by
  rw [execOut_frame h hi]

/-- A completion sets CMD_DONE and no other pending bit (30_encoding R94). -/
theorem exec_irq (h : exec i s = .next t) : t.irq = s.irq ||| irqCmdDone := by
  rw [exec_next_iff.1 h]
  obtain ⟨r, s', ho, hc⟩ | ⟨e, -, hc⟩ := complete_cases s (execOut i s) <;> rw [hc]
  · rw [State.succeed_irq, execOut_irq ho]
  · rfl

/-- `t` is `s` after a failed completion with the code `t.err`: nothing else has changed (60_exceptions R224). -/
def FailedFrom (s t : State) : Prop :=
  t = { s with err := t.err, result := 0, errCmd := s.pendCmd, busy := false, irq := s.irq ||| irqCmdDone }

/-- A failed completion is one, whatever the error. -/
theorem failedFrom_fail (s : State) (e : CmdError) : FailedFrom s (s.fail e) := rfl

/-- A command that leaves an error has changed nothing else (60_exceptions R224). -/
theorem exec_failedFrom (h : exec i s = .next t) (herr : t.err ≠ 0) : FailedFrom s t := by
  rw [exec_next_iff] at h
  subst h
  obtain ⟨r, s', -, hc⟩ | ⟨e, -, hc⟩ := complete_cases s (execOut i s) <;> rw [hc] at herr ⊢
  · exact absurd rfl herr
  · exact failedFrom_fail s e

/-- A command that succeeds leaves ERR_CMD alone, but SRST resets it (40_control R111). -/
theorem exec_errCmd (h : exec i s = .next t) (herr : t.err = 0) (hi : i ≠ .srst) : t.errCmd = s.errCmd := by
  rw [exec_next_iff] at h
  subst h
  obtain ⟨r, s', ho, hc⟩ | ⟨e, -, hc⟩ := complete_cases s (execOut i s) <;> rw [hc] at herr ⊢
  · rw [State.succeed_errCmd, execOut_errCmd ho hi]
  · exact absurd herr e.code_ne_zero

/-- The engine's turn with a command pending, legal or not, changes nothing but the completion if it leaves an error
(60_exceptions R224). -/
theorem engineTurn_failedFrom (hb : s.busy = true) (h : engineTurn s = .next t) (herr : t.err ≠ 0) :
    FailedFrom s t := by
  by_cases hd : ∃ i, decode s.pendCmd = .ok i
  · obtain ⟨i, hi⟩ := hd
    exact exec_failedFrom ((engineTurn_of_decode hb hi).symm.trans h) herr
  · obtain rfl := Host.Outcome.next.inj ((engineTurn_of_not_decode hb hd).symm.trans h)
    exact failedFrom_fail s .illegalCmd

end

/-- Settles O6: an engine step of a pending command is `exec` of it or ILLEGAL_CMD (`engineTurn_failedFrom`), and `exec`
completes, with success or with an error. -/
theorem failureIsPrecise : Obligations.FailureIsPrecise := by
  unfold Obligations.FailureIsPrecise
  constructor
  · intro s rest hn hb
    obtain ⟨t, ht⟩ := exists_engineTurn_eq_next { s with agenda := rest }
    exact ⟨t, (step_of_engineNext hn).trans ht, engineTurn_failedFrom (s := { s with agenda := rest }) hb ht⟩
  · intro i s
    have h := exec_eq i s
    exact ⟨_, h, exec_busy h, exec_irq h, exec_failedFrom h, exec_errCmd h⟩

/-! ### The error of each command (R221) -/

/-- ERR after a completion (30_encoding R94). -/
def CmdOut.err : CmdOut → BitVec 8
  | .finish _ _ => 0
  | .raise e => e.code

/-- A completion leaves the outcome's error in ERR. -/
theorem complete_err (s : State) (o : CmdOut) : (complete s o).err = o.err := by
  cases o <;> rfl

/-- A test that raises `e` reports `e`'s code where it does, and otherwise the error of what is left to do. -/
theorem CmdOut.err_ite_raise {p : Prop} [Decidable p] (e : CmdError) (o : CmdOut) :
    (if p then CmdOut.raise e else o).err = if p then e.code else o.err :=
  apply_ite CmdOut.err p _ _

/-- The error of a command that needs a valid bit and nothing else. -/
theorem CmdOut.err_of_valid (valid : Bool) (e : CmdError) {o : CmdOut} (ho : o.err = 0) :
    (if valid = false then CmdOut.raise e else o).err = if valid then 0 else e.code := by
  cases valid with
  | false => rfl
  | true => exact ho

/-- Execute of DEC raises the errors of its row in their order (60_exceptions R221, R222). -/
theorem decOut_err (s : State) : (decOut s).err = requiredErr s .dec := by
  rw [decOut_eq, CmdOut.err_ite_raise, apply_ite CmdOut.err, CmdOut.err_ite_raise, CmdOut.err_ite_raise]
  cases (walkInput s.node s.inf s.ibuf s.ibits.toNat s.decNode).sym <;> rfl

/-- Execute of FLUSH fails for a partial byte and a full OUTF (60_exceptions R221). -/
theorem flushOut_err (s : State) : (flushOut s).err = requiredErr s .flush := by
  by_cases hn : s.accN = 0
  · rw [flushOut, if_pos hn, requiredErr, if_neg (by simp [hn])]
    rfl
  · have hpos : 0 < s.accN.toNat := Nat.pos_of_ne_zero fun h => hn (BitVec.eq_of_toNat_eq h)
    rw [flushOut, if_neg hn, CmdOut.err_ite_raise, requiredErr]
    simp only [hpos, true_and]
    rfl

/-- Execute of ENC raises the errors of its row in their order (60_exceptions R221, R222). -/
theorem encOut_err (sym : Byte) (s : State) : (encOut sym s).err = requiredErr s (.enc sym) := by
  have hlen : s.lenAt sym = 0 ↔ (s.lenAt sym).toNat = 0 := BitVec.toNat_inj.symm
  have hroom : s.cfg.outDepth < s.outf.length + s.encBytes sym ↔
      ¬ s.outf.length + (s.accN.toNat + (s.lenAt sym).toNat) / 8 ≤ s.cfg.outDepth := Nat.not_le.symm
  rw [encOut, CmdOut.err_ite_raise, CmdOut.err_ite_raise, CmdOut.err_ite_raise, requiredErr]
  simp only [hlen, hroom, ite_not]
  rfl

/-- The error of each command is its entry of the requirement matrix (60_exceptions R221). -/
theorem execOut_err (i : Instr) (s : State) : (execOut i s).err = requiredErr s i := by
  cases i with
  | genc => exact CmdOut.err_of_valid s.treeValid .noTree rfl
  | clen sym => exact CmdOut.err_of_valid s.codesValid .noCodes rfl
  | cbits sym wrd => exact CmdOut.err_of_valid s.codesValid .noCodes rfl
  | enc sym => exact encOut_err sym s
  | flush => exact flushOut_err s
  | dec => exact decOut_err s
  | _ => rfl

/-- Settles O7: `exec` completes with the error of its Execute (`complete_err`), which is the matrix's entry
(`execOut_err`). -/
theorem errFollowsRequirements : Obligations.ErrFollowsRequirements := by
  unfold Obligations.ErrFollowsRequirements
  exact fun i s => ⟨_, exec_eq i s, (complete_err s _).trans (execOut_err i s)⟩

end Sys2Proof.Machine

/-! ## The interrupt output and the sources of the pending bits (60_exceptions R226, R227) -/

namespace Sys2Proof.Machine

section
variable {s s' : State} {i : Nat}

/-- The output is high exactly if some pending bit is enabled (R226). -/
theorem irqOut_iff (s : State) :
    s.irqOut = true ↔ ∃ i, i < 3 ∧ s.irq.getLsbD i = true ∧ s.ctrl.getLsbD i = true := by
  simp only [State.irqOut, Bool.or_eq_true, Bool.and_eq_true]
  constructor
  · rintro ((h | h) | h)
    · exact ⟨0, by decide, h⟩
    · exact ⟨1, by decide, h⟩
    · exact ⟨2, by decide, h⟩
  · rintro ⟨i, hi, h⟩
    obtain rfl | rfl | rfl : i = 0 ∨ i = 1 ∨ i = 2 := by omega
    · exact .inl (.inl h)
    · exact .inl (.inr h)
    · exact .inr h

/-- What must hold before a step that sets pending bit `i` (R227): an engine step of a pending command for CMD_DONE, a
CMD write while BUSY for OVERRUN, an IN_DATA write to a full INF for IN_OVF. -/
def State.irqSource (s : State) : Nat → Prop
  | 0 => s.busy = true ∧ ∃ rest, engineNext s rest
  | 1 => s.busy = true ∧ ∃ v rest, s.agenda = .host (.write .w32 (s.cfg.base + 0x18) v) :: rest
  | 2 => s.cfg.inDepth ≤ s.inf.length ∧ ∃ v rest, s.agenda = .host (.write .w32 (s.cfg.base + 0x38) v) :: rest
  | _ => False

/-- Setting bit `j` makes no other bit 1. -/
theorem getLsbD_or_twoPow {w j : Nat} {m : BitVec w} (h : (m ||| BitVec.twoPow w j).getLsbD i = true) :
    m.getLsbD i = true ∨ i = j := by
  rw [BitVec.getLsbD_or, Bool.or_eq_true, BitVec.getLsbD_twoPow, Bool.and_eq_true] at h
  exact h.imp_right fun ⟨_, hij⟩ => (of_decide_eq_true hij).symm

/-- The address of an admitted access is 32 bits wide and at its offset from the base (20_memory R63). -/
theorem eq_of_accessOffset_eq_ok {c : Config} {width : AccessWidth} {addr off : Nat}
    (h : accessOffset c width addr = .ok off) : width = .w32 ∧ addr = c.base + off := by
  unfold accessOffset at h
  split at h <;> [cases h; skip]
  split at h <;> [cases h; skip]
  split at h <;> cases h
  rename_i hin hwidth _
  exact ⟨not_not.1 hwidth, by omega⟩

/-- A write that sets a pending bit is a CMD write while BUSY, which sets OVERRUN, or an IN_DATA write with INF full,
which sets IN_OVF (20_memory R66, R67); a write to IRQ only clears. -/
theorem writeOff_sets_irq {off : Nat} {v : Word} (h : (writeOff off v s).irq.getLsbD i = true) :
    s.irq.getLsbD i = true ∨ (i = 1 ∧ off = 0x18 ∧ s.busy = true) ∨
      (i = 2 ∧ off = 0x38 ∧ s.cfg.inDepth ≤ s.inf.length) := by
  unfold writeOff at h
  split at h
  case h_2 =>
    rw [BitVec.getLsbD_and, Bool.and_eq_true] at h
    exact .inl h.1
  case h_4 hr =>
    cases hb : s.busy with
    | false => rw [issue_of_idle hb] at h; exact .inl h
    | true =>
      rw [issue_of_busy hb] at h
      exact (getLsbD_or_twoPow (j := 1) h).imp_right fun hi => .inl ⟨hi, Reg.ofOff_eq_some_iff.1 hr, rfl⟩
  case h_7 hr =>
    obtain hroom | hfull := Nat.lt_or_ge s.inf.length s.cfg.inDepth
    · rw [pushIn_of_room hroom] at h; exact .inl h
    · rw [pushIn_of_full hfull] at h
      exact (getLsbD_or_twoPow (j := 2) h).imp_right fun hi => .inr ⟨hi, Reg.ofOff_eq_some_iff.1 hr, hfull⟩
  all_goals exact .inl h

/-- A pending bit that is 1 after a step was 1 before it, or the step is of the bit's source (R227). -/
theorem step_sets_irq (h : step s = .next s') (hi : s'.irq.getLsbD i = true) :
    s.irq.getLsbD i = true ∨ s.irqSource i := by
  have hdone : ∀ rest, s.busy = true → engineNext s rest → s'.irq = s.irq ||| irqCmdDone →
      s.irq.getLsbD i = true ∨ s.irqSource i := by
    intro rest hb hn hirq
    rw [hirq] at hi
    obtain hold | rfl := getLsbD_or_twoPow (j := 0) hi
    · exact .inl hold
    · exact .inr ⟨hb, rest, hn⟩
  obtain ⟨_, rest, hb, -, hn, he⟩ | ⟨-, rest, hb, -, hn, rfl⟩ | ⟨-, -, -, rfl⟩ | ⟨-, -, -, off, -, -, rfl⟩ |
    ⟨_, _, v, rest, off, hag, ha, rfl⟩ | ⟨_, _, -, rfl⟩ | ⟨-, rfl⟩ := step_cases h
  · exact hdone rest hb hn (exec_irq (s := s.rest) he)
  · exact hdone rest hb hn rfl
  · exact .inl hi
  · obtain he | ⟨_, _, -, he⟩ := readOff_state off s.rest <;> rw [he] at hi <;> exact .inl hi
  · obtain ⟨rfl, rfl⟩ := eq_of_accessOffset_eq_ok ha
    obtain hold | ⟨rfl, rfl, hb⟩ | ⟨rfl, rfl, hfull⟩ := writeOff_sets_irq (s := s.rest) hi
    · exact .inl hold
    · exact .inr ⟨hb, v, rest, hag⟩
    · exact .inr ⟨hfull, v, rest, hag⟩
  · exact .inl hi
  · exact absurd (hi.symm.trans BitVec.getLsbD_zero) (by decide)

/-- A step that sets a pending bit is of the bit's source (R227). -/
theorem irqSource_of_step (h : step s = .next s') (hold : s.irq.getLsbD i = false) (hi : s'.irq.getLsbD i = true) :
    s.irqSource i :=
  (step_sets_irq h hi).resolve_left (Bool.eq_false_iff.1 hold)

end

/-- Settles O49: `irq_out` bit by bit, and the source of each of the three pending bits. -/
theorem interruptBitsAreSetByTheirSources : Obligations.InterruptBitsAreSetByTheirSources := by
  unfold Obligations.InterruptBitsAreSetByTheirSources
  exact ⟨irqOut_iff, fun _ _ h =>
    ⟨irqSource_of_step h (i := 0), irqSource_of_step h (i := 1), irqSource_of_step h (i := 2)⟩⟩

end Sys2Proof.Machine

/-! ## Admitted accesses while a command is pending, and its completion (20_memory R73; 70_reset R262) -/

namespace Sys2Proof.Machine

section
variable {s : State} {a : Access} {rest : List Turn}

/-- A register read changes neither the parameters nor the turns to come, nor what is pending (20_memory R64). -/
theorem readOff_frame (off : Nat) (s : State) :
    (readOff off s).2.cfg = s.cfg ∧ (readOff off s).2.agenda = s.agenda ∧ (readOff off s).2.busy = s.busy := by
  obtain he | ⟨_, _, -, he⟩ := readOff_state off s <;> rw [he] <;> exact ⟨rfl, rfl, rfl⟩

/-- A register write changes neither the parameters nor the turns to come, and it leaves a pending command pending: a
CMD write is dropped (20_memory R65 to R67). -/
theorem writeOff_frame (off : Nat) (v : Word) (hb : s.busy = true) :
    (writeOff off v s).cfg = s.cfg ∧ (writeOff off v s).agenda = s.agenda ∧ (writeOff off v s).busy = true := by
  obtain he | he | he | he | ⟨-, hidle⟩ | ⟨he, -⟩ | he | he | ⟨he, -⟩ | ⟨he, -⟩ := writeOff_cases off v s
  case inr.inr.inr.inr.inl => exact absurd (hb.symm.trans hidle) (by decide)
  all_goals rw [he]; exact ⟨rfl, rfl, hb⟩

/-- A host access that is answered leaves a pending command pending. -/
theorem hostAccess_frame {t : State} (hb : s.busy = true) (h : hostAccess a s = .next t) :
    t.cfg = s.cfg ∧ t.agenda = s.agenda ∧ t.busy = true := by
  cases a with
  | read width addr =>
    rw [hostAccess] at h
    cases ho : accessOffset s.cfg width addr with
    | error r => rw [ho] at h; cases h
    | ok off =>
      rw [ho] at h
      cases h
      obtain ⟨hcfg, hag, hbusy⟩ := readOff_frame off s
      exact ⟨hcfg, hag, hbusy.trans hb⟩
  | write width addr v =>
    rw [hostAccess] at h
    cases ho : accessOffset s.cfg width addr with
    | error r => rw [ho] at h; cases h
    | ok off =>
      rw [ho] at h
      cases h
      exact writeOff_frame off v hb

/-- The turn of an admitted access is used up, and a pending command stays pending (20_memory R63). -/
theorem exists_step_host (hb : s.busy = true) (hag : s.agenda = .host a :: rest) (ha : Admitted s.cfg a) :
    ∃ t, step s = .next t ∧ t.cfg = s.cfg ∧ t.agenda = rest ∧ t.busy = true := by
  have hnot : ¬ ∃ r, hostAccess a { s with agenda := rest } = .refused r :=
    fun hr => (hostAccess_refused_iff a _).1 hr ha
  obtain ⟨t, ht⟩ := (exists_next_iff_not_refused _).2 hnot
  exact ⟨t, (step_host hag).trans ht, hostAccess_frame (s := { s with agenda := rest }) hb ht⟩

/-- The engine's turn completes a pending command, legal or not, and takes no other turn (30_encoding R93, R96). -/
theorem exists_engineTurn_completes (hb : s.busy = true) :
    ∃ t, engineTurn s = .next t ∧ t.busy = false ∧ t.agenda = s.agenda := by
  by_cases hd : ∃ i, decode s.pendCmd = .ok i
  · obtain ⟨i, hi⟩ := hd
    have hexec := exec_eq i s
    obtain ⟨-, -, hag, -⟩ := hostRegistersKeptByCommands i s _ hexec
    exact ⟨_, (engineTurn_of_decode hb hi).trans hexec, exec_busy hexec, hag⟩
  · exact ⟨_, engineTurn_of_not_decode hb hd, rfl, rfl⟩

/-- A pending command completes after the admitted accesses `turns`, by induction on them. -/
theorem run_pending (turns : List Turn) : ∀ s : State, s.agenda = turns → s.busy = true →
    (∀ t ∈ turns, ∃ a, t = .host a ∧ Admitted s.cfg a) →
    ∃ s', Host.Core.run core (turns.length + 1) s = .next s' ∧ s'.busy = false ∧ s'.agenda = [] := by
  induction turns with
  | nil =>
    intro s hag hb _
    obtain ⟨t, ht, hbusy, hrest⟩ := exists_engineTurn_completes (s := { s with agenda := [] }) hb
    exact ⟨t, run_succ core 0 ((step_of_engineNext (.inl ⟨hag, rfl⟩)).trans ht), hbusy, hrest⟩
  | cons turn rest ih =>
    intro s hag hb hall
    obtain ⟨⟨a, rfl, ha⟩, hrest⟩ := List.forall_mem_cons.1 hall
    obtain ⟨t, ht, hcfg, hag', hbusy⟩ := exists_step_host hb hag ha
    obtain ⟨s', hrun, hdone⟩ := ih t hag' hbusy (hcfg ▸ hrest)
    exact ⟨s', (run_succ core (rest.length + 1) ht).trans hrun, hdone⟩

end

/-- Settles O50: every admitted access uses up its turn and leaves the command pending, and then the engine moves
(`run_pending`). -/
theorem pendingCommandEventuallyCompletes : Obligations.PendingCommandEventuallyCompletes := by
  unfold Obligations.PendingCommandEventuallyCompletes
  exact fun s hb hall => run_pending s.agenda s rfl hb hall

end Sys2Proof.Machine

/-! ## The state after a reset (70_reset R250, R251) -/

namespace Sys2Proof.Machine

section
variable {s : State} {c : Config} {r : Reg} {rest : List Turn}

/-- PARAM of legal parameters: OUT_DEPTH above IN_DEPTH, each of which fits its 16 bits (00_scope R6; 10_state R22). -/
theorem paramReg_eq (h : s.cfg.wf = true) : s.paramReg = BitVec.ofNat 32 (s.cfg.outDepth * 65536 + s.cfg.inDepth) := by
  have hin : s.cfg.inDepth < 65536 := by
    simp only [Config.wf, Bool.and_eq_true, decide_eq_true_eq] at h
    omega
  have hout := Config.outDepth_le h
  refine BitVec.eq_of_toNat_eq ?_
  rw [State.paramReg, BitVec.toNat_append, BitVec.toNat_ofNat, BitVec.toNat_ofNat, BitVec.toNat_ofNat,
    Nat.mod_eq_of_lt (by omega), Nat.mod_eq_of_lt (by omega), Nat.mod_eq_of_lt (by omega),
    ← Nat.shiftLeft_add_eq_or_of_lt (by omega), Nat.shiftLeft_eq]

/-- Only PARAM and STATUS are assembled from the parameters; every other register reads after a reset as it does with
the default ones (70_reset R250: "No reset value depends on a parameter"). -/
theorem regValue_resetWith_eq (c : Config) (hparam : r ≠ .PARAM) (hstatus : r ≠ .STATUS) :
    (State.resetWith c).regValue r = State.reset.regValue r := by
  cases r with
  | PARAM => exact absurd rfl hparam
  | STATUS => exact absurd rfl hstatus
  | _ => rfl

/-- Every register but ID, PARAM and STATUS reads 0 after a reset (70_reset R251). -/
theorem regValue_resetWith_eq_zero (c : Config) (hid : r ≠ .ID) (hparam : r ≠ .PARAM) (hstatus : r ≠ .STATUS) :
    (State.resetWith c).regValue r = 0 := by
  rw [regValue_resetWith_eq c hparam hstatus]
  cases r with
  | ID => exact absurd rfl hid
  | PARAM => exact absurd rfl hparam
  | STATUS => exact absurd rfl hstatus
  | _ => decide

/-- No node is allocated after a reset, so NRD reads 0 (42_tree_builder R137). -/
theorem nodeRead_resetWith (c : Config) (n : NodeIx) (sel : BitVec 2) : (State.resetWith c).nodeRead n sel = 0 :=
  if_pos (Nat.zero_le _)

/-- A step whose turn is a hardware reset (70_reset R250). -/
theorem step_hwReset (h : s.agenda = .hwReset :: rest) :
    step s = .next ({ s with agenda := rest } : State).hwReset := by
  simp only [step, h, takeTurn]

/-- The stream invariant after a reset: the FIFOs and the bit buffers are empty. -/
theorem streamInv_resetWith (h : c.wf = true) : StreamInv (State.resetWith c) :=
  .of_empty h rfl rfl rfl rfl

/-- The status invariant after a reset: no table is valid, ERR and RESULT are 0, and NEED_IN is 0. -/
theorem statusInv_resetWith (c : Config) : StatusInv (State.resetWith c) :=
  ⟨nofun, Nat.zero_le _, fun _ => rfl, nofun⟩

end

/-- Settles O53: the registers by `paramReg_eq`, `status_resetWith` and `regValue_resetWith_eq_zero`; HRD and NRD
succeed and read 0, and the other commands report what the requirement matrix says of a state without tree and codes
(`errFollowsRequirements`). -/
theorem resetRegisterValues : Obligations.ResetRegisterValues := by
  unfold Obligations.ResetRegisterValues
  intro c hwf
  have herr := fun i => errFollowsRequirements i (State.resetWith c)
  exact ⟨rfl, paramReg_eq (s := State.resetWith c) hwf, status_resetWith hwf, fun _ => regValue_resetWith_eq_zero c,
    fun sym => ⟨_, exec_eq (.hrd sym) _, rfl, histAt_cleared (State.resetWith c) sym⟩,
    fun n sel => ⟨_, exec_eq (.nrd n sel) _, rfl, nodeRead_resetWith c n sel⟩,
    fun sym => herr (.clen sym), fun sym wrd => herr (.cbits sym wrd), fun sym => herr (.enc sym),
    herr .genc, herr .dec⟩

/-- Settles O54: the turn is `State.hwReset`, which is the reset state but for the environment's fields. -/
theorem hardwareResetRestoresState : Obligations.HardwareResetRestoresState := by
  unfold Obligations.HardwareResetRestoresState
  exact fun s rest h => ⟨_, step_hwReset h, rfl, rfl, rfl⟩

/-- Settles O55: after a reset the streams and the tree are empty, ERR is 0 and no table is valid. -/
theorem resetMeetsInvariant : Obligations.ResetMeetsInvariant := by
  unfold Obligations.ResetMeetsInvariant
  exact fun c hwf => ⟨streamInv_resetWith hwf, statusInv_resetWith c, .of_empty rfl rfl rfl rfl rfl rfl,
    .of_invalid rfl rfl⟩

end Sys2Proof.Machine

/-! ## Command words of the spec (30_encoding R96, R99; 95_test_vectors) -/

namespace Sys2Proof.Machine

/-- Settles O1, by the opcode of the encoded word and the operands in its operand area (`decode_encode`). -/
theorem decodeOfEncode : Obligations.DecodeOfEncode := by
  unfold Obligations.DecodeOfEncode
  exact decode_encode

/-- Settles O4: the bits that each word's format names are the encoding of its command (30_encoding R91), and 0x03 is no
opcode of R95. -/
theorem wordsOfTheSpecDecode : Obligations.WordsOfTheSpecDecode := by
  unfold Obligations.WordsOfTheSpecDecode
  have hword (w : Word) (i : Instr) (h : w &&& namedBits i = encode i) : decode w = .ok i :=
    (decodeReadsNamedBitsOnly w i).2 h
  exact ⟨hword _ (.enc 0x41) (by decide), hword _ (.cbits 7 1) (by decide), hword _ (.nrd 6 2) (by decide),
    hword _ (.hwr 0x41) (by decide), hword _ (.cbits 0x43 0) (by decide), hword _ .nop (by decide),
    hword _ .build (by decide), hword _ .genc (by decide), hword _ .flush (by decide), hword _ .dec (by decide),
    hword _ .sclr (by decide), rfl⟩

end Sys2Proof.Machine

/-! ## What changes HIST and the valid bits (10_state R31, R38, R39) -/

namespace Sys2Proof.Machine

section
variable {s s' : State} {i : Instr}

/-- `t` has the counters and the valid bits of `s`. -/
structure SameValid (s t : State) : Prop where
  hist : t.hist = s.hist
  treeValid : t.treeValid = s.treeValid
  codesValid : t.codesValid = s.codesValid

/-- A register read leaves counters and valid bits alone. -/
theorem readOff_sameValid (off : Nat) (s : State) : SameValid s (readOff off s).2 := by
  obtain he | ⟨b, rest, -, he⟩ := readOff_state off s <;> rw [he] <;> exact ⟨rfl, rfl, rfl⟩

/-- A register write leaves counters and valid bits alone. -/
theorem writeOff_sameValid (off : Nat) (v : Word) (s : State) : SameValid s (writeOff off v s) := by
  obtain he | he | he | he | ⟨he, -⟩ | ⟨he, -⟩ | he | he | ⟨he, -⟩ | ⟨he, -⟩ := writeOff_cases off v s <;>
    rw [he] <;> exact ⟨rfl, rfl, rfl⟩

/-- A step that runs a command answers its completion. -/
theorem eq_complete_of_runs (hrun : runs s i) (h : step s = .next s') : s' = complete s.rest (execOut i s.rest) :=
  Host.Outcome.next.inj (h.symm.trans (step_of_runs hrun))

/-- Every step leaves counters and valid bits alone, unless it runs a command or is a hardware reset. -/
theorem step_sameValid_or (h : step s = .next s') : SameValid s s' ∨ (∃ i, runs s i) ∨ resetNext s := by
  obtain ⟨i, rest, hbusy, hd, hn, -⟩ | ⟨-, -, -, -, -, rfl⟩ | ⟨-, -, -, rfl⟩ | ⟨-, -, -, off, -, -, rfl⟩ |
    ⟨-, -, v, -, off, -, -, rfl⟩ | ⟨-, -, -, rfl⟩ | ⟨hreset, -⟩ := step_cases h
  · exact .inr (.inl ⟨i, hbusy, hd, rest, hn⟩)
  · exact .inl ⟨rfl, rfl, rfl⟩
  · exact .inl ⟨rfl, rfl, rfl⟩
  · obtain ⟨hh, ht, hc⟩ := readOff_sameValid off s.rest
    exact .inl ⟨hh, ht, hc⟩
  · obtain ⟨hh, ht, hc⟩ := writeOff_sameValid off v s.rest
    exact .inl ⟨hh, ht, hc⟩
  · exact .inl ⟨rfl, rfl, rfl⟩
  · exact .inr (.inr hreset)

/-- HIST changes in HCLR, HWR and SRST alone; of the other commands, only BUILD changes TREE_VALID, and only BUILD and
GENC change CODES_VALID. -/
theorem complete_valid (hsrst : i ≠ .srst) (hhclr : i ≠ .hclr) (hhwr : ∀ sym, i ≠ .hwr sym) :
    (complete s (execOut i s)).hist = s.hist ∧
    (i ≠ .build → (complete s (execOut i s)).treeValid = s.treeValid ∧
      (i ≠ .genc → (complete s (execOut i s)).codesValid = s.codesValid)) := by
  by_cases hb : i = .build
  · subst hb
    exact ⟨rfl, fun hb => absurd rfl hb⟩
  · obtain ⟨r, s', ho, hc⟩ | ⟨e, -, hc⟩ := complete_cases s (execOut i s) <;> rw [hc]
    · obtain ⟨hhist, htree, hcodes⟩ := (execOut_tables ho hsrst hb).2 hhclr hhwr
      exact ⟨hhist, fun _ => ⟨htree, fun hg => (hcodes hg).1⟩⟩
    · exact ⟨rfl, fun _ => ⟨rfl, fun _ => rfl⟩⟩

/-- HCLR, HWR, SRST and a hardware reset clear both valid bits. -/
theorem step_clears_valid (h : step s = .next s')
    (hcase : runs s .hclr ∨ runs s .srst ∨ resetNext s ∨ ∃ sym, runs s (.hwr sym)) :
    s'.treeValid = false ∧ s'.codesValid = false := by
  obtain hrun | hrun | ⟨rest, hreset⟩ | ⟨sym, hrun⟩ := hcase
  · rw [eq_complete_of_runs hrun h]; exact ⟨rfl, rfl⟩
  · rw [eq_complete_of_runs hrun h]; exact ⟨rfl, rfl⟩
  · cases h.symm.trans (step_hwReset hreset); exact ⟨rfl, rfl⟩
  · rw [eq_complete_of_runs hrun h]; exact ⟨rfl, rfl⟩

/-- GENC with a valid tree sets CODES_VALID and keeps TREE_VALID (43_code_table R160). -/
theorem step_genc_of_valid (hrun : runs s .genc) (hv : s.treeValid = true) (h : step s = .next s') :
    s'.codesValid = true ∧ s'.treeValid = true := by
  rw [eq_complete_of_runs hrun h, execOut, gencOut_of_valid (s := s.rest) hv]
  exact ⟨rfl, hv⟩

/-- GENC without a valid tree fails, and changes neither bit (43_code_table R160; 60_exceptions R224). -/
theorem step_genc_of_invalid (hrun : runs s .genc) (hv : s.treeValid = false) (h : step s = .next s') :
    s'.treeValid = false ∧ s'.codesValid = s.codesValid := by
  have hout : execOut .genc s.rest = .raise .noTree := if_pos hv
  rw [eq_complete_of_runs hrun h, hout]
  exact ⟨hv, rfl⟩

/-- A step other than HCLR, HWR, SRST and a hardware reset changes no counter, TREE_VALID only if it is BUILD, and
CODES_VALID only if it is BUILD or GENC. -/
theorem step_keeps_valid (h : step s = .next s') (hhclr : ¬ runs s .hclr) (hsrst : ¬ runs s .srst)
    (hreset : ¬ resetNext s) (hhwr : ∀ sym, ¬ runs s (.hwr sym)) :
    s'.hist = s.hist ∧
    (¬ runs s .build → s'.treeValid = s.treeValid ∧ (¬ runs s .genc → s'.codesValid = s.codesValid)) := by
  obtain ⟨hh, ht, hc⟩ | ⟨i, hrun⟩ | hr := step_sameValid_or h
  · exact ⟨hh, fun _ => ⟨ht, fun _ => hc⟩⟩
  · have hne {j : Instr} (hj : ¬ runs s j) : i ≠ j := fun e => hj (e ▸ hrun)
    rw [eq_complete_of_runs hrun h]
    obtain ⟨hhist, hvalid⟩ := complete_valid (s := s.rest) (hne hsrst) (hne hhclr) fun sym => hne (hhwr sym)
    exact ⟨hhist, fun hb => ⟨(hvalid (hne hb)).1, fun hg => (hvalid (hne hb)).2 (hne hg)⟩⟩
  · exact absurd hr hreset

end

/-- Settles O10, clause by clause: what BUILD writes, GENC with a tree, the four that clear both bits, GENC without a
tree, and the frame over all other steps. -/
theorem validBitsChangeOnlyAsStated : Obligations.ValidBitsChangeOnlyAsStated := by
  unfold Obligations.ValidBitsChangeOnlyAsStated
  intro s s' h
  refine ⟨fun hrun => ?_, fun hrun hv => step_genc_of_valid hrun hv h, step_clears_valid h,
    fun hrun hv => step_genc_of_invalid hrun hv h, step_keeps_valid h⟩
  rw [eq_complete_of_runs hrun h]
  exact ⟨rfl, rfl⟩

end Sys2Proof.Machine
